-- ==== Sys2Proof/Word.lean ====
section
/-! DEFINITION. The word types of the block: bytes, link and IP addresses, tags, handles, the 32-bit command word. -/

namespace Sys2Proof

/-- An unsigned 8-bit value (00_scope.md R10). -/
abbrev Byte := BitVec 8

/-- A 32-bit command word (30_encoding.md R80). -/
abbrev CmdWord := BitVec 32

/-- A 16-bit header field: protocol type, TPID or TCI (20_memory.md R63). -/
abbrev Half := BitVec 16

/-- A 12-bit VLAN tag (10_state.md R31). -/
abbrev Tag := BitVec 12

/-- A 16-bit packet handle (10_state.md R38). -/
abbrev Handle := BitVec 16

/-- A link address; index 0 is the first octet on the wire (00_scope.md R10). -/
abbrev Addr6 := Vector Byte 6

/-- An IPv4 address; index 0 is the top octet (00_scope.md R10). -/
abbrev Ip4 := Vector Byte 4

/-- An IPv6 address in textual order (00_scope.md R10). -/
abbrev Ip6 := Vector Byte 16

end Sys2Proof
end

