-- ==== Sys2Proof/Syntax.lean ====
section
/-! DEFINITION. The commands: one constructor per row of spec/opcode_table.json. -/

namespace Sys2Proof

/-- A command with its `CMD` operand fields (30_encoding.md R82, R83): `ifx` the interface index, `tag` the VLAN tag,
`f` the Boolean. Operands in registers are no part of a command (R85). -/
inductive Instr where
  | clsBcast
  | clsMcast
  | mapIpv6
  | mapIpv4
  | bcastAddr
  | vlanInit (ifx : Nat)
  | vlanEnable (ifx : Nat) (tag : Tag)
  | vlanDisable (ifx : Nat) (tag : Tag)
  | vlanIsEnabled (ifx : Nat)
  | vlanLookup (tag : Tag)
  | vlanGetTag (ifx : Nat)
  | rx (ifx : Nat)
  | tx (ifx : Nat)
  | hdrBuild (ifx : Nat)
  | hdrReserve (ifx : Nat)
  | l2Enable (ifx : Nat) (f : Bool)
  deriving DecidableEq, Repr, Inhabited

/-- The interface index field, for the commands that have one (30_encoding.md R83). -/
def Instr.ifx? : Instr → Option Nat
  | .clsBcast => none
  | .clsMcast => none
  | .mapIpv6 => none
  | .mapIpv4 => none
  | .bcastAddr => none
  | .vlanInit i => some i
  | .vlanEnable i _ => some i
  | .vlanDisable i _ => some i
  | .vlanIsEnabled i => some i
  | .vlanLookup _ => none
  | .vlanGetTag i => some i
  | .rx i => some i
  | .tx i => some i
  | .hdrBuild i => some i
  | .hdrReserve i => some i
  | .l2Enable i _ => some i

end Sys2Proof
end

