-- ==== Sys2Proof/WellFormed.lean ====
section
/-! DEFINITION. Well-formed commands: those a 32-bit command word can hold. -/

namespace Sys2Proof

/-- The interface index fits the 8-bit field `IFX` (30_encoding.md R81, R82). The 12-bit tag and the Boolean fit by
their types. -/
def Instr.wellFormed (i : Instr) : Bool :=
  match i.ifx? with
  | none => true
  | some n => decide (n < 256)

end Sys2Proof
end

