-- ==== Sys2Proof/Decode.lean ====
section
/-! DEFINITION. The opcode map of 30_encoding.md R83, the decoder (total, rejecting by name) and the encoder. -/

namespace Sys2Proof

/-- The rows of the opcode map (30_encoding.md R83). -/
inductive Op where
  | clsBcast | clsMcast | mapIpv6 | mapIpv4 | bcastAddr
  | vlanInit | vlanEnable | vlanDisable | vlanIsEnabled | vlanLookup | vlanGetTag
  | rx | tx | hdrBuild | hdrReserve | l2Enable
  deriving DecidableEq, Repr, Inhabited

/-- Every row, in the table's order. -/
def Op.all : List Op :=
  [.clsBcast, .clsMcast, .mapIpv6, .mapIpv4, .bcastAddr,
   .vlanInit, .vlanEnable, .vlanDisable, .vlanIsEnabled, .vlanLookup, .vlanGetTag,
   .rx, .tx, .hdrBuild, .hdrReserve, .l2Enable]

/-- The column `match` of 30_encoding.md R83. -/
def Op.matchWord : Op → CmdWord
  | .clsBcast => 0x00000001
  | .clsMcast => 0x00000002
  | .mapIpv6 => 0x00000003
  | .mapIpv4 => 0x00000004
  | .bcastAddr => 0x00000005
  | .vlanInit => 0x00000010
  | .vlanEnable => 0x00000011
  | .vlanDisable => 0x00000012
  | .vlanIsEnabled => 0x00000013
  | .vlanLookup => 0x00000014
  | .vlanGetTag => 0x00000015
  | .rx => 0x00000020
  | .tx => 0x00000021
  | .hdrBuild => 0x00000022
  | .hdrReserve => 0x00000023
  | .l2Enable => 0x00000030

/-- The column `mask` of 30_encoding.md R83. -/
def Op.mask : Op → CmdWord
  | .clsBcast => 0xFFFFFFFF
  | .clsMcast => 0xFFFFFFFF
  | .mapIpv6 => 0xFFFFFFFF
  | .mapIpv4 => 0xFFFFFFFF
  | .bcastAddr => 0xFFFFFFFF
  | .vlanInit => 0xFFFF00FF
  | .vlanEnable => 0xF00000FF
  | .vlanDisable => 0xF00000FF
  | .vlanIsEnabled => 0xFFFF00FF
  | .vlanLookup => 0xF000FFFF
  | .vlanGetTag => 0xFFFF00FF
  | .rx => 0xFFFF00FF
  | .tx => 0xFFFF00FF
  | .hdrBuild => 0xFFFF00FF
  | .hdrReserve => 0xFFFF00FF
  | .l2Enable => 0xEFFF00FF

/-- `OPC = CMD[7:0]` (30_encoding.md R81). -/
def wordOpc (w : CmdWord) : BitVec 8 := w.extractLsb' 0 8

/-- `IFX = CMD[15:8]`, zero-extended (30_encoding.md R82). -/
def wordIfx (w : CmdWord) : Nat := (w.extractLsb' 8 8).toNat

/-- `TAG = CMD[27:16]` (30_encoding.md R82). -/
def wordTag (w : CmdWord) : Tag := w.extractLsb' 16 12

/-- `F = CMD[28]` (30_encoding.md R82). -/
def wordF (w : CmdWord) : Bool := w.getLsbD 28

/-- The row a word's opcode selects; `none` for a reserved opcode (30_encoding.md R84, R86). -/
def Op.select (w : CmdWord) : Option Op := Op.all.find? fun o => wordOpc o.matchWord == wordOpc w

/-- The command of a row, its operands taken from the word (30_encoding.md R82). -/
def Op.build (o : Op) (w : CmdWord) : Instr :=
  match o with
  | .clsBcast => .clsBcast
  | .clsMcast => .clsMcast
  | .mapIpv6 => .mapIpv6
  | .mapIpv4 => .mapIpv4
  | .bcastAddr => .bcastAddr
  | .vlanInit => .vlanInit (wordIfx w)
  | .vlanEnable => .vlanEnable (wordIfx w) (wordTag w)
  | .vlanDisable => .vlanDisable (wordIfx w) (wordTag w)
  | .vlanIsEnabled => .vlanIsEnabled (wordIfx w)
  | .vlanLookup => .vlanLookup (wordTag w)
  | .vlanGetTag => .vlanGetTag (wordIfx w)
  | .rx => .rx (wordIfx w)
  | .tx => .tx (wordIfx w)
  | .hdrBuild => .hdrBuild (wordIfx w)
  | .hdrReserve => .hdrReserve (wordIfx w)
  | .l2Enable => .l2Enable (wordIfx w) (wordF w)

/-- Why a word is no encoding of a command: items 1 and 2 of 30_encoding.md R88. -/
inductive DecodeReject where
  | reservedOpcode
  | nonzeroField
  deriving DecidableEq, Repr, Inhabited

/-- The decoder, total on every word (30_encoding.md R84, R88 items 1 and 2, in that order). -/
def decode (w : CmdWord) : Except DecodeReject Instr :=
  match Op.select w with
  | none => .error .reservedOpcode
  | some o => if w &&& o.mask = o.matchWord then .ok (o.build w) else .error .nonzeroField

/-- A table row's word of `nbits` bits, read by `decode`; `none` where it refuses. Every row has 32 bits
(30_encoding.md R80). -/
def decodeTableWord (nbits w : Nat) : Option Instr :=
  match decode (BitVec.ofNat 32 (w % 2 ^ nbits)) with
  | .ok i => some i
  | .error _ => none

/-- The row a command belongs to. -/
def Instr.op : Instr → Op
  | .clsBcast => .clsBcast
  | .clsMcast => .clsMcast
  | .mapIpv6 => .mapIpv6
  | .mapIpv4 => .mapIpv4
  | .bcastAddr => .bcastAddr
  | .vlanInit _ => .vlanInit
  | .vlanEnable _ _ => .vlanEnable
  | .vlanDisable _ _ => .vlanDisable
  | .vlanIsEnabled _ => .vlanIsEnabled
  | .vlanLookup _ => .vlanLookup
  | .vlanGetTag _ => .vlanGetTag
  | .rx _ => .rx
  | .tx _ => .tx
  | .hdrBuild _ => .hdrBuild
  | .hdrReserve _ => .hdrReserve
  | .l2Enable _ _ => .l2Enable

/-- The word with the given fields, `RSV = 0` (30_encoding.md R90: `F<<28 | TAG<<16 | IFX<<8 | OPC`). -/
def assemble (opc : CmdWord) (ifx : Nat) (tag : Tag) (f : Bool) : CmdWord :=
  ((BitVec.ofBool f).zeroExtend 32 <<< 28) ||| (tag.zeroExtend 32 <<< 16)
    ||| ((BitVec.ofNat 8 ifx).zeroExtend 32 <<< 8) ||| opc

/-- The encoder: the word of a well-formed command (30_encoding.md R83, R90). -/
def encode : Instr → CmdWord
  | .clsBcast => assemble 0x01 0 0 false
  | .clsMcast => assemble 0x02 0 0 false
  | .mapIpv6 => assemble 0x03 0 0 false
  | .mapIpv4 => assemble 0x04 0 0 false
  | .bcastAddr => assemble 0x05 0 0 false
  | .vlanInit i => assemble 0x10 i 0 false
  | .vlanEnable i t => assemble 0x11 i t false
  | .vlanDisable i t => assemble 0x12 i t false
  | .vlanIsEnabled i => assemble 0x13 i 0 false
  | .vlanLookup t => assemble 0x14 0 t false
  | .vlanGetTag i => assemble 0x15 i 0 false
  | .rx i => assemble 0x20 i 0 false
  | .tx i => assemble 0x21 i 0 false
  | .hdrBuild i => assemble 0x22 i 0 false
  | .hdrReserve i => assemble 0x23 i 0 false
  | .l2Enable i f => assemble 0x30 i 0 f

end Sys2Proof
end

