-- ==== Sys2Proof/Machine/Packet.lean ====
section
/-! DEFINITION. Packets and fragments (host memory the block accesses), byte order, and the byte-level memory primitives. -/

namespace Sys2Proof.Machine

/-- `ll_type` (10_state.md R39). -/
inductive LlType where
  | none
  | ethernet
  deriving DecidableEq, Repr, Inhabited

/-- One buffer segment (10_state.md R40). `Frag.wf` is R40's condition on it. -/
structure Frag where
  buf : List Byte
  off : Nat
  len : Nat
  deriving DecidableEq, Repr, Inhabited

/-- A packet record: the metadata of 10_state.md R39 and the fragment chain. -/
structure Packet where
  family    : BitVec 2
  vlanTci   : Half
  priority  : BitVec 3
  llReserve : BitVec 8
  llSrc     : Option Addr6
  llDst     : Option Addr6
  llType    : LlType
  frags     : List Frag
  deriving DecidableEq, Repr, Inhabited

/-- `family` code 0 `NONE` (10_state.md R39). -/
abbrev familyNone : BitVec 2 := 0
/-- `family` code 1 `IPV4` (10_state.md R39). -/
abbrev familyIpv4 : BitVec 2 := 1
/-- `family` code 2 `IPV6` (10_state.md R39). -/
abbrev familyIpv6 : BitVec 2 := 2

/-- `off + len ≤ size(buf)` (10_state.md R40). -/
def Frag.wf (f : Frag) : Bool := decide (f.off + f.len ≤ f.buf.length)

/-- Every fragment is a fragment record in the sense of 10_state.md R40. -/
def Packet.wf (p : Packet) : Bool := p.frags.all Frag.wf

/-- The data view `buf[off..off+len)` (10_state.md R40). -/
def Frag.data (f : Frag) : List Byte := (f.buf.drop f.off).take f.len

/-- `Data(pkt)` (10_state.md R40). -/
def Packet.data (p : Packet) : List Byte := p.frags.flatMap Frag.data

/-- `Len(pkt)` (10_state.md R40). -/
def Packet.len (p : Packet) : Nat := (p.frags.map Frag.len).sum

/-- `be16(b[j..j+2))`: big-endian, the byte at `j` is the high one (00_scope.md R11). -/
def be16 (b : List Byte) (j : Nat) : Half := b.getD j 0 ++ b.getD (j + 1) 0

/-- The two bytes `put_be16` writes, in the order of their indices (00_scope.md R11). -/
def be16Bytes (v : Half) : List Byte := [v.extractLsb' 8 8, v.extractLsb' 0 8]

/-- The link address `b[j..j+6)` (00_scope.md R10). -/
def addr6At (b : List Byte) (j : Nat) : Addr6 :=
  #v[b.getD j 0, b.getD (j + 1) 0, b.getD (j + 2) 0, b.getD (j + 3) 0, b.getD (j + 4) 0, b.getD (j + 5) 0]

/-- The IPv4 address `b[j..j+4)` (00_scope.md R10). -/
def ip4At (b : List Byte) (j : Nat) : Ip4 :=
  #v[b.getD j 0, b.getD (j + 1) 0, b.getD (j + 2) 0, b.getD (j + 3) 0]

/-- The IPv6 address `b[j..j+16)` (00_scope.md R10). -/
def ip6At (b : List Byte) (j : Nat) : Ip6 :=
  #v[b.getD j 0, b.getD (j + 1) 0, b.getD (j + 2) 0, b.getD (j + 3) 0,
     b.getD (j + 4) 0, b.getD (j + 5) 0, b.getD (j + 6) 0, b.getD (j + 7) 0,
     b.getD (j + 8) 0, b.getD (j + 9) 0, b.getD (j + 10) 0, b.getD (j + 11) 0,
     b.getD (j + 12) 0, b.getD (j + 13) 0, b.getD (j + 14) 0, b.getD (j + 15) 0]

/-- The bytes `v` put at indices `j, j+1, …`; the size never changes (20_memory.md R62; log 17). -/
def writeBytes (b : List Byte) (j : Nat) : List Byte → List Byte
  | [] => b
  | v :: vs => writeBytes (b.set j v) (j + 1) vs

/-- `MemWrite` on one fragment (20_memory.md R62). -/
def Frag.memWrite (f : Frag) (j : Nat) (v : List Byte) : Frag := { f with buf := writeBytes f.buf j v }

/-- What the driver sends for a queued fragment: `buf[off − ll_reserve .. off + len)` (44_frame_sender.md R181). -/
def Frag.wireImage (f : Frag) (reserve : Nat) : List Byte :=
  (f.buf.drop (f.off - reserve)).take (f.off + f.len - (f.off - reserve))

/-- `VID = TCI[11:0]` (10_state.md R37). -/
def tciVid (t : Half) : Tag := t.extractLsb' 0 12

/-- `DEI = TCI[12]` (10_state.md R37). -/
def tciDei (t : Half) : Bool := t.getLsbD 12

/-- `PCP = TCI[15:13]` (10_state.md R37). -/
def tciPcp (t : Half) : BitVec 3 := t.extractLsb' 13 3

/-- `vlan_tci[11:0] <- v` (44_frame_sender.md R177). -/
def tciSetVid (t : Half) (v : Tag) : Half := t.extractLsb' 12 4 ++ v

/-- `vlan_tci[15:13] <- p`, DEI unchanged (44_frame_sender.md R177). -/
def tciSetPcp (t : Half) (p : BitVec 3) : Half := p ++ t.extractLsb' 0 13

end Sys2Proof.Machine
end

