-- ==== Sys2Proof/Config.lean ====
section
/-! DEFINITION. The launch configuration (00_scope.md R8, 10_state.md R27) as plain data, and the free values. -/

namespace Sys2Proof

open Sys2Proof.Machine

/-- One record of the interface registry (10_state.md R27). -/
structure Iface where
  isEth       : Bool
  linkAddr    : Addr6
  vlanCap     : Bool
  hasVlanHook : Bool
  deriving DecidableEq, Repr, Inhabited

/-- `ARP_FRAME_WITHOUT_ARP` (00_scope.md R8). -/
inductive ArpFramePolicy where
  | drop
  | forward
  deriving DecidableEq, Repr, Inhabited

/-- `INIT_FREE_SLOT` (00_scope.md R8). -/
inductive InitFreeSlot where
  | unbound
  | unspecOnly
  deriving DecidableEq, Repr, Inhabited

/-- The parameter `IPHDR` (20_memory.md R68): the default accessors, or the `k`-th triple of functions nothing is known of.
DESIGN CHOICE (log 3), safe. -/
inductive IpHdr where
  | standard
  | other (k : Nat)
  deriving DecidableEq, Repr, Inhabited

/-- The oracle `Owner` (60_exceptions.md R232): the transmit interface itself (CFG-A of 95_test_vectors.md), one fixed
answer, or the `k`-th function nothing is known of. DESIGN CHOICE (log 3), safe. -/
inductive OwnerOracle where
  | transmitIface
  | always (o : Option Nat)
  | other (k : Nat)
  deriving DecidableEq, Repr, Inhabited

/-- The launch premises (70_reset_and_hazards.md R242), constant while the block runs. `NUM_IFACES` is `ifaces.length`.
`subnetBcast` lists the pairs of interface and address for which the oracle `SubnetBcast` is true. -/
structure Launch where
  vlanCount   : Nat
  ifaces      : List Iface
  arpEnabled  : Bool
  arpFrames   : ArpFramePolicy
  initFree    : InitFreeSlot
  tagUnspec   : Tag
  etypeIpv4   : Half
  etypeArp    : Half
  etypeIpv6   : Half
  etypeVlan   : Half
  ipHdr       : IpHdr
  subnetBcast : List (Nat × Ip4)
  owner       : OwnerOracle
  deriving DecidableEq, Repr, Inhabited

/-- `NUM_IFACES` (00_scope.md R8). -/
abbrev Launch.numIfaces (c : Launch) : Nat := c.ifaces.length

/-- The ranges of 00_scope.md R8 and the registry's well-formedness of 10_state.md R28. -/
def Launch.wf (c : Launch) : Bool :=
  decide (1 ≤ c.vlanCount) && decide (c.vlanCount ≤ 255)
    && decide (1 ≤ c.numIfaces) && decide (c.numIfaces ≤ 256)
    && c.ifaces.all (fun f => !f.vlanCap || f.isEth)

/-- `ETH_MIN_FRAME`, informative: no rule reads it (00_scope.md R8). -/
def ethMinFrame : Nat := 60

/-- Configuration CFG-A of 95_test_vectors.md section 0, which `State.reset` launches with (log 2, DESIGN CHOICE). The
ethertypes and `TAG_UNSPEC` are the defaults of 00_scope.md R8. -/
def Launch.cfgA : Launch where
  vlanCount := 2
  ifaces :=
    [ ⟨true, #v[0x02, 0, 0, 0, 0, 0x01], true, true⟩,
      ⟨true, #v[0x02, 0, 0, 0, 0, 0x02], true, false⟩,
      ⟨false, #v[0x02, 0, 0, 0, 0, 0x03], false, false⟩ ]
  arpEnabled := false
  arpFrames := .drop
  initFree := .unbound
  tagUnspec := 0x0FFF
  etypeIpv4 := 0x0800
  etypeArp := 0x0806
  etypeIpv6 := 0x86DD
  etypeVlan := 0x8100
  ipHdr := .standard
  subnetBcast :=
    [ (0, #v[0xC0, 0xA8, 0x01, 0xFF]), (1, #v[0xC0, 0xA8, 0x01, 0xFF]), (2, #v[0xC0, 0xA8, 0x01, 0xFF]) ]
  owner := .transmitIface

/-- A verdict (10_state.md R46). -/
inductive Verdict where
  | ok
  | cont
  | drop
  deriving DecidableEq, Repr, Inhabited

/-- What a collaborator does to one handle of the packet store: puts a packet there, or frees it (10_state.md R38). -/
abbrev StoreChange := Handle × Option Packet

/-- What ARP answers to `ARP_INPUT`: a verdict (60_exceptions.md R232), and what it did to the packet store meanwhile. -/
structure ArpInputReply where
  verdict : Verdict
  store   : List StoreChange
  deriving DecidableEq, Repr, Inhabited

/-- What ARP answers to `ARP_RESOLVE`: a handle or none (60_exceptions.md R232), and what it did to the packet store
meanwhile (it writes the header of the packet it answers, 44_frame_sender.md R174). -/
structure ArpResolveReply where
  packet : Option Handle
  store  : List StoreChange
  deriving DecidableEq, Repr, Inhabited

/-- The events the block emits to its collaborators (10_state.md R41). -/
inductive Event where
  | vlanSetup (ifx : Nat) (tag : Tag) (enable : Bool)
  | arpInput (h : Handle)
  | arpResolve (h : Handle)
  | release (h : Handle)
  | fragRelease (h : Handle) (k : Nat)
  | txQueue (ifx : Nat) (h : Handle)
  | arpClear (ifx : Nat)
  deriving DecidableEq, Repr, Inhabited

/-- What an abandoned TX leaves in what it may already have written (60_exceptions.md R224,
93_implementation_defined.md U5). -/
structure Leftover where
  status  : Option (BitVec 4)
  verdict : Option (BitVec 2)
  reason  : Option (BitVec 4)
  vlanTci : Half
  llSrc   : Option Addr6
  llDst   : Option Addr6
  llType  : LlType
  events  : List Event
  deriving DecidableEq, Repr, Inhabited

/-- FREE VALUE (log 9, safe): the `n`-th answer of ARP to `ARP_INPUT` (93_implementation_defined.md U10). -/
opaque Config.freeArpInput : Nat → ArpInputReply

/-- FREE VALUE (log 9, safe): the `n`-th answer of ARP to `ARP_RESOLVE` (93_implementation_defined.md U11). -/
opaque Config.freeArpResolve : Nat → ArpResolveReply

/-- FREE VALUE (log 8, safe): registers, metadata and events after the `n`-th fault (93_implementation_defined.md U5). -/
opaque Config.freeLeftover : Nat → Leftover

/-- FREE VALUE (log 3, safe): `IpDeclaredLen` of the `k`-th open `IPHDR`, of family and data (20_memory.md R68). -/
opaque Config.openDeclaredLen : Nat → BitVec 2 → List Byte → Option Nat

/-- FREE VALUE (log 3, safe): `Ipv4Dst` of the `k`-th open `IPHDR` (20_memory.md R68). -/
opaque Config.openIpv4Dst : Nat → BitVec 2 → List Byte → Option Ip4

/-- FREE VALUE (log 3, safe): `Ipv6Dst` of the `k`-th open `IPHDR` (20_memory.md R68). -/
opaque Config.openIpv6Dst : Nat → BitVec 2 → List Byte → Option Ip6

/-- FREE VALUE (log 3, safe): the `k`-th open `Owner`, of the packet, the interface and the registry
(60_exceptions.md R232). -/
opaque Config.openOwner : Nat → Packet → Nat → List Iface → Option Nat

end Sys2Proof
end

