-- ==== Sys2Proof/Machine/State.lean ====
section
/-! DEFINITION. The state as plain data, the reasons a step can stop, and the state after reset. -/

namespace Sys2Proof.Machine

/-- Why the machine stops. -/
inductive Fault where
  /-- Raised by `step` alone, when the next host action is a write of `CMD` while `FAULTED = 1`: the write is not accepted
  and the block takes no step until reset (30_encoding.md R89, 60_exceptions.md R224; treatment 'stuck',
  93_implementation_defined.md U6). Safe (log 7). -/
  | notAccepted
  deriving DecidableEq, Repr, Inhabited

/-- Why the model has no meaning for a step. -/
inductive Refusal where
  /-- Raised by an arm of `exec` whose command has no meaning yet. Safe. No arm raises it. -/
  | notModelled (mnemonic : String)
  /-- Raised by `step` alone, when the host places something that is no packet record in the sense of 10_state.md R40
  (`off + len > size(buf)`): no run of the block (log 11). Safe. -/
  | notAPacketRecord
  deriving DecidableEq, Repr, Inhabited

/-- The operand registers (10_state.md R23). `none` is R43's reset value 'no value': never written since reset.
`OPIP` is held as its parts `[0..4)` and `[4..16)` (41_multicast_mapper.md R116; log 5). -/
structure OperandRegs where
  opA    : Option Addr6
  opIpLo : Option Ip4
  opIpHi : Option (Vector Byte 12)
  opPkt  : Option Handle
  opFrag : Option Byte
  opType : Option Half
  opSrcV : Option Bool
  opSrc  : Option Addr6
  opDstV : Option Bool
  opDst  : Option Addr6
  deriving DecidableEq, Repr, Inhabited

/-- The result registers (10_state.md R24). `none` is R25's 'holds no value'. -/
structure ResultRegs where
  status  : Option (BitVec 4)
  bool    : Option Bool
  addr    : Option Addr6
  ifaceV  : Option Bool
  iface   : Option Byte
  tag     : Option Tag
  count   : Option Byte
  verdict : Option (BitVec 2)
  reason  : Option (BitVec 4)
  deriving DecidableEq, Repr, Inhabited

/-- One VLAN table slot (10_state.md R31). -/
structure Slot where
  tag   : Tag
  bound : Option Nat
  deriving DecidableEq, Repr, Inhabited

/-- The Ethernet context (10_state.md R30): `SLOT`, `ENABLED_COUNT`, `IF_BITSET` (bit i is element i), `INIT`. -/
structure Context where
  slots        : List Slot
  enabledCount : Nat
  ifBitset     : List Bool
  init         : Bool
  deriving DecidableEq, Repr, Inhabited

/-- The packet store (10_state.md R38), handles strictly rising; an unlisted handle names no packet (log 15). -/
abbrev Memory := List (Handle × Packet)

/-- What the host does to the block and to host memory between commands (30_encoding.md R91, 70_reset_and_hazards.md
R240, R249): writes of operand registers, packets placed and freed, writes of `CMD`, reset. -/
inductive HostAction where
  | setOpA (a : Addr6)
  | setOpIp4 (v : Ip4)
  | setOpIp (w : Ip6)
  | setOpPkt (h : Handle)
  | setOpFrag (k : Byte)
  | setOpType (v : Half)
  | setOpSrcV (b : Bool)
  | setOpSrc (a : Addr6)
  | setOpDstV (b : Bool)
  | setOpDst (a : Addr6)
  | putPacket (h : Handle) (p : Packet)
  | freePacket (h : Handle)
  | writeCmd (w : CmdWord)
  | reset
  deriving DecidableEq, Repr, Inhabited

/-- The state. `cfg` is the launch configuration (constant, 70_reset_and_hazards.md R242); `cmd`, `ops`, `res`, `ctx`,
`faulted`, `faultCause` and `log` are the block's (10_state.md R20); `mem` is host memory (R38). The model's own fields:
`host`, the host actions to come, in acceptance order (log 6); `arpInputs` and `arpResolves`, ARP answers already known,
oldest first (log 9); `draws`, what the free values are applied to (log 8); `handedOver`, the handles whose ownership has
passed (93_implementation_defined.md U15; log 12). -/
structure State where
  cfg         : Launch
  cmd         : Option CmdWord
  ops         : OperandRegs
  res         : ResultRegs
  ctx         : Context
  faulted     : Bool
  faultCause  : BitVec 4
  log         : List Event
  mem         : Memory
  host        : List HostAction
  arpInputs   : List ArpInputReply
  arpResolves : List ArpResolveReply
  draws       : Nat
  handedOver  : List Handle
  deriving DecidableEq, Repr, Inhabited

/-- Operand registers after reset: no value (10_state.md R43). -/
def OperandRegs.reset : OperandRegs := ⟨none, none, none, none, none, none, none, none, none, none⟩

/-- Result registers after reset: no value (10_state.md R43, R25). -/
def ResultRegs.reset : ResultRegs := ⟨none, none, none, none, none, none, none, none, none⟩

/-- The Ethernet context after reset (10_state.md R43): every slot free and unbound, count 0, bitset 0, `INIT` 0. -/
def Context.reset (c : Launch) : Context where
  slots := List.replicate c.vlanCount ⟨c.tagUnspec, none⟩
  enabledCount := 0
  ifBitset := List.replicate c.numIfaces false
  init := false

/-- The state after reset (10_state.md R43) of a block launched with configuration `c`, with no packet placed, no host
action to come and no ARP answer known (DESIGN CHOICE, logs 6, 9, 15). -/
def State.resetWith (c : Launch) : State where
  cfg := c
  cmd := none
  ops := .reset
  res := .reset
  ctx := .reset c
  faulted := false
  faultCause := 0
  log := []
  mem := []
  host := []
  arpInputs := []
  arpResolves := []
  draws := 0
  handedOver := []

/-- The state after reset (10_state.md R43), launched with CFG-A (DESIGN CHOICE, log 2). -/
def State.reset : State := State.resetWith Launch.cfgA

end Sys2Proof.Machine
end

