-- ==== Sys2Proof/Machine/Flags.lean ====
section
/-! DEFINITION. The codes of the result registers and of `FAULT_CAUSE`. The block has no condition flags (10_state.md R44):
these codes are what a command reports. -/

namespace Sys2Proof.Machine

/-- The statuses of 10_state.md R45. -/
inductive Status where
  | ok
  | invalidLayer
  | notInitialized
  | invalidTag
  | alreadyExists
  | noCapacity
  | notFound
  | illegalCommand
  deriving DecidableEq, Repr, Inhabited

/-- The drop reasons of 10_state.md R47. -/
inductive Reason where
  | none
  | malformed
  | unknownType
  | notForUs
  | arpFailed
  | noVlanForIface
  | arpFrameNoArp
  deriving DecidableEq, Repr, Inhabited

/-- The causes of a fatal fault (60_exceptions.md R223). -/
inductive Cause where
  | headroom
  | hostDuty
  deriving DecidableEq, Repr, Inhabited

/-- `RES_STATUS` codes (10_state.md R45). -/
def Status.code : Status → BitVec 4
  | .ok => 0
  | .invalidLayer => 1
  | .notInitialized => 2
  | .invalidTag => 3
  | .alreadyExists => 4
  | .noCapacity => 5
  | .notFound => 6
  | .illegalCommand => 15

/-- `RES_VERDICT` codes (10_state.md R46). -/
def verdictCode : Verdict → BitVec 2
  | .ok => 0
  | .cont => 1
  | .drop => 2

/-- `RES_REASON` codes (10_state.md R47). -/
def Reason.code : Reason → BitVec 4
  | .none => 0
  | .malformed => 1
  | .unknownType => 2
  | .notForUs => 3
  | .arpFailed => 4
  | .noVlanForIface => 5
  | .arpFrameNoArp => 6

/-- `FAULT_CAUSE` codes (10_state.md R42). -/
def Cause.code : Cause → BitVec 4
  | .headroom => 1
  | .hostDuty => 2

end Sys2Proof.Machine
end

