-- ==== Sys2Proof/Machine/Ops.lean ====
section
/-! DEFINITION. Named operations over registers, packet memory, the event log and the collaborators; fault entry and reset;
the guards of 30_encoding.md R88; the host's actions. -/

namespace Sys2Proof.Machine

/-! ### The packet store -/

/-- The packet a handle names (10_state.md R38). -/
def Memory.packet? : Memory → Handle → Option Packet
  | [], _ => none
  | (k, p) :: m, h => if k = h then some p else Memory.packet? m h

/-- The store with the packet `p` under the handle `h`. -/
def Memory.put : Memory → Handle → Packet → Memory
  | [], h, p => [(h, p)]
  | (k, q) :: m, h, p =>
    if h < k then (h, p) :: (k, q) :: m
    else if h = k then (h, p) :: m
    else (k, q) :: Memory.put m h p

/-- The store with no packet under the handle `h`. -/
def Memory.free (m : Memory) (h : Handle) : Memory := m.filter fun e => e.1 ≠ h

/-- The canonical form: handles strictly rising, and every packet a packet record (10_state.md R40). -/
def Memory.wf (m : Memory) : Bool :=
  decide (m.Pairwise fun a b => a.1 < b.1) && m.all (fun e => e.2.wf)

/-- One byte of packet memory, named by handle, fragment index and buffer index (20_memory.md R60, R61). -/
def Memory.byte? (m : Memory) (h : Handle) (k j : Nat) : Option Byte :=
  match m.packet? h with
  | none => none
  | some p =>
    match p.frags[k]? with
    | none => none
    | some f => f.buf[j]?

/-- What a collaborator does to one handle; something that is no packet record is never in the store (log 11). -/
def Memory.change (m : Memory) (c : StoreChange) : Memory :=
  match c.2 with
  | none => m.free c.1
  | some p => if p.wf then m.put c.1 p else m

/-- All that a collaborator did to the store, in order. -/
def Memory.changes (m : Memory) (cs : List StoreChange) : Memory := cs.foldl Memory.change m

/-! ### Writes of registers, memory and log -/

/-- `RES_STATUS <- c` (10_state.md R24). -/
def State.setStatus (c : Status) (s : State) : State := { s with res := { s.res with status := some c.code } }

/-- `RES_BOOL <- b` (10_state.md R24). -/
def State.setBool (b : Bool) (s : State) : State := { s with res := { s.res with bool := some b } }

/-- `RES_ADDR <- a` (10_state.md R24). -/
def State.setAddr (a : Addr6) (s : State) : State := { s with res := { s.res with addr := some a } }

/-- `RES_IFACE_V`, `RES_IFACE <- r`, 0 and 0 for none (42_vlan_table.md R134). -/
def State.setIface (r : Option Nat) (s : State) : State :=
  { s with res := { s.res with ifaceV := some r.isSome, iface := some (BitVec.ofNat 8 (r.getD 0)) } }

/-- `RES_TAG <- t` (10_state.md R24). -/
def State.setTag (t : Tag) (s : State) : State := { s with res := { s.res with tag := some t } }

/-- `RES_COUNT <- n` (10_state.md R24). -/
def State.setCount (n : Nat) (s : State) : State := { s with res := { s.res with count := some (BitVec.ofNat 8 n) } }

/-- `RES_VERDICT <- v; RES_REASON <- r` (10_state.md R46, R47). -/
def State.setVerdict (v : Verdict) (r : Reason) (s : State) : State :=
  { s with res := { s.res with verdict := some (verdictCode v), reason := some r.code } }

/-- `Drop(r)` of 43_frame_receiver.md R150 and 44_frame_sender.md R170. -/
def State.drop (r : Reason) (s : State) : State := s.setVerdict .drop r

/-- The context replaced (VLAN_INIT, VLAN_ENABLE and VLAN_DISABLE alone, 10_state.md R30). -/
def State.setCtx (c : Context) (s : State) : State := { s with ctx := c }

/-- The packet `p` written back under its handle `h`. -/
def State.putPacket (h : Handle) (p : Packet) (s : State) : State := { s with mem := s.mem.put h p }

/-- `emit E` (10_state.md R41): the log grows at its end. -/
def State.emit (e : Event) (s : State) : State := { s with log := s.log ++ [e] }

/-- Several events emitted in order. -/
def State.emitAll (es : List Event) (s : State) : State := { s with log := s.log ++ es }

/-- Ownership of packet `h` passes to a collaborator (70_reset_and_hazards.md R246; log 12). -/
def State.handOver (h : Handle) (s : State) : State :=
  { s with handedOver := if h ∈ s.handedOver then s.handedOver else h :: s.handedOver }

/-- The host gets the handle `h` back, or frees it (log 12). -/
def State.takeBack (h : Handle) (s : State) : State := { s with handedOver := s.handedOver.filter fun k => k ≠ h }

/-! ### Fault entry and reset -/

/-- `raise Fatal(c)` (60_exceptions.md R224): `FAULTED <- 1`, `FAULT_CAUSE <- c`, the command abandoned. Nothing else is
saved. There is no return but reset (R226). -/
def State.raiseFatal (c : Cause) (s : State) : State := { s with faulted := true, faultCause := c.code }

/-- A packet whose link metadata an abandoned TX may have written: unspecified (60_exceptions.md R224; log 8). -/
def Packet.forgetLink (l : Leftover) (p : Packet) : Packet :=
  { p with vlanTci := l.vlanTci, llSrc := l.llSrc, llDst := l.llDst, llType := l.llType }

/-- A fatal fault of a TX that was accepted in state `s0` and has come to state `s`. `RES_STATUS`, `RES_VERDICT` and
`RES_REASON` are unspecified, and so are TX's events, if it has emitted any (60_exceptions.md R224,
93_implementation_defined.md U5; free values, log 8). -/
def State.abandonTx (s : State) (c : Cause) (s0 : State) : State :=
  let l := Config.freeLeftover s.draws
  State.raiseFatal c
    { s with
      res := { s.res with status := l.status, verdict := l.verdict, reason := l.reason }
      log := s0.log ++ (if s.log = s0.log then [] else l.events)
      draws := s.draws + 1 }

/-- Reset (70_reset_and_hazards.md R240): every state element of the block at its value of 10_state.md R43. The launch
configuration, host memory and what is outside the block stay (R43, R242; log 13). -/
def State.applyReset (s : State) : State :=
  { s with
    cmd := none
    ops := .reset
    res := .reset
    ctx := .reset s.cfg
    faulted := false
    faultCause := 0
    log := [] }

/-! ### Collaborators that answer -/

/-- `ask ARP_INPUT(h)` (60_exceptions.md R232): the request event, then the answer: the next one known, else a free one
(log 9). What ARP did to the packet store meanwhile is applied. -/
def State.askArpInput (h : Handle) (s : State) : Verdict × State :=
  let s := s.emit (.arpInput h)
  match s.arpInputs with
  | r :: rest => (r.verdict, { s with arpInputs := rest, mem := s.mem.changes r.store })
  | [] =>
    let r := Config.freeArpInput s.draws
    (r.verdict, { s with draws := s.draws + 1, mem := s.mem.changes r.store })

/-- `ask ARP_RESOLVE(h)` (60_exceptions.md R232): the request event, then the answer, as in `askArpInput`. -/
def State.askArpResolve (h : Handle) (s : State) : Option Handle × State :=
  let s := s.emit (.arpResolve h)
  match s.arpResolves with
  | r :: rest => (r.packet, { s with arpResolves := rest, mem := s.mem.changes r.store })
  | [] =>
    let r := Config.freeArpResolve s.draws
    (r.packet, { s with draws := s.draws + 1, mem := s.mem.changes r.store })

/-! ### Guards: items 3 to 6 of 30_encoding.md R88, and operand reads -/

/-- An illegal command: `RES_STATUS <- 15` and nothing else (30_encoding.md R88). -/
def State.illegal (s : State) : State := s.setStatus .illegalCommand

/-- Item 3 of 30_encoding.md R88, then `k` on the interface's record. -/
def State.onIface (ifx : Nat) (s : State) (k : Iface → State) : State :=
  match s.cfg.ifaces[ifx]? with
  | none => s.illegal
  | some f => k f

/-- Items 3 and 4 of 30_encoding.md R88. -/
def State.onEth (ifx : Nat) (s : State) (k : Iface → State) : State :=
  s.onIface ifx fun f => if f.isEth then k f else s.illegal

/-- A read of an operand register: `Fatal(HOST_DUTY)` if it was never written since reset (60_exceptions.md R223). -/
def State.onOperand {α : Type} (o : Option α) (s : State) (k : α → State) : State :=
  match o with
  | none => s.raiseFatal .hostDuty
  | some a => k a

/-- Items 3, 4 and 5 of 30_encoding.md R88; item 5 is the first read of `OPPKT` (60_exceptions.md R227; log 26). -/
def State.onPacket (ifx : Nat) (s : State) (k : Iface → Handle → Packet → State) : State :=
  s.onEth ifx fun f =>
    s.onOperand s.ops.opPkt fun h =>
      match s.mem.packet? h with
      | none => s.illegal
      | some p => k f h p

/-- A command that names a packet whose ownership has passed: `Fatal(HOST_DUTY)` (93_implementation_defined.md U15;
log 12). -/
def State.ifOwned (h : Handle) (s : State) (k : State) : State :=
  if h ∈ s.handedOver then s.raiseFatal .hostDuty else k

/-! ### The host -/

/-- A register the host can read: the result registers (10_state.md R24) and the fault state (60_exceptions.md R224). -/
inductive HostReg where
  | resStatus | resBool | resAddr | resIfaceV | resIface | resTag | resCount | resVerdict | resReason
  | faulted | faultCause
  deriving DecidableEq, Repr, Inhabited

/-- What a host read gives: a field of bits as a number, or a link address. -/
inductive HostValue where
  | bits (n : Nat)
  | addr (a : Addr6)
  deriving DecidableEq, Repr, Inhabited

/-- `READ <reg>` (30_encoding.md R91); `none`: the register holds no value and the read is refused (10_state.md R25). -/
def State.hostRead (s : State) : HostReg → Option HostValue
  | .resStatus => s.res.status.map fun v => .bits v.toNat
  | .resBool => s.res.bool.map fun v => .bits v.toNat
  | .resAddr => s.res.addr.map .addr
  | .resIfaceV => s.res.ifaceV.map fun v => .bits v.toNat
  | .resIface => s.res.iface.map fun v => .bits v.toNat
  | .resTag => s.res.tag.map fun v => .bits v.toNat
  | .resCount => s.res.count.map fun v => .bits v.toNat
  | .resVerdict => s.res.verdict.map fun v => .bits v.toNat
  | .resReason => s.res.reason.map fun v => .bits v.toNat
  | .faulted => some (.bits s.faulted.toNat)
  | .faultCause => some (.bits s.faultCause.toNat)

/-- `SET OPIP` with an IPv4 address, which occupies `OPIP[0..4)` (10_state.md R23). -/
def OperandRegs.setIp4 (v : Ip4) (o : OperandRegs) : OperandRegs := { o with opIpLo := some v }

/-- `SET OPIP` with all 16 bytes (10_state.md R23). -/
def OperandRegs.setIp (w : Ip6) (o : OperandRegs) : OperandRegs :=
  { o with
    opIpLo := some #v[w[0], w[1], w[2], w[3]]
    opIpHi := some #v[w[4], w[5], w[6], w[7], w[8], w[9], w[10], w[11], w[12], w[13], w[14], w[15]] }

/-- The state after a write of `CMD` with `w` is accepted: the action is taken and `CMD` holds `w` (10_state.md R26). -/
def State.acceptCmd (w : CmdWord) (rest : List HostAction) (s : State) : State :=
  { s with host := rest, cmd := some w }

/-- A host action other than a write of `CMD`, which `step` runs itself (30_encoding.md R91; log 6). -/
def State.hostAct (a : HostAction) (s : State) : Host.Outcome State Fault Refusal :=
  match a with
  | .setOpA v => .next { s with ops := { s.ops with opA := some v } }
  | .setOpIp4 v => .next { s with ops := s.ops.setIp4 v }
  | .setOpIp w => .next { s with ops := s.ops.setIp w }
  | .setOpPkt h => .next { s with ops := { s.ops with opPkt := some h } }
  | .setOpFrag k => .next { s with ops := { s.ops with opFrag := some k } }
  | .setOpType v => .next { s with ops := { s.ops with opType := some v } }
  | .setOpSrcV b => .next { s with ops := { s.ops with opSrcV := some b } }
  | .setOpSrc v => .next { s with ops := { s.ops with opSrc := some v } }
  | .setOpDstV b => .next { s with ops := { s.ops with opDstV := some b } }
  | .setOpDst v => .next { s with ops := { s.ops with opDst := some v } }
  | .putPacket h p => if p.wf then .next ((s.putPacket h p).takeBack h) else .refused .notAPacketRecord
  | .freePacket h => .next (State.takeBack h { s with mem := s.mem.free h })
  | .writeCmd _ => .next s
  | .reset => .next s.applyReset

end Sys2Proof.Machine
end

