-- ==== Sys2Proof/Machine/Operands.lean ====
section
/-! DEFINITION. Operand forms: `OPIP` as an address, and the parameters that are functions (`IPHDR`, `SubnetBcast`,
`Owner`) applied to their operands. -/

namespace Sys2Proof.Machine

/-- `OPIP[0..4)` (10_state.md R23). -/
def OperandRegs.ip4? (o : OperandRegs) : Option Ip4 := o.opIpLo

/-- `OPIP[0..16)`, a value only when every byte was written (10_state.md R23). -/
def OperandRegs.ip6? (o : OperandRegs) : Option Ip6 :=
  match o.opIpLo, o.opIpHi with
  | some l, some u =>
    some #v[l[0], l[1], l[2], l[3], u[0], u[1], u[2], u[3], u[4], u[5], u[6], u[7], u[8], u[9], u[10], u[11]]
  | _, _ => none

/-- `OPSRC_V`/`OPSRC` and `OPDST_V`/`OPDST` (45_header_builder.md R191): the address is read only when its valid bit is
set. -/
def State.onOptAddr (v : Option Bool) (a : Option Addr6) (s : State) (k : Option Addr6 → State) : State :=
  s.onOperand v fun valid => if valid then s.onOperand a fun x => k (some x) else k none

/-- `IpDeclaredLen`, default instance (20_memory.md R68). -/
def stdDeclaredLen (family : BitVec 2) (d : List Byte) : Option Nat :=
  if family = familyIpv4 then
    if 4 ≤ d.length then some (be16 d 2).toNat else none
  else if family = familyIpv6 then
    if 6 ≤ d.length then some ((be16 d 4).toNat + 40) else none
  else none

/-- `Ipv4Dst`, default instance (20_memory.md R68). -/
def stdIpv4Dst (d : List Byte) : Option Ip4 := if 20 ≤ d.length then some (ip4At d 16) else none

/-- `Ipv6Dst`, default instance (20_memory.md R68). -/
def stdIpv6Dst (d : List Byte) : Option Ip6 := if 40 ≤ d.length then some (ip6At d 24) else none

/-- `IpDeclaredLen(pkt)` of the launched `IPHDR` (20_memory.md R68). -/
def ipDeclaredLen (c : Launch) (p : Packet) : Option Nat :=
  match c.ipHdr with
  | .standard => stdDeclaredLen p.family p.data
  | .other k => Config.openDeclaredLen k p.family p.data

/-- `Ipv4Dst(pkt)` of the launched `IPHDR` (20_memory.md R68). -/
def ipv4Dst (c : Launch) (p : Packet) : Option Ip4 :=
  match c.ipHdr with
  | .standard => stdIpv4Dst p.data
  | .other k => Config.openIpv4Dst k p.family p.data

/-- `Ipv6Dst(pkt)` of the launched `IPHDR` (20_memory.md R68). -/
def ipv6Dst (c : Launch) (p : Packet) : Option Ip6 :=
  match c.ipHdr with
  | .standard => stdIpv6Dst p.data
  | .other k => Config.openIpv6Dst k p.family p.data

/-- `SubnetBcast(i, d)` (60_exceptions.md R232). -/
def subnetBcast (c : Launch) (ifx : Nat) (d : Ip4) : Bool := c.subnetBcast.contains (ifx, d)

/-- `Owner(p, i)` (60_exceptions.md R232). -/
def ownerOf (c : Launch) (p : Packet) (ifx : Nat) : Option Nat :=
  match c.owner with
  | .transmitIface => some ifx
  | .always o => o
  | .other k => Config.openOwner k p ifx c.ifaces

end Sys2Proof.Machine
end

