-- ==== Sys2Proof/Machine/Classifier.lean ====
section
/-! DEFINITION. AddressClassifier: CLS_BCAST and CLS_MCAST (40_address_classifier.md). -/

namespace Sys2Proof.Machine

/-- `IsBcast(a)` (40_address_classifier.md R100). -/
def isBcast (a : Addr6) : Bool :=
  a[0] == 0xFF && a[1] == 0xFF && a[2] == 0xFF && a[3] == 0xFF && a[4] == 0xFF && a[5] == 0xFF

/-- `IsMcast(a)` (40_address_classifier.md R101). -/
def isMcast (a : Addr6) : Bool := a[0].getLsbD 0 && !isBcast a

/-- CLS_BCAST (40_address_classifier.md R102). -/
def execClsBcast (s : State) : Host.Outcome State Fault Refusal :=
  .next (s.onOperand s.ops.opA fun a => (s.setBool (isBcast a)).setStatus .ok)

/-- CLS_MCAST (40_address_classifier.md R103). -/
def execClsMcast (s : State) : Host.Outcome State Fault Refusal :=
  .next (s.onOperand s.ops.opA fun a => (s.setBool (isMcast a)).setStatus .ok)

end Sys2Proof.Machine
end

