-- ==== Sys2Proof/Machine/Vlan.lean ====
section
/-! DEFINITION. VlanTable: VLAN_INIT, VLAN_ENABLE, VLAN_DISABLE, VLAN_IS_ENABLED, VLAN_LOOKUP and VLAN_GET_TAG
(42_vlan_table.md). -/

namespace Sys2Proof.Machine

/-- `FirstBound(i)` (42_vlan_table.md R120). -/
def firstBound (ss : List Slot) (i : Nat) : Option Nat := ss.findIdx? fun x => x.bound == some i

/-- `FindPair(i, t)` (42_vlan_table.md R120), `u` being `TAG_UNSPEC`. -/
def findPair (u : Tag) (ss : List Slot) (i : Nat) (t : Tag) : Option Nat :=
  ss.findIdx? fun x => x.bound == some i && x.tag == t && t != u

/-- `FreeBound(i)` (42_vlan_table.md R120). -/
def freeBound (u : Tag) (ss : List Slot) (i : Nat) : Option Nat :=
  ss.findIdx? fun x => x.bound == some i && x.tag == u

/-- `InitFree()` (42_vlan_table.md R120), in the form `INIT_FREE_SLOT` selects. -/
def initFree (m : InitFreeSlot) (u : Tag) (ss : List Slot) : Option Nat :=
  match m with
  | .unbound => ss.findIdx? fun x => x.tag == u && x.bound == none
  | .unspecOnly => ss.findIdx? fun x => x.tag == u

/-- `SLOT[k].TAG <- t`. -/
def setSlotTag (ss : List Slot) (k : Nat) (t : Tag) : List Slot := ss.modify k fun x => { x with tag := t }

/-- `SLOT[k].BOUND <- some i`. -/
def setSlotBound (ss : List Slot) (k i : Nat) : List Slot := ss.modify k fun x => { x with bound := some i }

/-- `IF_BITSET[i]` (10_state.md R34). -/
def Context.bit (c : Context) (i : Nat) : Bool := c.ifBitset.getD i false

/-- `VlanActive(i)` (42_vlan_table.md R131). -/
def State.vlanActive (s : State) (i : Nat) : Bool :=
  s.ctx.enabledCount == s.cfg.vlanCount || s.ctx.bit i

/-- `LookupByTag(t)` (42_vlan_table.md R133), `u` being `TAG_UNSPEC`. -/
def lookupByTag (u : Tag) (ss : List Slot) (t : Tag) : Option Nat :=
  match ss.find? fun x => x.tag != u && x.tag == t with
  | some x => x.bound
  | none =>
    match ss.find? fun x => x.tag == u && x.bound.isSome with
    | some x => x.bound
    | none => none

/-- `GetTag(i)` (42_vlan_table.md R135), `u` being `TAG_UNSPEC`. -/
def getTag (u : Tag) (ss : List Slot) (i : Nat) : Tag :=
  match ss.find? fun x => x.bound == some i with
  | some x => x.tag
  | none => u

/-- The context after VLAN_INIT of an interface that has VLAN capability and no slot (42_vlan_table.md R121). -/
def Context.initBind (c : Context) (m : InitFreeSlot) (u : Tag) (n i : Nat) : Context :=
  match initFree m u c.slots with
  | none => { c with init := true }
  | some k =>
    { c with
      slots := setSlotBound c.slots k i
      ifBitset := if c.init then c.ifBitset else List.replicate n false
      init := true }

/-- The context after a VLAN_ENABLE that takes slot `k` (42_vlan_table.md R124); `m` is `VLAN_COUNT`. -/
def Context.enable (c : Context) (m k i : Nat) (t : Tag) : Context :=
  { c with
    slots := setSlotTag c.slots k t
    ifBitset := c.ifBitset.set i true
    enabledCount := min (c.enabledCount + 1) m }

/-- The context after a VLAN_DISABLE that frees slot `k` (42_vlan_table.md R128); `u` is `TAG_UNSPEC`. -/
def Context.disable (c : Context) (u : Tag) (k i : Nat) : Context :=
  { c with
    slots := setSlotTag c.slots k u
    ifBitset := c.ifBitset.set i false
    enabledCount := if 0 < c.enabledCount then c.enabledCount - 1 else 0 }

/-- The driver hook: the event, only when the device offers the hook (42_vlan_table.md R125). -/
def State.vlanHook (f : Iface) (i : Nat) (t : Tag) (en : Bool) (s : State) : State :=
  if f.hasVlanHook then s.emit (.vlanSetup i t en) else s

/-- VLAN_INIT (42_vlan_table.md R121, R122). -/
def execVlanInit (i : Nat) (s : State) : Host.Outcome State Fault Refusal :=
  .next (s.onIface i fun f =>
    let s := s.setStatus .ok
    if !f.vlanCap then s
    else if (firstBound s.ctx.slots i).isSome then s
    else s.setCtx (s.ctx.initBind s.cfg.initFree s.cfg.tagUnspec s.cfg.numIfaces i))

/-- VLAN_ENABLE (42_vlan_table.md R123, R124). -/
def execVlanEnable (i : Nat) (t : Tag) (s : State) : Host.Outcome State Fault Refusal :=
  .next (s.onIface i fun f =>
    if !f.isEth then s.setStatus .invalidLayer
    else if !s.ctx.init then s.setStatus .notInitialized
    else if t = s.cfg.tagUnspec then s.setStatus .invalidTag
    else if (findPair s.cfg.tagUnspec s.ctx.slots i t).isSome then s.setStatus .alreadyExists
    else
      match freeBound s.cfg.tagUnspec s.ctx.slots i with
      | none => s.setStatus .noCapacity
      | some k => ((s.setCtx (s.ctx.enable s.cfg.vlanCount k i t)).vlanHook f i t true).setStatus .ok)

/-- VLAN_DISABLE (42_vlan_table.md R127, R128). -/
def execVlanDisable (i : Nat) (t : Tag) (s : State) : Host.Outcome State Fault Refusal :=
  .next (s.onIface i fun f =>
    if !f.isEth then s.setStatus .invalidLayer
    else if t = s.cfg.tagUnspec then s.setStatus .invalidTag
    else
      match findPair s.cfg.tagUnspec s.ctx.slots i t with
      | none => s.setStatus .notFound
      | some k => ((s.setCtx (s.ctx.disable s.cfg.tagUnspec k i)).vlanHook f i t false).setStatus .ok)

/-- VLAN_IS_ENABLED (42_vlan_table.md R132). -/
def execVlanIsEnabled (i : Nat) (s : State) : Host.Outcome State Fault Refusal :=
  .next (s.onIface i fun _ => (s.setBool (s.vlanActive i)).setStatus .ok)

/-- VLAN_LOOKUP (42_vlan_table.md R134). -/
def execVlanLookup (t : Tag) (s : State) : Host.Outcome State Fault Refusal :=
  .next ((s.setIface (lookupByTag s.cfg.tagUnspec s.ctx.slots t)).setStatus .ok)

/-- VLAN_GET_TAG (42_vlan_table.md R136). -/
def execVlanGetTag (i : Nat) (s : State) : Host.Outcome State Fault Refusal :=
  .next (s.onIface i fun _ => (s.setTag (getTag s.cfg.tagUnspec s.ctx.slots i)).setStatus .ok)

end Sys2Proof.Machine
end

