-- ==== Sys2Proof/Machine/Header.lean ====
section
/-! DEFINITION. HeaderBuilder: the routine HeaderWrite and HDR_BUILD (45_header_builder.md). -/

namespace Sys2Proof.Machine

/-- The header length `H = (vl ? 18 : 14)` (45_header_builder.md R190). -/
def hdrLen (vl : Bool) : Nat := if vl then 18 else 14

/-- An address written at `j` when one is given; `none` leaves the bytes there (45_header_builder.md R190). -/
def Frag.writeAddr (f : Frag) (j : Nat) (a : Option Addr6) : Frag :=
  match a with
  | none => f
  | some x => f.memWrite j x.toList

/-- `HeaderWrite` past its headroom test (45_header_builder.md R190): the header covers `buf[off−H..off)`.
`tpid` is `ETYPE_VLAN`. -/
def Frag.headerWrite (f : Frag) (tpid : Half) (vl : Bool) (src dst : Option Addr6) (ptype tci : Half) : Frag :=
  let base := f.off - hdrLen vl
  let f := (f.writeAddr base dst).writeAddr (base + 6) src
  if vl then
    ((f.memWrite (base + 12) (be16Bytes tpid)).memWrite (base + 14) (be16Bytes tci)).memWrite (base + 16) (be16Bytes ptype)
  else f.memWrite (base + 12) (be16Bytes ptype)

/-- HDR_BUILD (45_header_builder.md R191; R88 item 6 reads `OPFRAG`, log 26). -/
def execHdrBuild (i : Nat) (s : State) : Host.Outcome State Fault Refusal :=
  .next (s.onPacket i fun _ h p =>
    s.onOperand s.ops.opFrag fun k =>
      match p.frags[k.toNat]? with
      | none => s.illegal
      | some f =>
        s.ifOwned h (s.onOptAddr s.ops.opSrcV s.ops.opSrc fun src =>
          s.onOptAddr s.ops.opDstV s.ops.opDst fun dst =>
            s.onOperand s.ops.opType fun ptype =>
              let vl := s.vlanActive i
              if f.off < hdrLen vl then s.raiseFatal .headroom
              else
                let f := f.headerWrite s.cfg.etypeVlan vl src dst ptype p.vlanTci
                (s.putPacket h { p with frags := p.frags.set k.toNat f }).setStatus .ok))

end Sys2Proof.Machine
end

