-- ==== Sys2Proof/Machine/L2.lean ====
section
/-! DEFINITION. The L2 driver contract: HDR_RESERVE and L2_ENABLE (46_l2_interface.md). -/

namespace Sys2Proof.Machine

/-- `HeaderReserve(i)` (46_l2_interface.md R200). -/
def State.headerReserve (s : State) (i : Nat) : Nat := 6 + 6 + 2 + (if s.vlanActive i then 4 else 0)

/-- HDR_RESERVE (46_l2_interface.md R201). -/
def execHdrReserve (i : Nat) (s : State) : Host.Outcome State Fault Refusal :=
  .next (s.onIface i fun _ => (s.setCount (s.headerReserve i)).setStatus .ok)

/-- L2_ENABLE (46_l2_interface.md R202). -/
def execL2Enable (i : Nat) (en : Bool) (s : State) : Host.Outcome State Fault Refusal :=
  .next (s.onEth i fun _ =>
    (if !en && s.cfg.arpEnabled then s.emit (.arpClear i) else s).setStatus .ok)

end Sys2Proof.Machine
end

