-- ==== Sys2Proof/Machine/Mapper.lean ====
section
/-! DEFINITION. MulticastMapper: MAP_IPV6, MAP_IPV4 and BCAST_ADDR (41_multicast_mapper.md). -/

namespace Sys2Proof.Machine

/-- `Ipv6McastToLink(w)` (41_multicast_mapper.md R110). -/
def ipv6McastToLink (w : Ip6) : Addr6 := #v[0x33, 0x33, w[12], w[13], w[14], w[15]]

/-- `Ipv4McastToLink(v)` (41_multicast_mapper.md R111, 90_conflicts.md C1). -/
def ipv4McastToLink (v : Ip4) : Addr6 := #v[0x01, 0x00, 0x5E, v[1] &&& 0x7F, v[2], v[3]]

/-- `BcastAddr` (41_multicast_mapper.md R112). -/
def bcastAddr : Addr6 := #v[0xFF, 0xFF, 0xFF, 0xFF, 0xFF, 0xFF]

/-- `Ipv4IsMcast(v)` (41_multicast_mapper.md R113). -/
def ipv4IsMcast (v : Ip4) : Bool := decide (224 ≤ v[0].toNat) && decide (v[0].toNat ≤ 239)

/-- `Ipv6IsMcast(w)` (41_multicast_mapper.md R114; log 16). -/
def ipv6IsMcast (w : Ip6) : Bool := w[0] == 0xFF

/-- MAP_IPV6 (41_multicast_mapper.md R115). -/
def execMapIpv6 (s : State) : Host.Outcome State Fault Refusal :=
  .next (s.onOperand s.ops.ip6? fun w => (s.setAddr (ipv6McastToLink w)).setStatus .ok)

/-- MAP_IPV4 (41_multicast_mapper.md R116). -/
def execMapIpv4 (s : State) : Host.Outcome State Fault Refusal :=
  .next (s.onOperand s.ops.ip4? fun v => (s.setAddr (ipv4McastToLink v)).setStatus .ok)

/-- BCAST_ADDR (41_multicast_mapper.md R117). -/
def execBcastAddr (s : State) : Host.Outcome State Fault Refusal :=
  .next ((s.setAddr bcastAddr).setStatus .ok)

end Sys2Proof.Machine
end

