-- ==== Sys2Proof/Machine/Receiver.lean ====
section
/-! DEFINITION. FrameReceiver: RX (43_frame_receiver.md). -/

namespace Sys2Proof.Machine

/-- Step 1, `ParseHeader` (43_frame_receiver.md R151): the type, the header length and the packet with the TCI recorded;
`none` is `Drop(MALFORMED)`. -/
def parseHeader (c : Launch) (active : Bool) (p : Packet) : Option (Half × Nat × Packet) :=
  match p.frags with
  | [] => none
  | f :: _ =>
    if f.len < 14 then none
    else if active && be16 f.buf (f.off + 12) == c.etypeVlan then
      if f.len < 18 then none
      else some (be16 f.buf (f.off + 16), 18, { p with vlanTci := be16 f.buf (f.off + 14) })
    else some (be16 f.buf (f.off + 12), 14, p)

/-- Step 2, `Classify` (43_frame_receiver.md R152): family and whether ARP; `none` is `Drop(UNKNOWN_TYPE)`. -/
def classify (c : Launch) (ty : Half) : Option (BitVec 2 × Bool) :=
  if ty = c.etypeIpv4 then some (familyIpv4, false)
  else if ty = c.etypeArp then some (familyIpv4, true)
  else if ty = c.etypeIpv6 then some (familyIpv6, false)
  else none

/-- The destination at the header's start, in the first fragment (43_frame_receiver.md R151). -/
def Packet.hdrDst (p : Packet) : Addr6 :=
  match p.frags with
  | [] => Vector.replicate 6 0
  | f :: _ => addr6At f.buf f.off

/-- The source, 6 bytes on (43_frame_receiver.md R151). -/
def Packet.hdrSrc (p : Packet) : Addr6 :=
  match p.frags with
  | [] => Vector.replicate 6 0
  | f :: _ => addr6At f.buf (f.off + 6)

/-- Step 3, `RecordLinkAddrs` (43_frame_receiver.md R154). -/
def recordLinkAddrs (p : Packet) : Packet :=
  { p with llDst := some p.hdrDst, llSrc := some p.hdrSrc, llType := .ethernet }

/-- Step 4, `Accept(d, i)` (43_frame_receiver.md R155). -/
def accept (f : Iface) (d : Addr6) : Bool := isBcast d || isMcast d || d == f.linkAddr

/-- Step 5, `Strip(p, H)` (43_frame_receiver.md R156). -/
def strip (n : Nat) (p : Packet) : Packet :=
  match p.frags with
  | [] => { p with llReserve := BitVec.ofNat 8 n }
  | f :: fs => { p with frags := { f with off := f.off + n, len := f.len - n } :: fs, llReserve := BitVec.ofNat 8 n }

/-- The loop of `Trim` (43_frame_receiver.md R159) from fragment `k` with `acc` bytes kept: the fragments kept and the
indices released. -/
def trimFrags (l : Nat) : Nat → Nat → List Frag → List Frag × List Nat
  | _, _, [] => ([], [])
  | k, acc, f :: fs =>
    if k = 0 ∨ acc < l then
      let f := if acc + f.len > l then { f with len := l - acc } else f
      let r := trimFrags l (k + 1) (acc + f.len) fs
      (f :: r.1, r.2)
    else
      let r := trimFrags l (k + 1) acc fs
      (r.1, k :: r.2)

/-- Step 7b, `Trim(p, h, L)` (43_frame_receiver.md R159): only when the packet is longer than `l`. -/
def trim (l : Nat) (p : Packet) : Packet × List Nat :=
  if l < p.len then
    let r := trimFrags l 0 0 p.frags
    ({ p with frags := r.1 }, r.2)
  else (p, [])

/-- Steps 7 and 8 (43_frame_receiver.md R158 to R160) on the stripped packet `p`. -/
def rxDeliver (h : Handle) (p : Packet) (s : State) : State :=
  match ipDeclaredLen s.cfg p with
  | none => s.drop .malformed
  | some l =>
    let r := trim l p
    ((s.putPacket h r.1).emitAll (r.2.map (Event.fragRelease h))).setVerdict .cont .none

/-- Step 6, `ArpDispatch` (43_frame_receiver.md R157), then steps 7 and 8 where it goes on. -/
def rxArp (h : Handle) (p : Packet) (s : State) : State :=
  if s.cfg.arpEnabled then
    let r := s.askArpInput h
    (r.2.handOver h).setVerdict r.1 .none
  else
    match s.cfg.arpFrames with
    | .drop => s.drop .arpFrameNoArp
    | .forward => rxDeliver h p s

/-- RX of packet `p` past its checks (43_frame_receiver.md R150). What a step writes stays written when a later step drops
the frame. -/
def rxFrame (i : Nat) (f : Iface) (h : Handle) (p : Packet) (s : State) : State :=
  let s := s.setStatus .ok
  match parseHeader s.cfg (s.vlanActive i) p with
  | none => s.drop .malformed
  | some (ty, n, p) =>
    match classify s.cfg ty with
    | none => (s.putPacket h p).drop .unknownType
    | some (fam, arp) =>
      let p := recordLinkAddrs { p with family := fam }
      if accept f p.hdrDst then
        let p := strip n p
        let s := s.putPacket h p
        if arp then rxArp h p s else rxDeliver h p s
      else (s.putPacket h p).drop .notForUs

/-- RX (43_frame_receiver.md R150). -/
def execRx (i : Nat) (s : State) : Host.Outcome State Fault Refusal :=
  .next (s.onPacket i fun f h p => s.ifOwned h (rxFrame i f h p s))

end Sys2Proof.Machine
end

