-- ==== Sys2Proof/Machine/Sender.lean ====
section
/-! DEFINITION. FrameSender: TX (44_frame_sender.md). -/

namespace Sys2Proof.Machine

/-- `Ipv4Shortcut(p, i, d)` (44_frame_sender.md R172), `bcast` being `SubnetBcast(i, d)`. -/
def ipv4Shortcut (f : Iface) (bcast : Bool) (d : Ip4) (p : Packet) : Packet :=
  { p with
    llDst := some (if bcast then bcastAddr else ipv4McastToLink d)
    llSrc := some f.linkAddr
    llType := .ethernet }

/-- `FixSrc(p, i)` (44_frame_sender.md R175). -/
def fixSrc (f : Iface) (p : Packet) : Packet :=
  match p.llSrc with
  | none => p
  | some a => if isBcast a || isMcast a then { p with llSrc := some f.linkAddr } else p

/-- `DefaultDst(p)` (44_frame_sender.md R176); `none` is `Drop(MALFORMED)`. -/
def defaultDst (c : Launch) (p : Packet) : Option Packet :=
  match p.llDst with
  | some _ => some p
  | none =>
    if p.family = familyIpv6 then
      match ipv6Dst c p with
      | none => none
      | some w => some { p with llDst := some (if ipv6IsMcast w then ipv6McastToLink w else bcastAddr) }
    else some { p with llDst := some bcastAddr }

/-- `AssignVlan(p, i)` (44_frame_sender.md R177); `none` is `Drop(NO_VLAN_FOR_IFACE)`. -/
def assignVlan (c : Launch) (ss : List Slot) (i : Nat) (p : Packet) : Option Packet :=
  if tciVid p.vlanTci = c.tagUnspec then
    match ownerOf c p i with
    | none => none
    | some j =>
      match ss.find? fun x => x.bound == some j with
      | none => none
      | some x => some { p with vlanTci := tciSetPcp (tciSetVid p.vlanTci x.tag) p.priority }
  else some { p with vlanTci := tciSetPcp p.vlanTci p.priority }

/-- `SelectType(p)` (44_frame_sender.md R179). -/
def selectType (c : Launch) (p : Packet) : Half := if p.family = familyIpv4 then c.etypeIpv4 else c.etypeIpv6

/-- `WriteAllHeaders(p, vl, ptype)` past its headroom check (44_frame_sender.md R178). -/
def writeAllHeaders (c : Launch) (vl : Bool) (p : Packet) : Packet :=
  { p with
    frags := p.frags.map fun f => f.headerWrite c.etypeVlan vl p.llSrc p.llDst (selectType c p) p.vlanTci
    llReserve := BitVec.ofNat 8 (hdrLen vl) }

/-- `Enqueue(i, h)` (44_frame_sender.md R180): the event, ownership to the queue, verdict `OK`. -/
def State.enqueue (i : Nat) (h : Handle) (s : State) : State :=
  ((s.emit (.txQueue i h)).handOver h).setVerdict .ok .none

/-- TX from label `HDR` (44_frame_sender.md R170) with the packet `p` as the earlier steps left it; `s0` is the state TX
was accepted in. The headroom of every fragment is checked before any header byte is written
(R178, 60_exceptions.md R225). -/
def txFrame (i : Nat) (h : Handle) (s0 : State) (p : Packet) (s : State) : State :=
  let vl := s.vlanActive i
  match (if vl then assignVlan s.cfg s.ctx.slots i p else some p) with
  | none => (s.putPacket h p).drop .noVlanForIface
  | some p =>
    if p.frags.any fun f => decide (f.off < hdrLen vl) then
      (s.putPacket h (p.forgetLink (Config.freeLeftover s.draws))).abandonTx .headroom s0
    else (s.putPacket h (writeAllHeaders s.cfg vl p)).enqueue i h

/-- R174's precondition on the packet ARP answers (44_frame_sender.md R174): its first fragment and the start of its
header, or `none` where the precondition does not hold. -/
def arpHeader (q : Packet) : Option (Frag × Nat) :=
  match q.frags with
  | [] => none
  | f :: _ =>
    if 12 ≤ q.llReserve.toNat ∧ q.llReserve.toNat ≤ f.off then some (f, f.off - q.llReserve.toNat) else none

/-- `ArpPath(i, h)` (44_frame_sender.md R173, R174). -/
def txArp (i : Nat) (h : Handle) (s0 s : State) : State :=
  let r := s.askArpResolve h
  let s := r.2
  match r.1 with
  | none => s.drop .arpFailed
  | some h' =>
    let s := if h' = h then s else (s.emit (.release h)).handOver h
    match s.mem.packet? h' with
    | none => s.abandonTx .hostDuty s0
    | some q =>
      match arpHeader q with
      | none => s.abandonTx .hostDuty s0
      | some (f, base) =>
        let q := { q with
          llDst := some (addr6At f.buf base)
          llSrc := some (addr6At f.buf (base + 6))
          llType := .ethernet }
        (s.putPacket h' q).enqueue i h'

/-- TX of packet `p` past its checks (44_frame_sender.md R170). -/
def txPacket (i : Nat) (f : Iface) (h : Handle) (p : Packet) (s0 : State) : State :=
  let s := s0.setStatus .ok
  if p.family ≠ familyIpv4 ∧ p.family ≠ familyIpv6 then s.abandonTx .hostDuty s0
  else if s.cfg.arpEnabled ∧ p.family = familyIpv4 then
    match ipv4Dst s.cfg p with
    | none => s.drop .malformed
    | some d =>
      if subnetBcast s.cfg i d ∨ ipv4IsMcast d then
        txFrame i h s0 (ipv4Shortcut f (subnetBcast s.cfg i d) d p) s
      else txArp i h s0 s
  else
    match defaultDst s.cfg (fixSrc f p) with
    | none => (s.putPacket h (fixSrc f p)).drop .malformed
    | some p => txFrame i h s0 p s

/-- TX (44_frame_sender.md R170). -/
def execTx (i : Nat) (s : State) : Host.Outcome State Fault Refusal :=
  .next (s.onPacket i fun f h p => s.ifOwned h (txPacket i f h p s))

end Sys2Proof.Machine
end

