-- ==== Sys2Proof/Machine/Dispatch.lean ====
section
/-! DEFINITION. One arm per command, each the call of its meaning. -/

namespace Sys2Proof.Machine

/-- The meaning of a command on the state it was accepted in (30_encoding.md R83, R89). -/
def exec (i : Instr) (s : State) : Host.Outcome State Fault Refusal :=
  match i with
  | .clsBcast => Sys2Proof.Machine.execClsBcast s
  | .clsMcast => Sys2Proof.Machine.execClsMcast s
  | .mapIpv6 => Sys2Proof.Machine.execMapIpv6 s
  | .mapIpv4 => Sys2Proof.Machine.execMapIpv4 s
  | .bcastAddr => Sys2Proof.Machine.execBcastAddr s
  | .vlanInit ifx => Sys2Proof.Machine.execVlanInit ifx s
  | .vlanEnable ifx tag => Sys2Proof.Machine.execVlanEnable ifx tag s
  | .vlanDisable ifx tag => Sys2Proof.Machine.execVlanDisable ifx tag s
  | .vlanIsEnabled ifx => Sys2Proof.Machine.execVlanIsEnabled ifx s
  | .vlanLookup tag => Sys2Proof.Machine.execVlanLookup tag s
  | .vlanGetTag ifx => Sys2Proof.Machine.execVlanGetTag ifx s
  | .rx ifx => Sys2Proof.Machine.execRx ifx s
  | .tx ifx => Sys2Proof.Machine.execTx ifx s
  | .hdrBuild ifx => Sys2Proof.Machine.execHdrBuild ifx s
  | .hdrReserve ifx => Sys2Proof.Machine.execHdrReserve ifx s
  | .l2Enable ifx f => Sys2Proof.Machine.execL2Enable ifx f s

end Sys2Proof.Machine
end

