-- ==== Sys2Proof/Machine/Step.lean ====
section
/-! DEFINITION. One step: the next host action is taken; a write of `CMD` is decoded and its command run. -/

namespace Sys2Proof.Machine

/-- One step (10_state.md R26, 30_encoding.md R88, R89, 60_exceptions.md R238). With no host action to come the block is
idle. A write of `CMD` is not accepted while `FAULTED = 1`; a word that is no encoding is illegal (R88 items 1 and 2);
otherwise the command runs to completion. -/
def step (s : State) : Host.Outcome State Fault Refusal :=
  match s.host with
  | [] => .next s
  | .writeCmd w :: rest =>
    if s.faulted then .fault .notAccepted
    else
      match decode w with
      | .error _ => .next (s.acceptCmd w rest).illegal
      | .ok i => exec i (s.acceptCmd w rest)
  | a :: rest => State.hostAct a { s with host := rest }

/-- `s` with a write of `CMD` of the table word `w` (of `nbits` bits) as its next host action (log 6). -/
def State.withFetchWord (s : State) (nbits w : Nat) : State :=
  { s with host := .writeCmd (BitVec.ofNat 32 (w % 2 ^ nbits)) :: s.host }

end Sys2Proof.Machine
end

