-- ==== Sys2Proof/Safety.lean ====
section
/-! DEFINITION. What counts as a safe run, in the terms claims use: the invariants of the context, the codes and memory. -/

namespace Sys2Proof.Machine

/-- The block accepts commands: it has not faulted (60_exceptions.md R224). -/
abbrev State.running (s : State) : Prop := s.faulted = false

/-- How many slots hold a tag (42_vlan_table.md R130), `u` being `TAG_UNSPEC`. -/
def taggedSlots (u : Tag) (ss : List Slot) : Nat := ss.countP fun x => x.tag != u

/-- Table and bitset have their sizes, and every bound slot names an interface (10_state.md R30, R31, R34). -/
abbrev Context.shaped (c : Launch) (x : Context) : Prop :=
  x.slots.length = c.vlanCount ∧ x.ifBitset.length = c.numIfaces
    ∧ ∀ sl ∈ x.slots, ∀ i ∈ sl.bound, i < c.numIfaces

/-- A slot with a tag is bound (10_state.md R32 (a)). -/
abbrev Context.taggedBound (c : Launch) (x : Context) : Prop :=
  ∀ sl ∈ x.slots, sl.tag ≠ c.tagUnspec → sl.bound ≠ none

/-- No two slots are bound to one interface (10_state.md R32 (b), (c), 42_vlan_table.md R130). -/
abbrev Context.boundOnce (x : Context) : Prop :=
  x.slots.Pairwise fun a b => a.bound = none ∨ a.bound ≠ b.bound

/-- Before the context is initialised no slot is bound (42_vlan_table.md R121). -/
abbrev Context.unboundBeforeInit (x : Context) : Prop :=
  x.init = false → ∀ sl ∈ x.slots, sl.bound = none

/-- The count and the bitset agree with the table (42_vlan_table.md R130). -/
abbrev Context.counted (c : Launch) (x : Context) : Prop :=
  x.enabledCount = taggedSlots c.tagUnspec x.slots
    ∧ x.enabledCount = x.ifBitset.count true
    ∧ ∀ i < c.numIfaces, (x.bit i = true ↔ ∃ sl ∈ x.slots, sl.bound = some i ∧ sl.tag ≠ c.tagUnspec)

/-- All that the VLAN rules keep of the context from reset (10_state.md R32, 42_vlan_table.md R130). -/
abbrev Context.sound (c : Launch) (x : Context) : Prop :=
  x.shaped c ∧ x.taggedBound c ∧ x.boundOnce ∧ x.unboundBeforeInit ∧ x.counted c

/-- No result register holds a reserved code (10_state.md R45, R46, R47), and `RES_IFACE` is 0 when `RES_IFACE_V` is 0
(42_vlan_table.md R134). -/
abbrev ResultRegs.legal (r : ResultRegs) : Prop :=
  (∀ v ∈ r.status, v ≤ 6 ∨ v = 15) ∧ (∀ v ∈ r.verdict, v ≠ 3) ∧ (∀ v ∈ r.reason, v ≤ 6)
    ∧ (r.ifaceV = some false → r.iface = some 0)

/-- `FAULT_CAUSE` is 1 or 2 when faulted and 0 otherwise (10_state.md R42, R43). -/
abbrev State.causeLegal (s : State) : Prop :=
  (s.faulted = false ∧ s.faultCause = 0) ∨ (s.faulted = true ∧ (s.faultCause = 1 ∨ s.faultCause = 2))

/-- The invariant of the machine: a well-formed launch configuration, a sound context, legal codes (while the block has
not faulted: 60_exceptions.md R224 leaves the result registers open afterwards), and packet memory in canonical form. -/
abbrev State.Inv (s : State) : Prop :=
  s.cfg.wf = true ∧ s.ctx.sound s.cfg ∧ (s.running → s.res.legal) ∧ s.causeLegal ∧ s.mem.wf = true

/-- Every element of the block's state has the value 10_state.md R43 gives it after reset. -/
abbrev State.hasResetValues (t : State) : Prop :=
  (∀ (k : Nat) (sl : Slot), t.ctx.slots[k]? = some sl → sl.tag = t.cfg.tagUnspec ∧ sl.bound = none)
    ∧ t.ctx.slots.length = t.cfg.vlanCount
    ∧ t.ctx.enabledCount = 0
    ∧ (∀ (i : Nat) (b : Bool), t.ctx.ifBitset[i]? = some b → b = false) ∧ t.ctx.ifBitset.length = t.cfg.numIfaces
    ∧ t.ctx.init = false
    ∧ t.faulted = false ∧ t.faultCause = 0
    ∧ t.log = []
    ∧ t.cmd = none
    ∧ t.ops = ⟨none, none, none, none, none, none, none, none, none, none⟩
    ∧ t.res = ⟨none, none, none, none, none, none, none, none, none⟩

/-- The premises under which the packet command of interface `i` runs on packet `p` (30_encoding.md R88 items 3 to 5,
60_exceptions.md R233): the interface is an Ethernet interface with record `f`, `OPPKT` was written with `h`, `h` names
`p`, and the ownership of `h` has not passed. -/
abbrev State.ready (s : State) (i : Nat) (f : Iface) (h : Handle) (p : Packet) : Prop :=
  s.cfg.ifaces[i]? = some f ∧ f.isEth = true ∧ s.ops.opPkt = some h ∧ s.mem.packet? h = some p ∧ h ∉ s.handedOver

/-- `k` is the first slot that meets `P` (10_state.md R31: "first" means lowest index). -/
abbrev isFirstSlot (ss : List Slot) (P : Slot → Prop) (k : Nat) : Prop :=
  (∃ sl : Slot, ss[k]? = some sl ∧ P sl) ∧ ∀ j < k, ∀ sl : Slot, ss[j]? = some sl → ¬ P sl

/-- `f'` is `f` with the link header of 45_header_builder.md R190 over `buf[off−H..off)` and nothing else changed:
destination [0..6), source [6..12), then the type, or TPID, TCI and type; an absent address leaves its bytes. -/
abbrev headerOver (tpid : Half) (vl : Bool) (src dst : Option Addr6) (ptype tci : Half) (f f' : Frag) : Prop :=
  let base := f.off - (if vl then 18 else 14)
  f'.off = f.off ∧ f'.len = f.len ∧ f'.buf.length = f.buf.length
    ∧ (∀ a ∈ dst, addr6At f'.buf base = a)
    ∧ (dst = none → ∀ j < 6, f'.buf[base + j]? = f.buf[base + j]?)
    ∧ (∀ a ∈ src, addr6At f'.buf (base + 6) = a)
    ∧ (src = none → ∀ j < 6, f'.buf[base + 6 + j]? = f.buf[base + 6 + j]?)
    ∧ (if vl then be16 f'.buf (base + 12) = tpid ∧ be16 f'.buf (base + 14) = tci ∧ be16 f'.buf (base + 16) = ptype
        else be16 f'.buf (base + 12) = ptype)
    ∧ ∀ j, j < base ∨ f.off ≤ j → f'.buf[j]? = f.buf[j]?

/-- Every fragment of `p'` is the fragment of `p` at its place with the header over it. -/
abbrev headersOver (tpid : Half) (vl : Bool) (src dst : Option Addr6) (ptype tci : Half) (p p' : Packet) : Prop :=
  p'.frags.length = p.frags.length
    ∧ ∀ (k : Nat) (f : Frag), p.frags[k]? = some f →
      ∃ f' : Frag, p'.frags[k]? = some f' ∧ headerOver tpid vl src dst ptype tci f f'

/-- Every fragment of `p` has at least `n` bytes of headroom (60_exceptions.md R233 item 4). -/
abbrev Packet.headroom (n : Nat) (p : Packet) : Prop := ∀ f ∈ p.frags, n ≤ f.off

/-- RX of interface `i` reads the header of `p` in its first fragment `g`: `n` bytes long (18 when VLAN processing is
active and the type field says VLAN, else 14), wholly inside it, with protocol type `ty` (43_frame_receiver.md R151). -/
abbrev State.rxHeader (s : State) (i : Nat) (p : Packet) (g : Frag) (n : Nat) (ty : Half) : Prop :=
  p.frags.head? = some g ∧ n ≤ g.len
    ∧ n = (if s.vlanActive i = true ∧ be16 g.buf (g.off + 12) = s.cfg.etypeVlan then 18 else 14)
    ∧ ty = be16 g.buf (g.off + n - 2)

/-- The packet as RX leaves it before it looks at the payload: TCI (from a VLAN header), family, link addresses and type
recorded (43_frame_receiver.md R151 to R154). -/
abbrev rxRecorded (n : Nat) (fam : BitVec 2) (g : Frag) (p : Packet) : Packet :=
  { p with
    vlanTci := if n = 18 then be16 g.buf (g.off + 14) else p.vlanTci
    family := fam
    llDst := some (addr6At g.buf g.off)
    llSrc := some (addr6At g.buf (g.off + 6))
    llType := .ethernet }

/-- That packet with its header stripped (43_frame_receiver.md R156). -/
abbrev rxStripped (n : Nat) (fam : BitVec 2) (g : Frag) (p : Packet) : Packet :=
  { rxRecorded n fam g p with
    frags := { g with off := g.off + n, len := g.len - n } :: p.frags.tail
    llReserve := BitVec.ofNat 8 n }

/-- `p'` is the packet `p` trimmed to the declared length `l` (43_frame_receiver.md R159, R162): unchanged when `p` is no
longer than that; else the shortest prefix of its fragments that reaches `l`, never less than the first fragment, the last
one kept shortened, and so the first `l` bytes of its data. -/
abbrev trimmedTo (l : Nat) (p p' : Packet) : Prop :=
  p' = { p with frags := p'.frags } ∧ 0 < p'.frags.length ∧ p'.len = min p.len l ∧ (p.len ≤ l → p' = p)
    ∧ (l < p.len → ∀ m : Nat, 0 < m → m < p'.frags.length → ((p.frags.take m).map Frag.len).sum < l)
    ∧ (∀ (k : Nat) (a : Frag), p'.frags[k]? = some a → ∃ b : Frag, p.frags[k]? = some b
        ∧ a.buf = b.buf ∧ a.off = b.off ∧ a.len ≤ b.len ∧ (k + 1 < p'.frags.length → a.len = b.len))
    ∧ (p.wf = true → p'.data = p.data.take l)

/-- The events of a trim that leaves `p'` of `p`: the fragments not kept are released in order
(43_frame_receiver.md R159). -/
abbrev trimEvents (h : Handle) (p p' : Packet) : List Event :=
  (List.range' p'.frags.length (p.frags.length - p'.frags.length)).map (Event.fragRelease h)

/-- The group bit of a link address, set in broadcast and multicast addresses alone (40_address_classifier.md R101). -/
abbrev groupBit (a : Addr6) : Bool := a[0].getLsbD 0

/-- The source TX uses: a group address is replaced by the interface's own, none stays none (44_frame_sender.md R175). -/
abbrev txSource (f : Iface) (p : Packet) : Option Addr6 := p.llSrc.map fun a => if groupBit a then f.linkAddr else a

/-- The TCI TX gives packet `p` (its addresses settled): unchanged when VLAN processing is not active; else the packet's
priority, its DEI, and its own tag or, where it carries none, that of the first slot bound to its owner
(44_frame_sender.md R177). -/
abbrev State.txTagged (s : State) (i : Nat) (p : Packet) (tci : Half) : Prop :=
  if s.vlanActive i = true then
    tciPcp tci = p.priority ∧ tciDei tci = tciDei p.vlanTci
      ∧ (if tciVid p.vlanTci = s.cfg.tagUnspec then
          ∃ (j k : Nat) (sl : Slot), ownerOf s.cfg p i = some j ∧ isFirstSlot s.ctx.slots (fun x => x.bound = some j) k
            ∧ s.ctx.slots[k]? = some sl ∧ tciVid tci = sl.tag
        else tciVid tci = tciVid p.vlanTci)
  else tci = p.vlanTci

/-- TX of `p` does not ask ARP for its destination: an IPv6 packet, or an IPv4 packet while ARP is absent
(44_frame_sender.md R170). -/
abbrev State.txDirect (s : State) (p : Packet) : Prop := p.family = 2 ∨ (p.family = 1 ∧ s.cfg.arpEnabled = false)

/-- An IPv4 destination that skips ARP: the interface's subnet broadcast, or multicast (44_frame_sender.md R171). -/
abbrev State.txShortcut (s : State) (i : Nat) (d : Ip4) : Prop :=
  (i, d) ∈ s.cfg.subnetBcast ∨ (224 ≤ d[0].toNat ∧ d[0].toNat ≤ 239)

/-- TX of `p` comes to label `HDR` with the packet `q`: `p` with its link addresses settled (44_frame_sender.md R170). On
the path that does not ask ARP the source is fixed (R175) and the destination is the packet's own or the one R176 fills
in; with ARP present, the addresses are those of the IPv4 shortcut (R171, R172). -/
abbrev State.txAddressed (s : State) (i : Nat) (f : Iface) (p q : Packet) : Prop :=
  (s.txDirect p ∧ ∃ d : Addr6, q = { p with llSrc := txSource f p, llDst := some d }
      ∧ (p.llDst = some d
        ∨ (p.llDst = none ∧ p.family = 1 ∧ d = #v[0xFF, 0xFF, 0xFF, 0xFF, 0xFF, 0xFF])
        ∨ (p.llDst = none ∧ p.family = 2 ∧ ∃ w, ipv6Dst s.cfg p = some w
            ∧ d = if w[0] = 0xFF then (#v[0x33, 0x33, w[12], w[13], w[14], w[15]] : Addr6)
                else #v[0xFF, 0xFF, 0xFF, 0xFF, 0xFF, 0xFF])))
    ∨ (s.cfg.arpEnabled = true ∧ p.family = 1 ∧ ∃ v, ipv4Dst s.cfg p = some v ∧ s.txShortcut i v
        ∧ q = { p with
            llSrc := some f.linkAddr
            llDst := some (if (i, v) ∈ s.cfg.subnetBcast then (#v[0xFF, 0xFF, 0xFF, 0xFF, 0xFF, 0xFF] : Addr6)
              else #v[0x01, 0x00, 0x5E, v[1] &&& 0x7F, v[2], v[3]])
            llType := .ethernet })

end Sys2Proof.Machine

namespace Sys2Proof

open Sys2Proof.Machine

/-- The protocol type `ty` is recognised: family `fam`, and whether it is ARP (43_frame_receiver.md R152). -/
abbrev Launch.typed (c : Launch) (ty : Half) (fam : BitVec 2) (arp : Bool) : Prop :=
  (ty = c.etypeIpv4 ∧ fam = 1 ∧ arp = false)
    ∨ (ty ≠ c.etypeIpv4 ∧ ty = c.etypeArp ∧ fam = 1 ∧ arp = true)
    ∨ (ty ≠ c.etypeIpv4 ∧ ty ≠ c.etypeArp ∧ ty = c.etypeIpv6 ∧ fam = 2 ∧ arp = false)

/-- The protocol type TX writes (44_frame_sender.md R179). -/
abbrev Launch.txType (c : Launch) (p : Packet) : Half := if p.family = 1 then c.etypeIpv4 else c.etypeIpv6

end Sys2Proof
end

