-- ==== Sys2Proof/Certificates/Slice0/Obligations.lean ====
section
/-! DEFINITION. The statements about the block, for the provers. Each cites the rule of spec/ it formalises. -/

open Sys2Proof Sys2Proof.Machine

/-! ### Encoding -/

/-- 30_encoding.md R83, R90: decoding the word of a well-formed command gives the command back. -/
def Obligations.DecodeOfEncodeIsTheCommand : Prop :=
  ∀ i : Instr, i.wellFormed = true → decode (encode i) = .ok i

/-- 30_encoding.md R83, R90: a word that decodes is the word of the command it decodes to, and that command is
well-formed. -/
def Obligations.EncodeOfDecodeIsTheWord : Prop :=
  ∀ (w : CmdWord) (i : Instr), decode w = .ok i → encode i = w ∧ i.wellFormed = true

/-- 30_encoding.md R84 (marked [derived] by the spec): the opcode selects the row, the row's mask and match decide
legality, and no word matches two rows, because every mask covers the opcode and no two matches share one. -/
def Obligations.DecodeFollowsTheOpcodeMap : Prop :=
  ∀ w : CmdWord,
    (∀ o : Op, wordOpc o.matchWord = wordOpc w →
      ((∃ i, decode w = .ok i ∧ i.op = o) ↔ w &&& o.mask = o.matchWord))
    ∧ ((∃ i, decode w = .ok i) → ∃ o : Op, wordOpc o.matchWord = wordOpc w)
    ∧ (∀ o : Op, o.mask &&& 0xFF = 0xFF)
    ∧ (∀ o o' : Op, wordOpc o.matchWord = wordOpc o'.matchWord → o = o')
    ∧ ∀ o o' : Op, w &&& o.mask = o.matchWord → w &&& o'.mask = o'.matchWord → o = o'

/-- 30_encoding.md R86: the reserved opcodes are exactly those outside the map, and a word with one is refused for it.
-/
def Obligations.ReservedOpcodesAreExactlyTheUnmappedOnes : Prop :=
  ∀ w : CmdWord,
    decode w = .error .reservedOpcode ↔
      (w.toNat % 256 = 0 ∨ (0x06 ≤ w.toNat % 256 ∧ w.toNat % 256 ≤ 0x0F) ∨ (0x16 ≤ w.toNat % 256 ∧ w.toNat % 256 ≤ 0x1F)
        ∨ (0x24 ≤ w.toNat % 256 ∧ w.toNat % 256 ≤ 0x2F) ∨ 0x31 ≤ w.toNat % 256)

/-- 30_encoding.md R82: the operands of a decoded command are the word's fields, as numbers: `IFX = CMD[15:8]`,
`TAG = CMD[27:16]`, `F = CMD[28]`. -/
def Obligations.DecodedOperandsAreTheWordsFields : Prop :=
  ∀ (w : CmdWord) (i : Instr), decode w = .ok i →
    (∀ n, i.ifx? = some n → n = w.toNat / 2 ^ 8 % 2 ^ 8)
    ∧ (∀ n t, i = .vlanEnable n t ∨ i = .vlanDisable n t → t.toNat = w.toNat / 2 ^ 16 % 2 ^ 12)
    ∧ (∀ t, i = .vlanLookup t → t.toNat = w.toNat / 2 ^ 16 % 2 ^ 12)
    ∧ ∀ n f, i = .l2Enable n f → (f = true ↔ w.toNat / 2 ^ 28 % 2 = 1)

/-- 30_encoding.md R83: words written out from the encoding decode to the commands they stand for. -/
def Obligations.WrittenOutWordsDecode : Prop :=
  decode 0x00000001 = .ok .clsBcast ∧ decode 0x00000004 = .ok .mapIpv4 ∧ decode 0x01230111 = .ok (.vlanEnable 1 0x123)
    ∧ decode 0x00000120 = .ok (.rx 1) ∧ decode 0x00000021 = .ok (.tx 0) ∧ decode 0x00000122 = .ok (.hdrBuild 1)
    ∧ decode 0x10000130 = .ok (.l2Enable 1 true)

/-! ### Steps, the host, reset and faults -/

/-- 30_encoding.md R89: while `FAULTED = 1` a write of `CMD` is not accepted (log 7); otherwise a word that decodes to
`i` runs `i` on the state with the write taken and `CMD` holding the word, and a word that decodes to no command is
illegal. -/
def Obligations.WriteOfCmdRunsTheDecodedCommand : Prop :=
  ∀ (s : State) (w : CmdWord) (rest : List HostAction), s.host = .writeCmd w :: rest →
    (s.faulted = true → step s = .fault .notAccepted)
    ∧ (s.faulted = false → ∀ i, decode w = .ok i → step s = exec i { s with host := rest, cmd := some w })
    ∧ (s.faulted = false → ∀ r, decode w = .error r →
        step s = .next { s with host := rest, cmd := some w, res := { s.res with status := some 15 } })

/-- 30_encoding.md R88: each of the six illegal cases writes `RES_STATUS <- 15` and changes nothing else; a command that
would read an operand register never written raises `Fatal(HOST_DUTY)`. Which reads come first is deduced from
60_exceptions.md R227: `OPPKT` at item 5, `OPFRAG` at item 6, every other operand of HDR_BUILD before its headroom test
(log 26); and `OPIP` counts as written for MAP_IPV6 only when its last twelve bytes were written too (log 5). -/
def Obligations.IllegalCommandChangesOnlyStatus : Prop :=
  ∀ s : State,
    (∀ (w : CmdWord) (rest : List HostAction), s.host = .writeCmd w :: rest → s.faulted = false →
      ((∀ o : Op, wordOpc o.matchWord ≠ wordOpc w)
        ∨ ∃ o : Op, wordOpc o.matchWord = wordOpc w ∧ w &&& o.mask ≠ o.matchWord) →
      step s = .next { s with host := rest, cmd := some w, res := { s.res with status := some 15 } })
    ∧ (∀ (i : Instr) (n : Nat), i.ifx? = some n → s.cfg.numIfaces ≤ n →
        exec i s = .next { s with res := { s.res with status := some 15 } })
    ∧ (∀ (n : Nat) (f : Iface) (b : Bool), s.cfg.ifaces[n]? = some f → f.isEth = false →
        ∀ i ∈ [Instr.rx n, .tx n, .hdrBuild n, .l2Enable n b],
          exec i s = .next { s with res := { s.res with status := some 15 } })
    ∧ (∀ (n : Nat) (f : Iface) (h : Handle), s.cfg.ifaces[n]? = some f → f.isEth = true → s.ops.opPkt = some h →
        s.mem.packet? h = none → ∀ i ∈ [Instr.rx n, .tx n, .hdrBuild n],
          exec i s = .next { s with res := { s.res with status := some 15 } })
    ∧ (∀ (n : Nat) (f : Iface) (h : Handle) (p : Packet) (k : Byte), s.cfg.ifaces[n]? = some f → f.isEth = true →
        s.ops.opPkt = some h → s.mem.packet? h = some p → s.ops.opFrag = some k → p.frags.length ≤ k.toNat →
        exec (.hdrBuild n) s = .next { s with res := { s.res with status := some 15 } })
    ∧ (s.ops.opA = none → ∀ i ∈ [Instr.clsBcast, .clsMcast],
        exec i s = .next { s with faulted := true, faultCause := 2 })
    ∧ (s.ops.opIpLo = none → exec .mapIpv4 s = .next { s with faulted := true, faultCause := 2 })
    ∧ (s.ops.opIpLo = none ∨ s.ops.opIpHi = none →
        exec .mapIpv6 s = .next { s with faulted := true, faultCause := 2 })
    ∧ (∀ (n : Nat) (f : Iface), s.cfg.ifaces[n]? = some f → f.isEth = true → s.ops.opPkt = none →
        ∀ i ∈ [Instr.rx n, .tx n, .hdrBuild n], exec i s = .next { s with faulted := true, faultCause := 2 })
    ∧ (∀ (n : Nat) (f : Iface) (h : Handle) (p : Packet), s.cfg.ifaces[n]? = some f → f.isEth = true →
        s.ops.opPkt = some h → s.mem.packet? h = some p →
        (s.ops.opFrag = none ∨ ∃ k, s.ops.opFrag = some k ∧ k.toNat < p.frags.length
          ∧ (s.ops.opSrcV = none ∨ (s.ops.opSrcV = some true ∧ s.ops.opSrc = none) ∨ s.ops.opDstV = none
            ∨ (s.ops.opDstV = some true ∧ s.ops.opDst = none) ∨ s.ops.opType = none)) →
        exec (.hdrBuild n) s = .next { s with faulted := true, faultCause := 2 })

/-- 93_implementation_defined.md U15, the model's choice (log 12): RX, TX and HDR_BUILD of a packet whose ownership has
passed raise `Fatal(HOST_DUTY)`. -/
def Obligations.PacketHandedOverFaults : Prop :=
  ∀ (s : State) (n : Nat) (f : Iface) (h : Handle) (p : Packet), s.cfg.ifaces[n]? = some f → f.isEth = true →
    s.ops.opPkt = some h → s.mem.packet? h = some p → h ∈ s.handedOver →
    exec (.rx n) s = .next { s with faulted := true, faultCause := 2 }
    ∧ exec (.tx n) s = .next { s with faulted := true, faultCause := 2 }
    ∧ ∀ k : Byte, s.ops.opFrag = some k → k.toNat < p.frags.length →
        exec (.hdrBuild n) s = .next { s with faulted := true, faultCause := 2 }

/-- 60_exceptions.md R226: reset clears `FAULTED`, and every step that takes no reset keeps it, and its cause. No fault
nests, because no command runs (30_encoding.md R89, as log 7 models it), so the result registers, the context and the log
stay too. -/
def Obligations.OnlyResetLeavesAFault : Prop :=
  ∀ s s' : State, s.faulted = true → step s = .next s' →
    ((∀ rest, s.host ≠ .reset :: rest) →
      s'.faulted = true ∧ s'.faultCause = s.faultCause ∧ s'.res = s.res ∧ s'.ctx = s.ctx ∧ s'.log = s.log)
    ∧ ∀ rest, s.host = .reset :: rest → s'.faulted = false

/-- 10_state.md R43: the value of every state element after reset, after a reset that a step takes and in the launch
state alike. The interface registry and the packet store are not block state, and have no line here. -/
def Obligations.ResetGivesEveryElementItsValue : Prop :=
  (∀ (s : State) (rest : List HostAction), s.host = .reset :: rest → ∃ t, step s = .next t ∧ t.hasResetValues)
  ∧ ∀ c : Launch, (State.resetWith c).hasResetValues

/-- 10_state.md R25: after reset a host read of any result register is refused; after a command wrote it, it is not. -/
def Obligations.UnwrittenResultReadsAreRefused : Prop :=
  (∀ (c : Launch), ∀ r ∈ [HostReg.resStatus, .resBool, .resAddr, .resIfaceV, .resIface, .resTag, .resCount, .resVerdict,
      .resReason], (State.resetWith c).hostRead r = none)
  ∧ ∀ s : State, ∃ t, exec .bcastAddr s = .next t
      ∧ t.hostRead .resAddr = some (.addr #v[0xFF, 0xFF, 0xFF, 0xFF, 0xFF, 0xFF])
      ∧ t.hostRead .resStatus = some (.bits 0)

/-- 10_state.md R23, R38, R40, 70_reset_and_hazards.md R249, 60_exceptions.md R238: a host write of an operand register
sets that register alone; the host places and frees packets, and nothing else of the packet store changes; with nothing
to do the block holds its state. `OPIP` may be written in its first four bytes or whole (log 5); something that is no
packet record is refused, the model's choice (log 11). Reset leaves what is not block state as it was
(log 13). A handle placed or freed is the host's again, also the model's choice (log 12). -/
def Obligations.HostActionsChangeOnlyWhatTheyName : Prop :=
  ∀ (s : State) (rest : List HostAction),
    (s.host = [] → step s = .next s)
    ∧ (s.host = .reset :: rest → ∃ t, step s = .next t ∧ t.cfg = s.cfg ∧ t.mem = s.mem ∧ t.host = rest
        ∧ t.arpInputs = s.arpInputs ∧ t.arpResolves = s.arpResolves ∧ t.draws = s.draws ∧ t.handedOver = s.handedOver)
    ∧ (∀ a, s.host = .setOpA a :: rest → step s = .next { s with host := rest, ops := { s.ops with opA := some a } })
    ∧ (∀ v, s.host = .setOpIp4 v :: rest → step s = .next { s with host := rest, ops := { s.ops with opIpLo := some v } })
    ∧ (∀ w, s.host = .setOpIp w :: rest → ∃ l u, step s = .next
        { s with host := rest, ops := { s.ops with opIpLo := some l, opIpHi := some u } } ∧ (l ++ u : Ip6) = w)
    ∧ (∀ h, s.host = .setOpPkt h :: rest → step s = .next { s with host := rest, ops := { s.ops with opPkt := some h } })
    ∧ (∀ k, s.host = .setOpFrag k :: rest → step s = .next { s with host := rest, ops := { s.ops with opFrag := some k } })
    ∧ (∀ v, s.host = .setOpType v :: rest → step s = .next { s with host := rest, ops := { s.ops with opType := some v } })
    ∧ (∀ b, s.host = .setOpSrcV b :: rest → step s = .next { s with host := rest, ops := { s.ops with opSrcV := some b } })
    ∧ (∀ a, s.host = .setOpSrc a :: rest → step s = .next { s with host := rest, ops := { s.ops with opSrc := some a } })
    ∧ (∀ b, s.host = .setOpDstV b :: rest → step s = .next { s with host := rest, ops := { s.ops with opDstV := some b } })
    ∧ (∀ a, s.host = .setOpDst a :: rest → step s = .next { s with host := rest, ops := { s.ops with opDst := some a } })
    ∧ ∀ h : Handle,
      (∀ p : Packet, s.host = .putPacket h p :: rest → p.wf = true → ∃ (m : Memory) (ho : List Handle),
        step s = .next { s with host := rest, mem := m, handedOver := ho }
        ∧ m.packet? h = some p ∧ (∀ a, a ≠ h → m.packet? a = s.mem.packet? a)
        ∧ ∀ a, a ∈ ho ↔ a ∈ s.handedOver ∧ a ≠ h)
      ∧ (∀ p : Packet, s.host = .putPacket h p :: rest → p.wf = false → step s = .refused .notAPacketRecord)
      ∧ (s.host = .freePacket h :: rest → ∃ (m : Memory) (ho : List Handle),
        step s = .next { s with host := rest, mem := m, handedOver := ho }
        ∧ m.packet? h = none ∧ (∀ a, a ≠ h → m.packet? a = s.mem.packet? a)
        ∧ ∀ a, a ∈ ho ↔ a ∈ s.handedOver ∧ a ≠ h)

/-! ### Rules of the whole machine -/

/-- Every command, on every state, completes with a next state: a fatal fault is one (60_exceptions.md R224), and so is
an illegal command (R220). The launch configuration, `CMD`, the operand registers and the host's actions are never
changed by a command (10_state.md R23, R27). -/
def Obligations.EveryCommandCompletesAndLeavesItsOperands : Prop :=
  ∀ (i : Instr) (s : State), ∃ t, exec i s = .next t
    ∧ t.cfg = s.cfg ∧ t.cmd = s.cmd ∧ t.ops = s.ops ∧ t.host = s.host

/-- 10_state.md R24: every command that does not fault writes `RES_STATUS`, and each other result register is written
only by the commands the table lists. A TX that faults leaves its result registers open (60_exceptions.md R224). -/
def Obligations.ResultRegistersHaveTheirWriters : Prop :=
  ∀ (i : Instr) (s t : State), exec i s = .next t →
    (s.faulted = false → t.faulted = false → ∃ v, t.res.status = some v)
    ∧ (i.op ∉ [Op.clsBcast, .clsMcast, .vlanIsEnabled] → t.res.bool = s.res.bool)
    ∧ (i.op ∉ [Op.mapIpv6, .mapIpv4, .bcastAddr] → t.res.addr = s.res.addr)
    ∧ (i.op ≠ .vlanLookup → t.res.ifaceV = s.res.ifaceV ∧ t.res.iface = s.res.iface)
    ∧ (i.op ≠ .vlanGetTag → t.res.tag = s.res.tag)
    ∧ (i.op ≠ .hdrReserve → t.res.count = s.res.count)
    ∧ (i.op ∉ [Op.rx, .tx] → t.res.verdict = s.res.verdict ∧ t.res.reason = s.res.reason)

/-- 10_state.md R30: no command but VLAN_INIT, VLAN_ENABLE and VLAN_DISABLE changes the Ethernet context. -/
def Obligations.OnlyVlanManagementChangesTheContext : Prop :=
  ∀ (i : Instr) (s t : State), exec i s = .next t → i.op ∉ [Op.vlanInit, .vlanEnable, .vlanDisable] → t.ctx = s.ctx

/-- 10_state.md R35: VLAN_INIT alone sets `INIT`, and nothing clears it but reset. -/
def Obligations.InitIsSetByVlanInitAndClearedByReset : Prop :=
  (∀ (i : Instr) (s t : State), exec i s = .next t → s.ctx.init = false → t.ctx.init = true → i.op = .vlanInit)
  ∧ ∀ s s' : State, step s = .next s' → s.ctx.init = true → s'.ctx.init = true ∨ ∃ rest, s.host = .reset :: rest

/-- 10_state.md R41: the event log only grows, at its end, except at reset. -/
def Obligations.EventLogOnlyGrows : Prop :=
  (∀ (i : Instr) (s t : State), exec i s = .next t → ∃ es, t.log = s.log ++ es)
  ∧ ∀ s s' : State, step s = .next s' → (∃ es, s'.log = s.log ++ es) ∨ ∃ rest, s.host = .reset :: rest

/-- 20_memory.md R67 (marked [derived] by the spec): CLS_*, MAP_*, BCAST_ADDR, VLAN_IS_ENABLED, VLAN_LOOKUP,
VLAN_GET_TAG and HDR_RESERVE change no state other than the result registers, and a second run changes nothing more. -/
def Obligations.ReadingCommandsChangeOnlyResultsAndRepeat : Prop :=
  ∀ (i : Instr) (s t : State),
    i.op ∈ [Op.clsBcast, .clsMcast, .mapIpv6, .mapIpv4, .bcastAddr, .vlanIsEnabled, .vlanLookup, .vlanGetTag, .hdrReserve] →
    exec i s = .next t → (s.faulted = false → t.faulted = false → t = { s with res := t.res }) ∧ exec i t = .next t

/-- 20_memory.md R62: accesses never touch another packet. RX and HDR_BUILD on two states that differ only in other
packets give the same results, events and packet, and leave every other packet as it was unless RX hands the packet to
ARP. Where RX does hand it over, the two runs get one answer because the model takes it from the listed answers and the
counter, which the two states share: that clause rests on log 9, and 60_exceptions.md R232 leaves the answer open. -/
def Obligations.RxAndHdrBuildSeeOnlyTheirPacket : Prop :=
  ∀ (s t t' : State) (n : Nat) (h : Handle) (m : Memory), s.ops.opPkt = some h → m.packet? h = s.mem.packet? h →
    ∀ i ∈ [Instr.rx n, .hdrBuild n], exec i s = .next t → exec i { s with mem := m } = .next t' →
      t'.res = t.res ∧ t'.log = t.log ∧ t'.faulted = t.faulted ∧ t'.faultCause = t.faultCause
        ∧ t'.mem.packet? h = t.mem.packet? h
        ∧ (t.log = s.log ++ [.arpInput h] ∨ ∀ a, a ≠ h → t.mem.packet? a = s.mem.packet? a)

/-! ### Invariants -/

/-- Every step keeps the invariant: the context sound (10_state.md R32, 42_vlan_table.md R130), no reserved code in a
result register or `FAULT_CAUSE` (10_state.md R42, R45 to R47), packet memory in canonical form (log 15). -/
def Obligations.StepKeepsTheInvariant : Prop :=
  ∀ s s' : State, s.Inv → step s = .next s' → s'.Inv

/-- Launched with any well-formed configuration, the reset state meets the invariant (10_state.md R43). -/
def Obligations.ResetMeetsTheInvariant : Prop :=
  ∀ c : Launch, c.wf = true → (State.resetWith c).Inv

/-- 42_vlan_table.md R130 (marked [derived] by the spec): from reset, under any launch configuration and whatever the
host, the packets and ARP do, `ENABLED_COUNT` is the number of tagged slots and of set bits, a bit is set iff the
interface's slot has a tag, and the count is `VLAN_COUNT` exactly when every slot holds a tag. -/
def Obligations.EnabledCountIsConsistentFromReset : Prop :=
  ∀ (c : Launch) (hs : List HostAction) (m : Memory) (ai : List ArpInputReply) (ar : List ArpResolveReply) (n : Nat)
    (s : State), c.wf = true → m.wf = true →
    Sys2Proof.core.run n { State.resetWith c with host := hs, mem := m, arpInputs := ai, arpResolves := ar } = .next s →
    s.ctx.enabledCount = taggedSlots c.tagUnspec s.ctx.slots
    ∧ s.ctx.enabledCount = s.ctx.ifBitset.count true
    ∧ (∀ i < c.numIfaces, (s.ctx.bit i = true ↔ ∃ sl ∈ s.ctx.slots, sl.bound = some i ∧ sl.tag ≠ c.tagUnspec))
    ∧ (s.ctx.enabledCount = c.vlanCount ↔ ∀ sl ∈ s.ctx.slots, sl.tag ≠ c.tagUnspec)

/-- 10_state.md R32 (marked [derived] by the spec): in a sound context (a) a slot with a tag is bound, (b) no two slots
hold the same interface and tag; (c) with `INIT_FREE_SLOT = unbound` each interface is bound to at most one slot, and a
bound slot stays bound to the same interface over every step but reset. That soundness is kept from reset is the
invariant above. -/
def Obligations.SlotsStayBoundAndDistinct : Prop :=
  (∀ (c : Launch) (x : Context), x.sound c →
    (∀ sl ∈ x.slots, sl.tag ≠ c.tagUnspec → sl.bound.isSome = true)
    ∧ (∀ (j k : Nat) (a b : Slot), x.slots[j]? = some a → x.slots[k]? = some b → a.tag ≠ c.tagUnspec →
        a.bound = b.bound → a.tag = b.tag → j = k)
    ∧ ∀ (j k i : Nat) (a b : Slot), x.slots[j]? = some a → x.slots[k]? = some b → a.bound = some i → b.bound = some i → j = k)
  ∧ ∀ s s' : State, s.cfg.initFree = .unbound → step s = .next s' →
      (∃ rest, s.host = .reset :: rest)
      ∨ ∀ (k i : Nat) (sl : Slot), s.ctx.slots[k]? = some sl → sl.bound = some i →
          ∃ sl' : Slot, s'.ctx.slots[k]? = some sl' ∧ sl'.bound = some i

/-! ### AddressClassifier and MulticastMapper -/

/-- 40_address_classifier.md R100: CLS_BCAST reports whether all six bytes of `OPA` equal 0xFF, and changes nothing but
`RES_BOOL` and `RES_STATUS`. -/
def Obligations.ClsBcastTellsAllOnes : Prop :=
  ∀ (s : State) (a : Addr6), s.ops.opA = some a →
    exec .clsBcast s = .next { s with res := { s.res with
      bool := some (decide (∀ (k : Nat) (_ : k < 6), a[k] = 0xFF)), status := some 0 } }

/-- 40_address_classifier.md R101: CLS_MCAST reports whether bit 0 of byte 0 of `OPA` is set and not all six bytes equal
0xFF; an address is neither broadcast nor multicast exactly when that bit is 0 (that clause is marked [derived] by the
spec). -/
def Obligations.ClsMcastTellsTheGroupBit : Prop :=
  (∀ (s : State) (a : Addr6), s.ops.opA = some a →
    exec .clsMcast s = .next { s with res := { s.res with
      bool := some (decide (a[0].toNat % 2 = 1) && !decide (∀ (k : Nat) (_ : k < 6), a[k] = 0xFF)), status := some 0 } })
  ∧ ∀ a : Addr6, (isBcast a = false ∧ isMcast a = false) ↔ a[0].toNat % 2 = 0

/-- 40_address_classifier.md R104 (marked [derived] by the spec): no address is both broadcast and multicast, and the
all-ones address is broadcast. -/
def Obligations.BroadcastAndMulticastExclude : Prop :=
  (∀ a : Addr6, ¬ (isBcast a = true ∧ isMcast a = true))
  ∧ isBcast #v[0xFF, 0xFF, 0xFF, 0xFF, 0xFF, 0xFF] = true ∧ isMcast #v[0xFF, 0xFF, 0xFF, 0xFF, 0xFF, 0xFF] = false

/-- 41_multicast_mapper.md R110: MAP_IPV6 gives `33:33` and the last four bytes of `OPIP`, whatever the other twelve. -/
def Obligations.MapIpv6TakesTheLastFourBytes : Prop :=
  ∀ (s : State) (l : Ip4) (u : Vector Byte 12), s.ops.opIpLo = some l → s.ops.opIpHi = some u →
    exec .mapIpv6 s = .next { s with res := { s.res with
      addr := some #v[0x33, 0x33, u[8], u[9], u[10], u[11]], status := some 0 } }

/-- 41_multicast_mapper.md R111: MAP_IPV4 gives `01:00:5e` and the low-order 23 bits of `OPIP[0..4)`, whatever its first
nine bits and the rest of `OPIP`. -/
def Obligations.MapIpv4TakesTheLow23Bits : Prop :=
  ∀ (s : State) (v : Ip4), s.ops.opIpLo = some v →
    ∃ b : Byte, b.toNat = v[1].toNat % 128 ∧
      exec .mapIpv4 s = .next { s with res := { s.res with
        addr := some #v[0x01, 0x00, 0x5E, b, v[2], v[3]], status := some 0 } }

/-- 41_multicast_mapper.md R112: BCAST_ADDR gives the all-ones address on every state. -/
def Obligations.BcastAddrIsAllOnes : Prop :=
  ∀ s : State, exec .bcastAddr s = .next { s with res := { s.res with
    addr := some #v[0xFF, 0xFF, 0xFF, 0xFF, 0xFF, 0xFF], status := some 0 } }

/-! ### VlanTable -/

/-- 42_vlan_table.md R120, R121: VLAN_INIT. Without VLAN capability, and for an interface already bound, only
`RES_STATUS` is written. Otherwise the first free slot (free as `INIT_FREE_SLOT` says) is bound to the interface, the
bitset is cleared if `INIT` was 0, and `INIT` becomes 1, even when no slot is free. -/
def Obligations.VlanInitBindsTheFirstFreeSlot : Prop :=
  ∀ (s : State) (i : Nat) (f : Iface), s.cfg.ifaces[i]? = some f →
    (f.vlanCap = false ∨ (∃ sl ∈ s.ctx.slots, sl.bound = some i) →
      exec (.vlanInit i) s = .next { s with res := { s.res with status := some 0 } })
    ∧ (f.vlanCap = true → (∀ sl ∈ s.ctx.slots, sl.bound ≠ some i) →
        (∀ sl ∈ s.ctx.slots, ¬ (sl.tag = s.cfg.tagUnspec ∧ (s.cfg.initFree = .unbound → sl.bound = none))) →
        exec (.vlanInit i) s = .next
          { s with ctx := { s.ctx with init := true }, res := { s.res with status := some 0 } })
    ∧ ∀ k : Nat, f.vlanCap = true → (∀ sl ∈ s.ctx.slots, sl.bound ≠ some i) →
        isFirstSlot s.ctx.slots
          (fun sl => sl.tag = s.cfg.tagUnspec ∧ (s.cfg.initFree = .unbound → sl.bound = none)) k →
        exec (.vlanInit i) s = .next
          { s with
            ctx :=
              { s.ctx with
                slots := s.ctx.slots.set k ⟨s.cfg.tagUnspec, some i⟩
                ifBitset := if s.ctx.init = true then s.ctx.ifBitset else List.replicate s.cfg.numIfaces false
                init := true }
            res := { s.res with status := some 0 } }

/-- 70_reset_and_hazards.md R244 (marked [derived] by the spec): VLAN_INIT is idempotent, has no effect on a bound
interface, and for an interface without VLAN capability does nothing and does not set `INIT`. -/
def Obligations.VlanInitIsIdempotent : Prop :=
  (∀ (s t : State) (i : Nat), exec (.vlanInit i) s = .next t → exec (.vlanInit i) t = .next t)
  ∧ ∀ (s t : State) (i : Nat) (f : Iface), s.cfg.ifaces[i]? = some f →
      ((∃ sl ∈ s.ctx.slots, sl.bound = some i) ∨ f.vlanCap = false) → exec (.vlanInit i) s = .next t →
      t.ctx = s.ctx ∧ t = { s with res := t.res }

/-- 42_vlan_table.md R122: with `unspec_only`, VLAN_INIT takes an untagged slot from the interface `j` it was bound to,
and `j`'s VLAN_ENABLE then fails with `NoCapacity`; with `unbound` no VLAN_INIT rebinds a bound slot. -/
def Obligations.UnspecOnlyInitRebinds : Prop :=
  (∀ (s t : State) (i j k : Nat) (f g : Iface) (sl : Slot) (tag : Tag), s.cfg.initFree = .unspecOnly →
    s.ctx.sound s.cfg → s.cfg.ifaces[i]? = some f → f.vlanCap = true → (∀ x ∈ s.ctx.slots, x.bound ≠ some i) →
    isFirstSlot s.ctx.slots (fun x => x.tag = s.cfg.tagUnspec) k → s.ctx.slots[k]? = some sl → sl.bound = some j → j ≠ i →
    s.cfg.ifaces[j]? = some g → g.isEth = true → tag ≠ s.cfg.tagUnspec → exec (.vlanInit i) s = .next t →
    t.ctx.slots[k]? = some ⟨s.cfg.tagUnspec, some i⟩ ∧ (∀ x ∈ t.ctx.slots, x.bound ≠ some j)
      ∧ exec (.vlanEnable j tag) t = .next { t with res := { t.res with status := some 5 } })
  ∧ ∀ (s t : State) (i j k : Nat) (sl : Slot), s.cfg.initFree = .unbound → exec (.vlanInit i) s = .next t →
      s.ctx.slots[k]? = some sl → sl.bound = some j → t.ctx.slots[k]? = some sl

/-- 42_vlan_table.md R124, R125: a VLAN_ENABLE with no failure condition sets the tag of the interface's first free slot
and its bit, adds one to the count, clamped to `VLAN_COUNT`, and emits the hook event if the device has the hook. -/
def Obligations.VlanEnableTakesTheFreeSlot : Prop :=
  ∀ (s : State) (i k : Nat) (t : Tag) (f : Iface), s.cfg.ifaces[i]? = some f → f.isEth = true → s.ctx.init = true →
    t ≠ s.cfg.tagUnspec → (∀ sl ∈ s.ctx.slots, ¬ (sl.bound = some i ∧ sl.tag = t)) →
    isFirstSlot s.ctx.slots (fun sl => sl.bound = some i ∧ sl.tag = s.cfg.tagUnspec) k →
    exec (.vlanEnable i t) s = .next
      { s with
        ctx :=
          { s.ctx with
            slots := s.ctx.slots.set k ⟨t, some i⟩
            ifBitset := s.ctx.ifBitset.set i true
            enabledCount := min (s.ctx.enabledCount + 1) s.cfg.vlanCount }
        log := s.log ++ (if f.hasVlanHook = true then [.vlanSetup i t true] else [])
        res := { s.res with status := some 0 } }

/-- 42_vlan_table.md R123: VLAN_ENABLE reports the first of its failure conditions in the order `InvalidLayer`,
`NotInitialized`, `InvalidTag`, `AlreadyExists`, `NoCapacity`, and then changes nothing but `RES_STATUS`. -/
def Obligations.VlanEnableReportsTheFirstFailure : Prop :=
  ∀ (s : State) (i : Nat) (t : Tag) (f : Iface), s.cfg.ifaces[i]? = some f →
    (f.isEth = false ∨ s.ctx.init = false ∨ t = s.cfg.tagUnspec ∨ (∃ sl ∈ s.ctx.slots, sl.bound = some i ∧ sl.tag = t)
      ∨ ∀ sl ∈ s.ctx.slots, ¬ (sl.bound = some i ∧ sl.tag = s.cfg.tagUnspec)) →
    exec (.vlanEnable i t) s = .next { s with res := { s.res with status := some (
      if f.isEth = false then 1
      else if s.ctx.init = false then 2
      else if t = s.cfg.tagUnspec then 3
      else if ∃ sl ∈ s.ctx.slots, sl.bound = some i ∧ sl.tag = t then 4
      else 5) } }

/-- 42_vlan_table.md R127, R128: VLAN_DISABLE reports the first of `InvalidLayer`, `InvalidTag`, `NotFound` and then
changes nothing but `RES_STATUS`; else it frees the first slot with the pair, which stays bound, clears the bit, takes
one from the count, clamped to 0, and emits the hook event if the device has the hook. -/
def Obligations.VlanDisableFreesTheSlot : Prop :=
  ∀ (s : State) (i : Nat) (t : Tag) (f : Iface), s.cfg.ifaces[i]? = some f →
    ((f.isEth = false ∨ t = s.cfg.tagUnspec ∨ ∀ sl ∈ s.ctx.slots, ¬ (sl.bound = some i ∧ sl.tag = t)) →
      exec (.vlanDisable i t) s = .next { s with res := { s.res with status := some (
        if f.isEth = false then 1 else if t = s.cfg.tagUnspec then 3 else 6) } })
    ∧ ∀ k : Nat, f.isEth = true → t ≠ s.cfg.tagUnspec →
        isFirstSlot s.ctx.slots (fun sl => sl.bound = some i ∧ sl.tag = t) k →
        exec (.vlanDisable i t) s = .next
          { s with
            ctx :=
              { s.ctx with
                slots := s.ctx.slots.set k ⟨s.cfg.tagUnspec, some i⟩
                ifBitset := s.ctx.ifBitset.set i false
                enabledCount := s.ctx.enabledCount - 1 }
            log := s.log ++ (if f.hasVlanHook = true then [.vlanSetup i t false] else [])
            res := { s.res with status := some 0 } }

/-- 42_vlan_table.md R129 (marked [derived] by the spec): with an interface bound to a free slot and `INIT = 1`, enable
gives 0 and then the tag reads back, a second enable gives `AlreadyExists`, disable gives 0 and then the tag is
unspecified, and enable again gives 0. For every tag but `TAG_UNSPEC` (the rule's own tag 10 is one, where `TAG_UNSPEC`
is another value). -/
def Obligations.VlanEnableDisableRoundTrip : Prop :=
  ∀ (s : State) (i : Nat) (t : Tag) (f : Iface), s.cfg.wf = true → s.ctx.sound s.cfg → s.cfg.ifaces[i]? = some f →
    f.isEth = true → s.ctx.init = true → t ≠ s.cfg.tagUnspec →
    (∃ sl ∈ s.ctx.slots, sl.bound = some i ∧ sl.tag = s.cfg.tagUnspec) →
    ∃ s1 s2 s3 s4 s5 s6 : State,
      exec (.vlanEnable i t) s = .next s1 ∧ s1.res.status = some 0
      ∧ exec (.vlanGetTag i) s1 = .next s2 ∧ s2.res.tag = some t
      ∧ exec (.vlanEnable i t) s2 = .next s3 ∧ s3.res.status = some 4
      ∧ exec (.vlanDisable i t) s3 = .next s4 ∧ s4.res.status = some 0
      ∧ exec (.vlanGetTag i) s4 = .next s5 ∧ s5.res.tag = some s.cfg.tagUnspec
      ∧ exec (.vlanEnable i t) s5 = .next s6 ∧ s6.res.status = some 0

/-- 42_vlan_table.md R131, R132: VLAN_IS_ENABLED reports whether the count equals `VLAN_COUNT` or the interface's bit is
set, so 1 for every interface when every slot of a sound context is tagged (that clause is marked [derived] by the
spec). -/
def Obligations.VlanIsEnabledTellsCountOrBit : Prop :=
  ∀ (s : State) (i : Nat) (f : Iface), s.cfg.ifaces[i]? = some f →
    exec (.vlanIsEnabled i) s = .next { s with res := { s.res with
      bool := some (decide (s.ctx.enabledCount = s.cfg.vlanCount) || (s.ctx.ifBitset[i]?.getD false)), status := some 0 } }
    ∧ (s.ctx.sound s.cfg → (∀ sl ∈ s.ctx.slots, sl.tag ≠ s.cfg.tagUnspec) →
        exec (.vlanIsEnabled i) s = .next { s with res := { s.res with bool := some true, status := some 0 } })

/-- 42_vlan_table.md R133, R134: VLAN_LOOKUP gives the interface of the first slot with the tag; with no match (and
always for `TAG_UNSPEC`) that of the first slot that is free and bound; else none. -/
def Obligations.VlanLookupFindsTheFirstSlot : Prop :=
  ∀ (s : State) (t : Tag),
    (∀ (k j : Nat) (sl : Slot), t ≠ s.cfg.tagUnspec → isFirstSlot s.ctx.slots (fun x => x.tag = t) k →
      s.ctx.slots[k]? = some sl → sl.bound = some j → ∃ b : Byte, b.toNat = j % 256 ∧
      exec (.vlanLookup t) s = .next { s with res := { s.res with ifaceV := some true, iface := some b, status := some 0 } })
    ∧ (∀ (k j : Nat) (sl : Slot), (t = s.cfg.tagUnspec ∨ ∀ x ∈ s.ctx.slots, x.tag ≠ t) →
        isFirstSlot s.ctx.slots (fun x => x.tag = s.cfg.tagUnspec ∧ x.bound ≠ none) k →
        s.ctx.slots[k]? = some sl → sl.bound = some j → ∃ b : Byte, b.toNat = j % 256 ∧
        exec (.vlanLookup t) s = .next { s with res := { s.res with ifaceV := some true, iface := some b, status := some 0 } })
    ∧ ((t = s.cfg.tagUnspec ∨ ∀ x ∈ s.ctx.slots, x.tag ≠ t) →
        (∀ x ∈ s.ctx.slots, ¬ (x.tag = s.cfg.tagUnspec ∧ x.bound ≠ none)) →
        exec (.vlanLookup t) s = .next { s with res := { s.res with ifaceV := some false, iface := some 0, status := some 0 } })

/-- 42_vlan_table.md R135, R136: VLAN_GET_TAG gives the tag of the first slot bound to the interface, `TAG_UNSPEC` when
none is. -/
def Obligations.VlanGetTagReadsTheBoundSlot : Prop :=
  ∀ (s : State) (i : Nat) (f : Iface), s.cfg.ifaces[i]? = some f →
    (∀ (k : Nat) (sl : Slot), isFirstSlot s.ctx.slots (fun x => x.bound = some i) k → s.ctx.slots[k]? = some sl →
      exec (.vlanGetTag i) s = .next { s with res := { s.res with tag := some sl.tag, status := some 0 } })
    ∧ ((∀ x ∈ s.ctx.slots, x.bound ≠ some i) →
        exec (.vlanGetTag i) s = .next { s with res := { s.res with tag := some s.cfg.tagUnspec, status := some 0 } })

/-! ### FrameReceiver -/

/-- 43_frame_receiver.md R161 (marked [derived] by the spec): a frame whose destination is a unicast address other than
the interface's is dropped as `NOT_FOR_US`; one with the interface's address (or a broadcast or multicast one, R155), a
recognised non-ARP type, its header in the first fragment and a readable declared length gives `CONTINUE` with the
header stripped. The first leaves the packet recorded and whole; which fragments the second keeps and releases is stated by
RxTrimsToTheDeclaredLength. -/
def Obligations.RxFiltersAndDelivers : Prop :=
  ∀ (s : State) (i : Nat) (f : Iface) (h : Handle) (p : Packet) (g : Frag) (n : Nat) (ty : Half) (fam : BitVec 2) (arp : Bool),
    s.ready i f h p → s.rxHeader i p g n ty → s.cfg.typed ty fam arp →
    (groupBit (addr6At g.buf g.off) = false → addr6At g.buf g.off ≠ f.linkAddr →
      exec (.rx i) s = .next
        { s with
          mem := s.mem.put h (rxRecorded n fam g p)
          res := { s.res with status := some 0, verdict := some 2, reason := some 3 } })
    ∧ ∀ l : Nat, (groupBit (addr6At g.buf g.off) = true ∨ addr6At g.buf g.off = f.linkAddr) → arp = false →
        ipDeclaredLen s.cfg (rxStripped n fam g p) = some l →
        ∃ (fs : List Frag) (es : List Event),
          exec (.rx i) s = .next
            { s with
              mem := s.mem.put h { rxStripped n fam g p with frags := fs }
              log := s.log ++ es
              res := { s.res with status := some 0, verdict := some 1, reason := some 0 } }
          ∧ ∃ g' : Frag, fs.head? = some g' ∧ g'.off = g.off + n ∧ g'.buf = g.buf

/-- 43_frame_receiver.md R159, R162 (R162 marked [derived] by the spec): after `CONTINUE` the packet's length is the lesser
of its length after the strip and the declared length. When it was longer, the shortest prefix of the chain that reaches
the declared length is kept (never less than the first fragment), its last fragment shortened, and the others released in
order; the data kept is the first `l` bytes of the data. -/
def Obligations.RxTrimsToTheDeclaredLength : Prop :=
  ∀ (s : State) (i : Nat) (f : Iface) (h : Handle) (p : Packet) (g : Frag) (n : Nat) (ty : Half) (fam : BitVec 2) (l : Nat),
    s.ready i f h p → s.rxHeader i p g n ty → s.cfg.typed ty fam false →
    (groupBit (addr6At g.buf g.off) = true ∨ addr6At g.buf g.off = f.linkAddr) →
    ipDeclaredLen s.cfg (rxStripped n fam g p) = some l →
    ∃ p' : Packet,
      exec (.rx i) s = .next
        { s with
          mem := s.mem.put h p'
          log := s.log ++ trimEvents h (rxStripped n fam g p) p'
          res := { s.res with status := some 0, verdict := some 1, reason := some 0 } }
      ∧ trimmedTo l (rxStripped n fam g p) p'

/-- 43_frame_receiver.md R151, R152, R158: RX drops as `MALFORMED` a packet with no fragment or whose header is not
inside the first one, with nothing written to it; as `UNKNOWN_TYPE` a frame of another type, with only the TCI of a VLAN
header recorded; as `MALFORMED`, stripped, a frame whose declared length cannot be read. -/
def Obligations.RxDropsMalformedAndUnknownFrames : Prop :=
  ∀ (s : State) (i : Nat) (f : Iface) (h : Handle) (p : Packet), s.ready i f h p →
    (p.frags = [] ∨ (∃ g ∈ p.frags.head?, g.len < 14
        ∨ (s.vlanActive i = true ∧ be16 g.buf (g.off + 12) = s.cfg.etypeVlan ∧ g.len < 18)) →
      exec (.rx i) s = .next { s with res := { s.res with status := some 0, verdict := some 2, reason := some 1 } })
    ∧ (∀ (g : Frag) (n : Nat) (ty : Half), s.rxHeader i p g n ty → ty ≠ s.cfg.etypeIpv4 → ty ≠ s.cfg.etypeArp →
        ty ≠ s.cfg.etypeIpv6 →
        exec (.rx i) s = .next
          { s with
            mem := s.mem.put h { p with vlanTci := if n = 18 then be16 g.buf (g.off + 14) else p.vlanTci }
            res := { s.res with status := some 0, verdict := some 2, reason := some 2 } })
    ∧ ∀ (g : Frag) (n : Nat) (ty : Half) (fam : BitVec 2), s.rxHeader i p g n ty → s.cfg.typed ty fam false →
        (groupBit (addr6At g.buf g.off) = true ∨ addr6At g.buf g.off = f.linkAddr) →
        ipDeclaredLen s.cfg (rxStripped n fam g p) = none →
        exec (.rx i) s = .next
          { s with
            mem := s.mem.put h (rxStripped n fam g p)
            res := { s.res with status := some 0, verdict := some 2, reason := some 1 } }

/-- 43_frame_receiver.md R157: an accepted ARP frame. With ARP present the stripped packet is handed to ARP and its
answer is the verdict, any of the three, with reason `NONE`; with ARP absent it is dropped, or goes on as an IPv4-family
frame whose declared length is read and to which it is trimmed, as `ARP_FRAME_WITHOUT_ARP` says. What ARP does to the
packet store meanwhile is the model's (log 9). -/
def Obligations.RxHandsArpFramesToArp : Prop :=
  ∀ (s : State) (i : Nat) (f : Iface) (h : Handle) (p : Packet) (g : Frag) (n : Nat) (ty : Half) (fam : BitVec 2),
    s.ready i f h p → s.rxHeader i p g n ty → s.cfg.typed ty fam true →
    (groupBit (addr6At g.buf g.off) = true ∨ addr6At g.buf g.off = f.linkAddr) →
    (∀ (r : ArpInputReply) (rest : List ArpInputReply), s.cfg.arpEnabled = true → s.arpInputs = r :: rest →
      exec (.rx i) s = .next
        { s with
          mem := (s.mem.put h (rxStripped n fam g p)).changes r.store
          log := s.log ++ [.arpInput h]
          arpInputs := rest
          handedOver := h :: s.handedOver
          res := { s.res with status := some 0, verdict := some (verdictCode r.verdict), reason := some 0 } })
    ∧ (s.cfg.arpEnabled = true → ∃ (t : State) (v : Verdict), exec (.rx i) s = .next t
        ∧ t.res = { s.res with status := some 0, verdict := some (verdictCode v), reason := some 0 }
        ∧ t.log = s.log ++ [.arpInput h] ∧ t.handedOver = h :: s.handedOver ∧ t.faulted = s.faulted)
    ∧ (s.cfg.arpEnabled = false → s.cfg.arpFrames = .drop →
        exec (.rx i) s = .next
          { s with
            mem := s.mem.put h (rxStripped n fam g p)
            res := { s.res with status := some 0, verdict := some 2, reason := some 6 } })
    ∧ (s.cfg.arpEnabled = false → s.cfg.arpFrames = .forward →
        (ipDeclaredLen s.cfg (rxStripped n fam g p) = none →
          exec (.rx i) s = .next
            { s with
              mem := s.mem.put h (rxStripped n fam g p)
              res := { s.res with status := some 0, verdict := some 2, reason := some 1 } })
        ∧ ∀ l : Nat, ipDeclaredLen s.cfg (rxStripped n fam g p) = some l → ∃ p' : Packet,
          exec (.rx i) s = .next
            { s with
              mem := s.mem.put h p'
              log := s.log ++ trimEvents h (rxStripped n fam g p) p'
              res := { s.res with status := some 0, verdict := some 1, reason := some 0 } }
          ∧ trimmedTo l (rxStripped n fam g p) p')

/-- 43_frame_receiver.md R150, 20_memory.md R67: what RX leaves unchanged. When it does not hand the packet to ARP,
every byte of packet memory reads as before, except those of fragments it released, and every other packet is the same;
in every case the context and the operand registers stay. The packet's priority stays when the packet is not handed to
ARP, which may change it (log 10). -/
def Obligations.RxWritesNoBufferByte : Prop :=
  ∀ (s t : State) (i : Nat) (h : Handle), s.ops.opPkt = some h → exec (.rx i) s = .next t →
    t.ctx = s.ctx ∧ t.ops = s.ops ∧ t.cfg = s.cfg ∧ t.arpResolves = s.arpResolves
    ∧ (t.log ≠ s.log ++ [.arpInput h] →
        (∀ a, a ≠ h → t.mem.packet? a = s.mem.packet? a)
        ∧ t.handedOver = s.handedOver ∧ t.arpInputs = s.arpInputs
        ∧ ∀ p q : Packet, s.mem.packet? h = some p → t.mem.packet? h = some q →
            q.priority = p.priority ∧ q.frags.length ≤ p.frags.length
            ∧ ∀ k j : Nat, k < q.frags.length → t.mem.byte? h k j = s.mem.byte? h k j)

/-! ### FrameSender -/

/-- 44_frame_sender.md R175, R177 to R180: TX of a packet with a destination set, on the path that does not ask ARP. The
source is fixed, the tag assigned, the header of the length HDR_RESERVE reports written into every fragment and nothing
else of the packet's bytes changed; the packet goes to the transmit queue with verdict `OK`. -/
def Obligations.TxWritesTheHeaderInEveryFragment : Prop :=
  ∀ (s : State) (i : Nat) (f : Iface) (h : Handle) (p : Packet) (d : Addr6) (tci : Half), s.ready i f h p →
    s.txDirect p → p.llDst = some d → s.txTagged i { p with llSrc := txSource f p } tci → p.wf = true →
    p.headroom (s.headerReserve i) →
    ∃ p' : Packet,
      exec (.tx i) s = .next
        { s with
          mem := s.mem.put h p'
          log := s.log ++ [.txQueue i h]
          handedOver := h :: s.handedOver
          res := { s.res with status := some 0, verdict := some 0, reason := some 0 } }
      ∧ p' = { p with
          frags := p'.frags
          llSrc := txSource f p
          vlanTci := tci
          llReserve := BitVec.ofNat 8 (s.headerReserve i) }
      ∧ headersOver s.cfg.etypeVlan (s.vlanActive i) (txSource f p) (some d) (s.cfg.txType p) tci p p'

/-- 44_frame_sender.md R176: the destination TX fills in when none is set: for IPv6 the mapped address of a multicast
destination, else broadcast; for IPv4 with ARP absent broadcast; an IPv6 destination that cannot be read drops the
packet as `MALFORMED`. -/
def Obligations.TxFillsInTheDestination : Prop :=
  ∀ (s : State) (i : Nat) (f : Iface) (h : Handle) (p : Packet), s.ready i f h p → s.txDirect p → p.llDst = none →
    (p.family = 2 → ipv6Dst s.cfg p = none →
      exec (.tx i) s = .next
        { s with
          mem := s.mem.put h { p with llSrc := txSource f p }
          res := { s.res with status := some 0, verdict := some 2, reason := some 1 } })
    ∧ ∀ (d : Addr6) (tci : Half),
        ((p.family = 1 ∧ d = #v[0xFF, 0xFF, 0xFF, 0xFF, 0xFF, 0xFF])
          ∨ ∃ w, p.family = 2 ∧ ipv6Dst s.cfg p = some w
            ∧ d = if w[0] = 0xFF then (#v[0x33, 0x33, w[12], w[13], w[14], w[15]] : Addr6)
                else #v[0xFF, 0xFF, 0xFF, 0xFF, 0xFF, 0xFF]) →
        s.txTagged i { p with llSrc := txSource f p, llDst := some d } tci → p.wf = true →
        p.headroom (s.headerReserve i) →
        ∃ p' : Packet,
          exec (.tx i) s = .next
            { s with
              mem := s.mem.put h p'
              log := s.log ++ [.txQueue i h]
              handedOver := h :: s.handedOver
              res := { s.res with status := some 0, verdict := some 0, reason := some 0 } }
          ∧ p' = { p with
              frags := p'.frags
              llSrc := txSource f p
              llDst := some d
              vlanTci := tci
              llReserve := BitVec.ofNat 8 (s.headerReserve i) }
          ∧ headersOver s.cfg.etypeVlan (s.vlanActive i) (txSource f p) (some d) (s.cfg.txType p) tci p p'

/-- 44_frame_sender.md R182 (marked [derived] by the spec): an IPv6 packet with no destination set, to a multicast
address ending in `00 00 00 01`, goes out with destination bytes `33:33:00:00:00:01` in every fragment's header. -/
def Obligations.TxIpv6MulticastHeader : Prop :=
  ∀ (s : State) (i : Nat) (f : Iface) (h : Handle) (p : Packet) (w : Ip6), s.ready i f h p → p.family = 2 →
    p.llDst = none → ipv6Dst s.cfg p = some w → w[0] = 0xFF → w[12] = 0 → w[13] = 0 → w[14] = 0 → w[15] = 1 →
    s.vlanActive i = false → p.wf = true → p.headroom 14 →
    ∃ (t : State) (q : Packet), exec (.tx i) s = .next t ∧ t.res.verdict = some 0 ∧ t.mem.packet? h = some q
      ∧ q.frags.length = p.frags.length
      ∧ ∀ g ∈ q.frags, addr6At g.buf (g.off - 14) = #v[0x33, 0x33, 0, 0, 0, 1]

/-- 44_frame_sender.md R171, R172: with ARP present an IPv4 packet to the interface's subnet broadcast address or to a
multicast address skips ARP and is sent with the synthesised destination and the interface's own source; broadcast wins
when both hold. An IPv4 destination that cannot be read drops the packet as `MALFORMED`. -/
def Obligations.TxIpv4ShortcutSkipsArp : Prop :=
  ∀ (s : State) (i : Nat) (f : Iface) (h : Handle) (p : Packet), s.ready i f h p → s.cfg.arpEnabled = true → p.family = 1 →
    (ipv4Dst s.cfg p = none →
      exec (.tx i) s = .next { s with res := { s.res with status := some 0, verdict := some 2, reason := some 1 } })
    ∧ ∀ (v : Ip4) (d : Addr6) (tci : Half), ipv4Dst s.cfg p = some v → s.txShortcut i v →
        (d = if (i, v) ∈ s.cfg.subnetBcast then (#v[0xFF, 0xFF, 0xFF, 0xFF, 0xFF, 0xFF] : Addr6)
            else #v[0x01, 0x00, 0x5E, v[1] &&& 0x7F, v[2], v[3]]) →
        s.txTagged i { p with llSrc := some f.linkAddr, llDst := some d, llType := .ethernet } tci → p.wf = true →
        p.headroom (s.headerReserve i) →
        ∃ p' : Packet,
          exec (.tx i) s = .next
            { s with
              mem := s.mem.put h p'
              log := s.log ++ [.txQueue i h]
              handedOver := h :: s.handedOver
              res := { s.res with status := some 0, verdict := some 0, reason := some 0 } }
          ∧ p' = { p with
              frags := p'.frags
              llSrc := some f.linkAddr
              llDst := some d
              llType := .ethernet
              vlanTci := tci
              llReserve := BitVec.ofNat 8 (s.headerReserve i) }
          ∧ headersOver s.cfg.etypeVlan (s.vlanActive i) (some f.linkAddr) (some d) s.cfg.etypeIpv4 tci p p'

/-- 44_frame_sender.md R173, R174: an IPv4 packet that goes to ARP. No answer drops it as `ARP_FAILED`; an answered
packet with a header in place is queued with the addresses of that header, the original released if it is another; a
dangling handle or a packet without that header raises `Fatal(HOST_DUTY)`. What ARP does to the packet store meanwhile
is the model's (log 9). -/
def Obligations.TxFollowsTheArpAnswer : Prop :=
  ∀ (s : State) (i : Nat) (f : Iface) (h : Handle) (p : Packet) (v : Ip4) (r : ArpResolveReply) (rest : List ArpResolveReply),
    s.ready i f h p → s.cfg.arpEnabled = true → p.family = 1 → ipv4Dst s.cfg p = some v → ¬ s.txShortcut i v →
    s.arpResolves = r :: rest →
    (r.packet = none →
      exec (.tx i) s = .next
        { s with
          mem := s.mem.changes r.store
          log := s.log ++ [.arpResolve h]
          arpResolves := rest
          res := { s.res with status := some 0, verdict := some 2, reason := some 4 } })
    ∧ (∀ (h' : Handle) (q : Packet) (g : Frag), r.packet = some h' → (s.mem.changes r.store).packet? h' = some q →
        q.frags.head? = some g → 12 ≤ q.llReserve.toNat → q.llReserve.toNat ≤ g.off →
        ∃ ho : List Handle, (∀ x, x ∈ ho ↔ x ∈ s.handedOver ∨ x = h ∨ x = h') ∧
          exec (.tx i) s = .next
            { s with
              mem := (s.mem.changes r.store).put h'
                { q with
                  llDst := some (addr6At g.buf (g.off - q.llReserve.toNat))
                  llSrc := some (addr6At g.buf (g.off - q.llReserve.toNat + 6))
                  llType := .ethernet }
              log := s.log ++ [.arpResolve h] ++ (if h' = h then [] else [.release h]) ++ [.txQueue i h']
              arpResolves := rest
              handedOver := ho
              res := { s.res with status := some 0, verdict := some 0, reason := some 0 } })
    ∧ ∀ h' : Handle, r.packet = some h' →
        (∀ (q : Packet) (g : Frag), (s.mem.changes r.store).packet? h' = some q → q.frags.head? = some g →
          q.llReserve.toNat < 12 ∨ g.off < q.llReserve.toNat) →
        ∃ t : State, exec (.tx i) s = .next t ∧ t.faulted = true ∧ t.faultCause = 2 ∧ t.ctx = s.ctx

/-- 44_frame_sender.md R173, R174, 93_implementation_defined.md U11: whatever ARP answers, TX completes in one of three
ways: dropped as `ARP_FAILED`; the packet ARP names queued, with `OK`, the original released if it is another; or a
`HOST_DUTY` fault. The events are stated whole but after a fault, where they are open (log 8). A packet queued or released
is no more the host's (log 12). -/
def Obligations.TxCompletesWhateverArpAnswers : Prop :=
  ∀ (s : State) (i : Nat) (f : Iface) (h : Handle) (p : Packet) (v : Ip4), s.ready i f h p → s.cfg.arpEnabled = true →
    p.family = 1 → ipv4Dst s.cfg p = some v → ¬ s.txShortcut i v → s.faulted = false →
    ∃ t : State, exec (.tx i) s = .next t ∧ t.ctx = s.ctx
      ∧ ((t.faulted = true ∧ t.faultCause = 2)
        ∨ (t.faulted = false ∧ t.res.status = some 0 ∧ t.res.verdict = some 2 ∧ t.res.reason = some 4
          ∧ t.log = s.log ++ [.arpResolve h])
        ∨ (t.faulted = false ∧ t.res.status = some 0 ∧ t.res.verdict = some 0 ∧ t.res.reason = some 0
          ∧ ∃ h' : Handle, t.log = s.log ++ [.arpResolve h] ++ (if h' = h then [] else [.release h]) ++ [.txQueue i h']
            ∧ h ∈ t.handedOver ∧ h' ∈ t.handedOver))

/-- 44_frame_sender.md R177: with VLAN processing active, a packet that carries no tag and whose owner is unknown or bound
to no slot is dropped as `NO_VLAN_FOR_IFACE`, whichever way its addresses were settled; they stay recorded. No header byte
is written, and no headroom is looked at. -/
def Obligations.TxDropsUntaggedWithoutASlot : Prop :=
  ∀ (s : State) (i : Nat) (f : Iface) (h : Handle) (p q : Packet), s.ready i f h p → s.txAddressed i f p q →
    s.vlanActive i = true → tciVid p.vlanTci = s.cfg.tagUnspec →
    (∀ j, ownerOf s.cfg q i = some j → ∀ sl ∈ s.ctx.slots, sl.bound ≠ some j) →
    exec (.tx i) s = .next
      { s with
        mem := s.mem.put h q
        res := { s.res with status := some 0, verdict := some 2, reason := some 5 } }

/-- 44_frame_sender.md R178, 45_header_builder.md R193, 60_exceptions.md R225, 70_reset_and_hazards.md R245: a TX that
comes to the header, whichever way its addresses were settled, with any fragment short of the length HDR_RESERVE reports
raises `Fatal(HEADROOM)`, and no byte of packet memory has changed. The second clause: so for every TX that ends in that
fault. -/
def Obligations.TxWithoutHeadroomFaultsBeforeWriting : Prop :=
  (∀ (s : State) (i : Nat) (f : Iface) (h : Handle) (p q : Packet) (tci : Half), s.ready i f h p →
    s.txAddressed i f p q → s.txTagged i q tci → ¬ p.headroom (s.headerReserve i) →
    ∃ t : State, exec (.tx i) s = .next t ∧ t.faulted = true ∧ t.faultCause = 1 ∧ t.ctx = s.ctx ∧ t.log = s.log
      ∧ ∀ (a : Handle) (k j : Nat), t.mem.byte? a k j = s.mem.byte? a k j)
  ∧ ∀ (s t : State) (i : Nat), s.faulted = false → exec (.tx i) s = .next t → t.faulted = true → t.faultCause = 1 →
      t.ctx = s.ctx ∧ t.log = s.log ∧ ∀ (a : Handle) (k j : Nat), t.mem.byte? a k j = s.mem.byte? a k j

/-- 44_frame_sender.md R170, 60_exceptions.md R223: TX of a packet whose family is neither IPv4 nor IPv6 raises
`Fatal(HOST_DUTY)`; packets, context and log are as before. -/
def Obligations.TxOfAnotherFamilyFaults : Prop :=
  ∀ (s : State) (i : Nat) (f : Iface) (h : Handle) (p : Packet), s.ready i f h p → p.family ≠ 1 → p.family ≠ 2 →
    ∃ t : State, exec (.tx i) s = .next t ∧ t.faulted = true ∧ t.faultCause = 2 ∧ t.mem = s.mem ∧ t.ctx = s.ctx
      ∧ t.log = s.log ∧ t.ops = s.ops

/-- 44_frame_sender.md R170, R178, 20_memory.md R66: what TX leaves unchanged. When it has not asked ARP and has not
faulted, every other packet is the same, and every byte of its own packet outside `buf[off−H..off)` of its fragments
reads as before, `H` being what HDR_RESERVE reports; in every case the context and the operand registers stay. -/
def Obligations.TxChangesOnlyHeaderBytes : Prop :=
  ∀ (s t : State) (i : Nat) (h : Handle), s.ops.opPkt = some h → exec (.tx i) s = .next t →
    t.ctx = s.ctx ∧ t.ops = s.ops ∧ t.cfg = s.cfg ∧ t.arpInputs = s.arpInputs
    ∧ (t.faulted = false → (∀ es, t.log ≠ s.log ++ .arpResolve h :: es) →
        t.arpResolves = s.arpResolves ∧ (∀ a, a ≠ h → t.mem.packet? a = s.mem.packet? a)
        ∧ ∀ p q : Packet, s.mem.packet? h = some p → t.mem.packet? h = some q →
            q.family = p.family ∧ q.priority = p.priority ∧ q.frags.length = p.frags.length
            ∧ ∀ (k : Nat) (g : Frag), p.frags[k]? = some g → ∃ g' : Frag, q.frags[k]? = some g'
              ∧ g'.off = g.off ∧ g'.len = g.len ∧ g'.buf.length = g.buf.length
              ∧ ∀ j : Nat, j < g.off - s.headerReserve i ∨ g.off ≤ j → g'.buf[j]? = g.buf[j]?)

/-- 44_frame_sender.md R181: what the driver sends for each fragment of a packet TX queued (with no ARP in between) is
the header TX wrote followed by the fragment's data. -/
def Obligations.WireImageIsHeaderThenData : Prop :=
  ∀ (s t : State) (i : Nat) (f : Iface) (h : Handle) (p q : Packet), s.ready i f h p → p.wf = true →
    exec (.tx i) s = .next t → t.log = s.log ++ [.txQueue i h] → t.faulted = false → t.mem.packet? h = some q →
    ∀ (k : Nat) (g : Frag), p.frags[k]? = some g → ∃ g' : Frag, q.frags[k]? = some g'
      ∧ g'.wireImage q.llReserve.toNat
          = (g'.buf.drop (g.off - s.headerReserve i)).take (s.headerReserve i) ++ g.data
      ∧ (g'.wireImage q.llReserve.toNat).length = s.headerReserve i + g.len
      ∧ be16 (g'.wireImage q.llReserve.toNat) (s.headerReserve i - 2) = s.cfg.txType p
      ∧ ∀ a : Addr6, q.llDst = some a → addr6At (g'.wireImage q.llReserve.toNat) 0 = a

/-! ### HeaderBuilder and the L2 driver contract -/

/-- 45_header_builder.md R190, R191, R193: HDR_BUILD writes the header of the length HDR_RESERVE reports into the
headroom of the fragment, with the addresses given and the packet's own TCI, and changes nothing else; with less
headroom it raises `Fatal(HEADROOM)` and changes nothing but the fault registers. -/
def Obligations.HdrBuildWritesOneHeader : Prop :=
  ∀ (s : State) (i : Nat) (f : Iface) (h : Handle) (p : Packet) (k : Byte) (g : Frag) (src dst : Option Addr6) (ty : Half),
    s.ready i f h p → s.ops.opFrag = some k → p.frags[k.toNat]? = some g → s.ops.opSrcV = some src.isSome →
    (∀ a ∈ src, s.ops.opSrc = some a) → s.ops.opDstV = some dst.isSome → (∀ a ∈ dst, s.ops.opDst = some a) →
    s.ops.opType = some ty →
    (g.off < s.headerReserve i → exec (.hdrBuild i) s = .next { s with faulted := true, faultCause := 1 })
    ∧ (s.headerReserve i ≤ g.off → g.wf = true →
        ∃ g' : Frag,
          exec (.hdrBuild i) s = .next
            { s with
              mem := s.mem.put h { p with frags := p.frags.set k.toNat g' }
              res := { s.res with status := some 0 } }
          ∧ headerOver s.cfg.etypeVlan (s.vlanActive i) src dst ty p.vlanTci g g')

/-- 45_header_builder.md R192 (marked [derived] by the spec): HDR_BUILD given a destination (or a source) whose bytes
are already in place leaves the same packet memory, and all else but the operand registers, as when it is given none,
whether the other address is given or not. -/
def Obligations.HdrBuildSelfCopyChangesNothing : Prop :=
  ∀ (s : State) (i : Nat) (f : Iface) (h : Handle) (p : Packet) (k : Byte) (g : Frag) (a : Addr6),
    s.ready i f h p → s.ops.opFrag = some k → p.frags[k.toNat]? = some g → g.wf = true → s.headerReserve i ≤ g.off →
    s.ops.opType.isSome = true →
    (addr6At g.buf (g.off - s.headerReserve i) = a → (∃ b, s.ops.opSrcV = some b ∧ (b = true → s.ops.opSrc.isSome = true)) →
      ∃ t : State,
        exec (.hdrBuild i) { s with ops := { s.ops with opDstV := some true, opDst := some a } }
          = .next { t with ops := { s.ops with opDstV := some true, opDst := some a } }
        ∧ exec (.hdrBuild i) { s with ops := { s.ops with opDstV := some false } }
          = .next { t with ops := { s.ops with opDstV := some false } })
    ∧ (addr6At g.buf (g.off - s.headerReserve i + 6) = a → (∃ b, s.ops.opDstV = some b ∧ (b = true → s.ops.opDst.isSome = true)) →
      ∃ t : State,
        exec (.hdrBuild i) { s with ops := { s.ops with opSrcV := some true, opSrc := some a } }
          = .next { t with ops := { s.ops with opSrcV := some true, opSrc := some a } }
        ∧ exec (.hdrBuild i) { s with ops := { s.ops with opSrcV := some false } }
          = .next { t with ops := { s.ops with opSrcV := some false } })

/-- 46_l2_interface.md R200: HDR_RESERVE reports 14, or 18 when VLAN processing is active, and that is the link-layer
reserve of every packet TX queues for the interface in the same state without asking ARP (that clause is marked
[derived] by the spec). -/
def Obligations.HdrReserveIsTheHeaderLengthOfTx : Prop :=
  ∀ (s : State) (i : Nat) (f : Iface), s.cfg.ifaces[i]? = some f →
    exec (.hdrReserve i) s = .next { s with res := { s.res with
      count := some (if s.vlanActive i = true then 18 else 14), status := some 0 } }
    ∧ ∀ (t : State) (h : Handle) (q : Packet), s.faulted = false → s.ops.opPkt = some h → exec (.tx i) s = .next t →
        t.log = s.log ++ [.txQueue i h] → t.faulted = false → t.mem.packet? h = some q →
        q.llReserve = if s.vlanActive i = true then 18 else 14

/-- 46_l2_interface.md R202: L2_ENABLE gives status 0 for an Ethernet interface and, when it disables with ARP present,
emits `ARP_CLEAR`; nothing else changes. -/
def Obligations.L2EnableClearsTheArpCacheOnDisable : Prop :=
  ∀ (s : State) (i : Nat) (f : Iface) (en : Bool), s.cfg.ifaces[i]? = some f → f.isEth = true →
    exec (.l2Enable i en) s = .next
      { s with
        log := s.log ++ (if en = false ∧ s.cfg.arpEnabled = true then [.arpClear i] else [])
        res := { s.res with status := some 0 } }
end

