-- ==== Sys2Proof/Laws/Decode.lean ====
section
/-! SUPPORT. The fields of an assembled word, and the row a word's opcode selects. -/

namespace Sys2Proof

/-- One bit of an assembled word: the opcode's, the interface's, the tag's, or `F`. -/
theorem assemble_getLsbD {opc : CmdWord} (h : opc >>> 8 = 0) (i : Nat) (t : Tag) (f : Bool) (k : Nat) :
    (assemble opc i t f).getLsbD k =
      if k < 8 then opc.getLsbD k
      else if k < 16 then i.testBit (k - 8)
      else if k < 28 then t.getLsbD (k - 16)
      else decide (k = 28) && f := by
  have ho : ∀ j, 8 ≤ j → opc.getLsbD j = false := fun j hj => by
    have := congrArg (fun w : CmdWord => w.getLsbD (j - 8)) h
    simpa [Nat.add_sub_cancel' hj] using this
  have ho' : ∀ j (_ : 8 ≤ j) (hj : j < 32), opc[j] = false := fun j h1 hj => by
    rw [← BitVec.getLsbD_eq_getElem hj]; exact ho j h1
  unfold assemble
  simp only [BitVec.getLsbD_or, BitVec.getLsbD_shiftLeft, BitVec.truncate_eq_setWidth, BitVec.getLsbD_setWidth,
    BitVec.getLsbD_ofNat, BitVec.getLsbD_ofBool]
  split
  · simp [show k < 16 by omega, show k < 28 by omega, *]
  · split
    · simp [show k < 28 by omega, show k < 32 by omega, show k - 8 < 32 by omega, show k - 8 < 8 by omega, ho' k (by omega) (by omega), *]
    · split
      · simp [show ¬ k < 16 by omega, show ¬ k - 8 < 8 by omega, show k < 32 by omega, show k - 16 < 32 by omega,
          ho' k (by omega) (by omega), *]
      · by_cases e : k = 28
        · subst e; simp [ho' 28 (by omega) (by omega)]
        · simp [show ¬ k < 16 by omega, show ¬ k < 28 by omega, show ¬ k - 8 < 8 by omega, ho k (by omega),
            show ¬ k - 28 = 0 by omega, e]
          intro _ _
          exact BitVec.getLsbD_of_ge _ _ (by omega)

theorem wordOpc_assemble {opc : CmdWord} (h : opc >>> 8 = 0) (i : Nat) (t : Tag) (f : Bool) :
    wordOpc (assemble opc i t f) = wordOpc opc := by
  refine BitVec.eq_of_getLsbD_eq fun k hk => ?_
  simp only [wordOpc, BitVec.getLsbD_extractLsb', assemble_getLsbD h, Nat.zero_add, hk, if_true]

theorem wordIfx_assemble {opc : CmdWord} (h : opc >>> 8 = 0) (i : Nat) (t : Tag) (f : Bool) :
    wordIfx (assemble opc i t f) = i % 256 := by
  have : (assemble opc i t f).extractLsb' 8 8 = BitVec.ofNat 8 i := by
    refine BitVec.eq_of_getLsbD_eq fun k hk => ?_
    simp [assemble_getLsbD h, hk, show 8 + k < 16 by omega, -BitVec.getLsbD_eq_getElem, BitVec.getLsbD_ofNat]
  simp [wordIfx, this]

theorem wordTag_assemble {opc : CmdWord} (h : opc >>> 8 = 0) (i : Nat) (t : Tag) (f : Bool) :
    wordTag (assemble opc i t f) = t := by
  refine BitVec.eq_of_getLsbD_eq fun k hk => ?_
  simp [wordTag, assemble_getLsbD h, hk, show 16 + k < 28 by omega, show ¬ 16 + k < 8 by omega]

theorem wordF_assemble {opc : CmdWord} (h : opc >>> 8 = 0) (i : Nat) (t : Tag) (f : Bool) :
    wordF (assemble opc i t f) = f := by
  rw [wordF, assemble_getLsbD h]; simp

theorem Op.eq_of_opc (a b : Op) (h : wordOpc a.matchWord = wordOpc b.matchWord) : a = b := by
  cases a <;> cases b <;> first | rfl | exact absurd h (by decide)

theorem Op.mem_all (o : Op) : o ∈ Op.all := by cases o <;> decide

/-- A row's word selects that row: no two rows share an opcode. -/
theorem Op.select_eq_some (w : CmdWord) (o : Op) : Op.select w = some o ↔ wordOpc o.matchWord = wordOpc w := by
  constructor
  · intro h; simpa using List.find?_some h
  · intro h
    unfold Op.select
    cases e : Op.all.find? fun o => wordOpc o.matchWord == wordOpc w with
    | none => have := List.find?_eq_none.1 e o (Op.mem_all o); simp [h] at this
    | some o' =>
      have := List.find?_some e
      rw [Op.eq_of_opc o' o (by simp only [beq_iff_eq] at this; rw [this, h])]

theorem Op.select_eq_none (w : CmdWord) : Op.select w = none ↔ ∀ o : Op, wordOpc o.matchWord ≠ wordOpc w := by
  cases e : Op.select w with
  | none => simpa using fun o h => by simp [(Op.select_eq_some w o).2 h] at e
  | some o => simpa using ⟨o, (Op.select_eq_some w o).1 e⟩

/-- What `decode` answers, said once. -/
theorem decode_eq_ok (w : CmdWord) (i : Instr) :
    decode w = .ok i ↔ ∃ o : Op, wordOpc o.matchWord = wordOpc w ∧ w &&& o.mask = o.matchWord ∧ i = o.build w := by
  unfold decode
  cases e : Op.select w with
  | none => simpa using fun o h => absurd h ((Op.select_eq_none w).1 e o)
  | some o =>
    have ho := (Op.select_eq_some w o).1 e
    constructor
    · dsimp only; split
      · intro h; cases h; exact ⟨o, ho, ‹_›, rfl⟩
      · intro h; cases h
    · rintro ⟨o', h1, h2, rfl⟩
      have : o' = o := by simpa [e] using ((Op.select_eq_some w o').2 h1).symm
      subst this; simp [h2]

@[simp] theorem Op.op_build (o : Op) (w : CmdWord) : (o.build w).op = o := by cases o <;> rfl

end Sys2Proof
end

