-- ==== Sys2Proof/Laws/Memory.lean ====
section
/-! SUPPORT. The packet store: read after write, and every operation keeps the canonical form. -/

namespace Sys2Proof.Machine

/-! ### Read after write -/

@[simp] theorem Memory.packet?_put_same (m : Memory) (h : Handle) (p : Packet) : (m.put h p).packet? h = some p := by
  induction m with
  | nil => simp [Memory.put, Memory.packet?]
  | cons e m ih =>
    simp only [Memory.put]; split
    · simp [Memory.packet?]
    · split
      · simp [Memory.packet?]
      · rename_i hne; simp [Memory.packet?, Ne.symm hne, ih]

@[simp] theorem Memory.packet?_put_ne (m : Memory) {h a : Handle} (p : Packet) (ne : a ≠ h) :
    (m.put h p).packet? a = m.packet? a := by
  induction m with
  | nil => simp [Memory.put, Memory.packet?, ne.symm]
  | cons e m ih =>
    simp only [Memory.put]; split
    · simp [Memory.packet?, ne.symm]
    · split
      · rename_i h1 h2; subst h2; simp [Memory.packet?, ne.symm]
      · simp [Memory.packet?, ih]

theorem Memory.packet?_put (m : Memory) (h a : Handle) (p : Packet) :
    (m.put h p).packet? a = if a = h then some p else m.packet? a := by
  split
  · subst a; simp
  · simp [*]

theorem Memory.packet?_free (m : Memory) (h a : Handle) :
    (m.free h).packet? a = if a = h then none else m.packet? a := by
  induction m with
  | nil => simp [Memory.free, Memory.packet?]
  | cons e m ih =>
    unfold Memory.free at ih ⊢
    simp only [List.filter_cons]
    by_cases he : e.1 = h
    · simp only [he, ne_eq, not_true_eq_false, decide_false, Bool.false_eq_true, if_false, ih, Memory.packet?]
      by_cases ha : a = h
      · simp [ha]
      · simp [ha, Ne.symm ha]
    · simp only [ne_eq, he, not_false_eq_true, decide_true, if_true, Memory.packet?, ih]
      by_cases ha : a = h <;> simp [ha, he]

/-- Writing the same handle twice leaves the second packet. -/
@[simp] theorem Memory.put_put (m : Memory) (h : Handle) (p q : Packet) : (m.put h p).put h q = m.put h q := by
  induction m with
  | nil => simp [Memory.put]
  | cons e m ih =>
    obtain ⟨k, r⟩ := e
    simp only [Memory.put]
    split
    · simp [Memory.put]
    · split
      · simp [Memory.put]
      · simp [Memory.put, *]

/-! ### The canonical form -/

theorem Memory.wf_iff (m : Memory) :
    m.wf = true ↔ m.Pairwise (fun a b => a.1 < b.1) ∧ ∀ e ∈ m, e.2.wf = true := by
  simp [Memory.wf]

@[simp] theorem Memory.wf_nil : Memory.wf [] = true := rfl

theorem Memory.mem_put (m : Memory) (h : Handle) (p : Packet) {e : Handle × Packet} (he : e ∈ m.put h p) :
    e = (h, p) ∨ e ∈ m := by
  induction m with
  | nil => simpa [Memory.put] using he
  | cons d m ih =>
    simp only [Memory.put] at he
    split at he
    · simpa using he
    · split at he
      · rcases List.mem_cons.1 he with h1 | h1 <;> simp [h1]
      · rcases List.mem_cons.1 he with h1 | h1
        · simp [h1]
        · rcases ih h1 with h2 | h2 <;> simp [h2]

theorem Memory.wf_put {m : Memory} {h : Handle} {p : Packet} (hm : m.wf = true) (hp : p.wf = true) :
    (m.put h p).wf = true := by
  rw [Memory.wf_iff] at *
  refine ⟨?_, fun e he => ?_⟩
  · obtain ⟨hs, -⟩ := hm
    induction m with
    | nil => simp [Memory.put]
    | cons d m ih =>
      obtain ⟨h1, h2⟩ := List.pairwise_cons.1 hs
      simp only [Memory.put]
      split
      · rename_i lt
        refine List.pairwise_cons.2 ⟨fun e he => ?_, hs⟩
        rcases List.mem_cons.1 he with rfl | he
        · exact lt
        · exact BitVec.lt_trans lt (h1 e he)
      · split
        · rename_i e1; subst e1; exact List.pairwise_cons.2 ⟨h1, h2⟩
        · rename_i nlt ne
          refine List.pairwise_cons.2 ⟨fun e he => ?_, ih h2⟩
          rcases Memory.mem_put _ _ _ he with rfl | he
          · show d.1 < h; bv_omega
          · exact h1 e he
  · rcases Memory.mem_put _ _ _ he with rfl | he
    · exact hp
    · exact hm.2 e he

theorem Memory.wf_free {m : Memory} (h : Handle) (hm : m.wf = true) : (m.free h).wf = true := by
  rw [Memory.wf_iff] at *
  exact ⟨hm.1.sublist List.filter_sublist, fun e he => hm.2 e (List.mem_of_mem_filter he)⟩

theorem Memory.wf_change {m : Memory} (c : StoreChange) (hm : m.wf = true) : (m.change c).wf = true := by
  unfold Memory.change
  split
  · exact Memory.wf_free _ hm
  · split
    · exact Memory.wf_put hm ‹_›
    · exact hm

theorem Memory.wf_changes {m : Memory} (cs : List StoreChange) (hm : m.wf = true) : (m.changes cs).wf = true := by
  unfold Memory.changes
  induction cs generalizing m with
  | nil => exact hm
  | cons c cs ih => exact ih (Memory.wf_change c hm)

/-- A packet read from a store in canonical form is a packet record. -/
theorem Memory.wf_of_packet? {m : Memory} {h : Handle} {p : Packet} (hm : m.wf = true) (hp : m.packet? h = some p) :
    p.wf = true := by
  obtain ⟨-, hall⟩ := (Memory.wf_iff m).1 hm
  clear hm
  induction m with
  | nil => simp [Memory.packet?] at hp
  | cons e m ih =>
    simp only [Memory.packet?] at hp
    split at hp
    · cases hp; exact hall _ (by simp)
    · exact ih hp fun e he => hall e (by simp [he])

theorem State.reset_mem_wf (c : Launch) : (State.resetWith c).mem.wf = true := rfl

/-! ### One byte -/

/-- A byte read depends on the packet its handle names alone. -/
theorem Memory.byte?_congr {m m' : Memory} {h : Handle} (e : m'.packet? h = m.packet? h) (k j : Nat) :
    m'.byte? h k j = m.byte? h k j := by
  simp [Memory.byte?, e]

@[simp] theorem Memory.byte?_put_ne (m : Memory) {h a : Handle} (p : Packet) (ne : a ≠ h) (k j : Nat) :
    (m.put h p).byte? a k j = m.byte? a k j :=
  Memory.byte?_congr (by simp [ne]) k j

/-! ### Bytes of one fragment -/

@[simp] theorem writeBytes_length (b : List Byte) (j : Nat) (v : List Byte) : (writeBytes b j v).length = b.length := by
  induction v generalizing b j with
  | nil => rfl
  | cons x v ih => simp [writeBytes, ih]

/-- Every byte outside the ones written reads as before. -/
theorem writeBytes_getElem?_of_not_mem (b : List Byte) (j k : Nat) (v : List Byte) (h : k < j ∨ j + v.length ≤ k) :
    (writeBytes b j v)[k]? = b[k]? := by
  induction v generalizing b j with
  | nil => rfl
  | cons x v ih =>
    rw [writeBytes, ih]
    · rw [List.getElem?_set_ne]; simp only [List.length_cons] at h; omega
    · simp only [List.length_cons] at h; omega

/-- The bytes written read back. -/
theorem writeBytes_getElem?_of_mem (b : List Byte) (j k : Nat) (v : List Byte) (h : k < v.length)
    (hb : j + v.length ≤ b.length) : (writeBytes b j v)[j + k]? = v[k]? := by
  induction v generalizing b j k with
  | nil => simp at h
  | cons x v ih =>
    simp only [List.length_cons] at h hb
    rw [writeBytes]
    cases k with
    | zero =>
      rw [writeBytes_getElem?_of_not_mem _ _ _ _ (by omega)]
      rw [Nat.add_zero, List.getElem?_set_self (by omega)]; rfl
    | succ k =>
      have := ih (b.set j x) (j + 1) k (by omega) (by simp; omega)
      rw [show j + (k + 1) = j + 1 + k by omega, this]; simp

end Sys2Proof.Machine
end

