-- ==== Sys2Proof/Laws/State.lean ====
section
/-! SUPPORT. What each named update of the state leaves in each field. -/

namespace Sys2Proof.Machine

variable (s s0 : State)

/-! ### `setStatus` -/

@[simp] theorem State.setStatus_cfg (c : Status) : (s.setStatus c).cfg = s.cfg := rfl
@[simp] theorem State.setStatus_cmd (c : Status) : (s.setStatus c).cmd = s.cmd := rfl
@[simp] theorem State.setStatus_ops (c : Status) : (s.setStatus c).ops = s.ops := rfl
@[simp] theorem State.setStatus_res (c : Status) : (s.setStatus c).res = { s.res with status := some c.code } := rfl
@[simp] theorem State.setStatus_ctx (c : Status) : (s.setStatus c).ctx = s.ctx := rfl
@[simp] theorem State.setStatus_faulted (c : Status) : (s.setStatus c).faulted = s.faulted := rfl
@[simp] theorem State.setStatus_faultCause (c : Status) : (s.setStatus c).faultCause = s.faultCause := rfl
@[simp] theorem State.setStatus_log (c : Status) : (s.setStatus c).log = s.log := rfl
@[simp] theorem State.setStatus_mem (c : Status) : (s.setStatus c).mem = s.mem := rfl
@[simp] theorem State.setStatus_host (c : Status) : (s.setStatus c).host = s.host := rfl
@[simp] theorem State.setStatus_arpInputs (c : Status) : (s.setStatus c).arpInputs = s.arpInputs := rfl
@[simp] theorem State.setStatus_arpResolves (c : Status) : (s.setStatus c).arpResolves = s.arpResolves := rfl
@[simp] theorem State.setStatus_draws (c : Status) : (s.setStatus c).draws = s.draws := rfl
@[simp] theorem State.setStatus_handedOver (c : Status) : (s.setStatus c).handedOver = s.handedOver := rfl

/-! ### `setBool` -/

@[simp] theorem State.setBool_cfg (b : Bool) : (s.setBool b).cfg = s.cfg := rfl
@[simp] theorem State.setBool_cmd (b : Bool) : (s.setBool b).cmd = s.cmd := rfl
@[simp] theorem State.setBool_ops (b : Bool) : (s.setBool b).ops = s.ops := rfl
@[simp] theorem State.setBool_res (b : Bool) : (s.setBool b).res = { s.res with bool := some b } := rfl
@[simp] theorem State.setBool_ctx (b : Bool) : (s.setBool b).ctx = s.ctx := rfl
@[simp] theorem State.setBool_faulted (b : Bool) : (s.setBool b).faulted = s.faulted := rfl
@[simp] theorem State.setBool_faultCause (b : Bool) : (s.setBool b).faultCause = s.faultCause := rfl
@[simp] theorem State.setBool_log (b : Bool) : (s.setBool b).log = s.log := rfl
@[simp] theorem State.setBool_mem (b : Bool) : (s.setBool b).mem = s.mem := rfl
@[simp] theorem State.setBool_host (b : Bool) : (s.setBool b).host = s.host := rfl
@[simp] theorem State.setBool_arpInputs (b : Bool) : (s.setBool b).arpInputs = s.arpInputs := rfl
@[simp] theorem State.setBool_arpResolves (b : Bool) : (s.setBool b).arpResolves = s.arpResolves := rfl
@[simp] theorem State.setBool_draws (b : Bool) : (s.setBool b).draws = s.draws := rfl
@[simp] theorem State.setBool_handedOver (b : Bool) : (s.setBool b).handedOver = s.handedOver := rfl

/-! ### `setAddr` -/

@[simp] theorem State.setAddr_cfg (a : Addr6) : (s.setAddr a).cfg = s.cfg := rfl
@[simp] theorem State.setAddr_cmd (a : Addr6) : (s.setAddr a).cmd = s.cmd := rfl
@[simp] theorem State.setAddr_ops (a : Addr6) : (s.setAddr a).ops = s.ops := rfl
@[simp] theorem State.setAddr_res (a : Addr6) : (s.setAddr a).res = { s.res with addr := some a } := rfl
@[simp] theorem State.setAddr_ctx (a : Addr6) : (s.setAddr a).ctx = s.ctx := rfl
@[simp] theorem State.setAddr_faulted (a : Addr6) : (s.setAddr a).faulted = s.faulted := rfl
@[simp] theorem State.setAddr_faultCause (a : Addr6) : (s.setAddr a).faultCause = s.faultCause := rfl
@[simp] theorem State.setAddr_log (a : Addr6) : (s.setAddr a).log = s.log := rfl
@[simp] theorem State.setAddr_mem (a : Addr6) : (s.setAddr a).mem = s.mem := rfl
@[simp] theorem State.setAddr_host (a : Addr6) : (s.setAddr a).host = s.host := rfl
@[simp] theorem State.setAddr_arpInputs (a : Addr6) : (s.setAddr a).arpInputs = s.arpInputs := rfl
@[simp] theorem State.setAddr_arpResolves (a : Addr6) : (s.setAddr a).arpResolves = s.arpResolves := rfl
@[simp] theorem State.setAddr_draws (a : Addr6) : (s.setAddr a).draws = s.draws := rfl
@[simp] theorem State.setAddr_handedOver (a : Addr6) : (s.setAddr a).handedOver = s.handedOver := rfl

/-! ### `setIface` -/

@[simp] theorem State.setIface_cfg (r : Option Nat) : (s.setIface r).cfg = s.cfg := rfl
@[simp] theorem State.setIface_cmd (r : Option Nat) : (s.setIface r).cmd = s.cmd := rfl
@[simp] theorem State.setIface_ops (r : Option Nat) : (s.setIface r).ops = s.ops := rfl
@[simp] theorem State.setIface_res (r : Option Nat) : (s.setIface r).res = { s.res with ifaceV := some r.isSome, iface := some (BitVec.ofNat 8 (r.getD 0)) } := rfl
@[simp] theorem State.setIface_ctx (r : Option Nat) : (s.setIface r).ctx = s.ctx := rfl
@[simp] theorem State.setIface_faulted (r : Option Nat) : (s.setIface r).faulted = s.faulted := rfl
@[simp] theorem State.setIface_faultCause (r : Option Nat) : (s.setIface r).faultCause = s.faultCause := rfl
@[simp] theorem State.setIface_log (r : Option Nat) : (s.setIface r).log = s.log := rfl
@[simp] theorem State.setIface_mem (r : Option Nat) : (s.setIface r).mem = s.mem := rfl
@[simp] theorem State.setIface_host (r : Option Nat) : (s.setIface r).host = s.host := rfl
@[simp] theorem State.setIface_arpInputs (r : Option Nat) : (s.setIface r).arpInputs = s.arpInputs := rfl
@[simp] theorem State.setIface_arpResolves (r : Option Nat) : (s.setIface r).arpResolves = s.arpResolves := rfl
@[simp] theorem State.setIface_draws (r : Option Nat) : (s.setIface r).draws = s.draws := rfl
@[simp] theorem State.setIface_handedOver (r : Option Nat) : (s.setIface r).handedOver = s.handedOver := rfl

/-! ### `setTag` -/

@[simp] theorem State.setTag_cfg (t : Tag) : (s.setTag t).cfg = s.cfg := rfl
@[simp] theorem State.setTag_cmd (t : Tag) : (s.setTag t).cmd = s.cmd := rfl
@[simp] theorem State.setTag_ops (t : Tag) : (s.setTag t).ops = s.ops := rfl
@[simp] theorem State.setTag_res (t : Tag) : (s.setTag t).res = { s.res with tag := some t } := rfl
@[simp] theorem State.setTag_ctx (t : Tag) : (s.setTag t).ctx = s.ctx := rfl
@[simp] theorem State.setTag_faulted (t : Tag) : (s.setTag t).faulted = s.faulted := rfl
@[simp] theorem State.setTag_faultCause (t : Tag) : (s.setTag t).faultCause = s.faultCause := rfl
@[simp] theorem State.setTag_log (t : Tag) : (s.setTag t).log = s.log := rfl
@[simp] theorem State.setTag_mem (t : Tag) : (s.setTag t).mem = s.mem := rfl
@[simp] theorem State.setTag_host (t : Tag) : (s.setTag t).host = s.host := rfl
@[simp] theorem State.setTag_arpInputs (t : Tag) : (s.setTag t).arpInputs = s.arpInputs := rfl
@[simp] theorem State.setTag_arpResolves (t : Tag) : (s.setTag t).arpResolves = s.arpResolves := rfl
@[simp] theorem State.setTag_draws (t : Tag) : (s.setTag t).draws = s.draws := rfl
@[simp] theorem State.setTag_handedOver (t : Tag) : (s.setTag t).handedOver = s.handedOver := rfl

/-! ### `setCount` -/

@[simp] theorem State.setCount_cfg (n : Nat) : (s.setCount n).cfg = s.cfg := rfl
@[simp] theorem State.setCount_cmd (n : Nat) : (s.setCount n).cmd = s.cmd := rfl
@[simp] theorem State.setCount_ops (n : Nat) : (s.setCount n).ops = s.ops := rfl
@[simp] theorem State.setCount_res (n : Nat) : (s.setCount n).res = { s.res with count := some (BitVec.ofNat 8 n) } := rfl
@[simp] theorem State.setCount_ctx (n : Nat) : (s.setCount n).ctx = s.ctx := rfl
@[simp] theorem State.setCount_faulted (n : Nat) : (s.setCount n).faulted = s.faulted := rfl
@[simp] theorem State.setCount_faultCause (n : Nat) : (s.setCount n).faultCause = s.faultCause := rfl
@[simp] theorem State.setCount_log (n : Nat) : (s.setCount n).log = s.log := rfl
@[simp] theorem State.setCount_mem (n : Nat) : (s.setCount n).mem = s.mem := rfl
@[simp] theorem State.setCount_host (n : Nat) : (s.setCount n).host = s.host := rfl
@[simp] theorem State.setCount_arpInputs (n : Nat) : (s.setCount n).arpInputs = s.arpInputs := rfl
@[simp] theorem State.setCount_arpResolves (n : Nat) : (s.setCount n).arpResolves = s.arpResolves := rfl
@[simp] theorem State.setCount_draws (n : Nat) : (s.setCount n).draws = s.draws := rfl
@[simp] theorem State.setCount_handedOver (n : Nat) : (s.setCount n).handedOver = s.handedOver := rfl

/-! ### `setVerdict` -/

@[simp] theorem State.setVerdict_cfg (v : Verdict) (r : Reason) : (s.setVerdict v r).cfg = s.cfg := rfl
@[simp] theorem State.setVerdict_cmd (v : Verdict) (r : Reason) : (s.setVerdict v r).cmd = s.cmd := rfl
@[simp] theorem State.setVerdict_ops (v : Verdict) (r : Reason) : (s.setVerdict v r).ops = s.ops := rfl
@[simp] theorem State.setVerdict_res (v : Verdict) (r : Reason) : (s.setVerdict v r).res = { s.res with verdict := some (verdictCode v), reason := some r.code } := rfl
@[simp] theorem State.setVerdict_ctx (v : Verdict) (r : Reason) : (s.setVerdict v r).ctx = s.ctx := rfl
@[simp] theorem State.setVerdict_faulted (v : Verdict) (r : Reason) : (s.setVerdict v r).faulted = s.faulted := rfl
@[simp] theorem State.setVerdict_faultCause (v : Verdict) (r : Reason) : (s.setVerdict v r).faultCause = s.faultCause := rfl
@[simp] theorem State.setVerdict_log (v : Verdict) (r : Reason) : (s.setVerdict v r).log = s.log := rfl
@[simp] theorem State.setVerdict_mem (v : Verdict) (r : Reason) : (s.setVerdict v r).mem = s.mem := rfl
@[simp] theorem State.setVerdict_host (v : Verdict) (r : Reason) : (s.setVerdict v r).host = s.host := rfl
@[simp] theorem State.setVerdict_arpInputs (v : Verdict) (r : Reason) : (s.setVerdict v r).arpInputs = s.arpInputs := rfl
@[simp] theorem State.setVerdict_arpResolves (v : Verdict) (r : Reason) : (s.setVerdict v r).arpResolves = s.arpResolves := rfl
@[simp] theorem State.setVerdict_draws (v : Verdict) (r : Reason) : (s.setVerdict v r).draws = s.draws := rfl
@[simp] theorem State.setVerdict_handedOver (v : Verdict) (r : Reason) : (s.setVerdict v r).handedOver = s.handedOver := rfl

/-! ### `drop` -/

@[simp] theorem State.drop_cfg (r : Reason) : (s.drop r).cfg = s.cfg := rfl
@[simp] theorem State.drop_cmd (r : Reason) : (s.drop r).cmd = s.cmd := rfl
@[simp] theorem State.drop_ops (r : Reason) : (s.drop r).ops = s.ops := rfl
@[simp] theorem State.drop_res (r : Reason) : (s.drop r).res = { s.res with verdict := some 2, reason := some r.code } := rfl
@[simp] theorem State.drop_ctx (r : Reason) : (s.drop r).ctx = s.ctx := rfl
@[simp] theorem State.drop_faulted (r : Reason) : (s.drop r).faulted = s.faulted := rfl
@[simp] theorem State.drop_faultCause (r : Reason) : (s.drop r).faultCause = s.faultCause := rfl
@[simp] theorem State.drop_log (r : Reason) : (s.drop r).log = s.log := rfl
@[simp] theorem State.drop_mem (r : Reason) : (s.drop r).mem = s.mem := rfl
@[simp] theorem State.drop_host (r : Reason) : (s.drop r).host = s.host := rfl
@[simp] theorem State.drop_arpInputs (r : Reason) : (s.drop r).arpInputs = s.arpInputs := rfl
@[simp] theorem State.drop_arpResolves (r : Reason) : (s.drop r).arpResolves = s.arpResolves := rfl
@[simp] theorem State.drop_draws (r : Reason) : (s.drop r).draws = s.draws := rfl
@[simp] theorem State.drop_handedOver (r : Reason) : (s.drop r).handedOver = s.handedOver := rfl

/-! ### `illegal` -/

@[simp] theorem State.illegal_cfg : (s.illegal).cfg = s.cfg := rfl
@[simp] theorem State.illegal_cmd : (s.illegal).cmd = s.cmd := rfl
@[simp] theorem State.illegal_ops : (s.illegal).ops = s.ops := rfl
@[simp] theorem State.illegal_res : (s.illegal).res = { s.res with status := some 15 } := rfl
@[simp] theorem State.illegal_ctx : (s.illegal).ctx = s.ctx := rfl
@[simp] theorem State.illegal_faulted : (s.illegal).faulted = s.faulted := rfl
@[simp] theorem State.illegal_faultCause : (s.illegal).faultCause = s.faultCause := rfl
@[simp] theorem State.illegal_log : (s.illegal).log = s.log := rfl
@[simp] theorem State.illegal_mem : (s.illegal).mem = s.mem := rfl
@[simp] theorem State.illegal_host : (s.illegal).host = s.host := rfl
@[simp] theorem State.illegal_arpInputs : (s.illegal).arpInputs = s.arpInputs := rfl
@[simp] theorem State.illegal_arpResolves : (s.illegal).arpResolves = s.arpResolves := rfl
@[simp] theorem State.illegal_draws : (s.illegal).draws = s.draws := rfl
@[simp] theorem State.illegal_handedOver : (s.illegal).handedOver = s.handedOver := rfl

/-! ### `setCtx` -/

@[simp] theorem State.setCtx_cfg (c : Context) : (s.setCtx c).cfg = s.cfg := rfl
@[simp] theorem State.setCtx_cmd (c : Context) : (s.setCtx c).cmd = s.cmd := rfl
@[simp] theorem State.setCtx_ops (c : Context) : (s.setCtx c).ops = s.ops := rfl
@[simp] theorem State.setCtx_res (c : Context) : (s.setCtx c).res = s.res := rfl
@[simp] theorem State.setCtx_ctx (c : Context) : (s.setCtx c).ctx = c := rfl
@[simp] theorem State.setCtx_faulted (c : Context) : (s.setCtx c).faulted = s.faulted := rfl
@[simp] theorem State.setCtx_faultCause (c : Context) : (s.setCtx c).faultCause = s.faultCause := rfl
@[simp] theorem State.setCtx_log (c : Context) : (s.setCtx c).log = s.log := rfl
@[simp] theorem State.setCtx_mem (c : Context) : (s.setCtx c).mem = s.mem := rfl
@[simp] theorem State.setCtx_host (c : Context) : (s.setCtx c).host = s.host := rfl
@[simp] theorem State.setCtx_arpInputs (c : Context) : (s.setCtx c).arpInputs = s.arpInputs := rfl
@[simp] theorem State.setCtx_arpResolves (c : Context) : (s.setCtx c).arpResolves = s.arpResolves := rfl
@[simp] theorem State.setCtx_draws (c : Context) : (s.setCtx c).draws = s.draws := rfl
@[simp] theorem State.setCtx_handedOver (c : Context) : (s.setCtx c).handedOver = s.handedOver := rfl

/-! ### `putPacket` -/

@[simp] theorem State.putPacket_cfg (h : Handle) (p : Packet) : (s.putPacket h p).cfg = s.cfg := rfl
@[simp] theorem State.putPacket_cmd (h : Handle) (p : Packet) : (s.putPacket h p).cmd = s.cmd := rfl
@[simp] theorem State.putPacket_ops (h : Handle) (p : Packet) : (s.putPacket h p).ops = s.ops := rfl
@[simp] theorem State.putPacket_res (h : Handle) (p : Packet) : (s.putPacket h p).res = s.res := rfl
@[simp] theorem State.putPacket_ctx (h : Handle) (p : Packet) : (s.putPacket h p).ctx = s.ctx := rfl
@[simp] theorem State.putPacket_faulted (h : Handle) (p : Packet) : (s.putPacket h p).faulted = s.faulted := rfl
@[simp] theorem State.putPacket_faultCause (h : Handle) (p : Packet) : (s.putPacket h p).faultCause = s.faultCause := rfl
@[simp] theorem State.putPacket_log (h : Handle) (p : Packet) : (s.putPacket h p).log = s.log := rfl
@[simp] theorem State.putPacket_mem (h : Handle) (p : Packet) : (s.putPacket h p).mem = s.mem.put h p := rfl
@[simp] theorem State.putPacket_host (h : Handle) (p : Packet) : (s.putPacket h p).host = s.host := rfl
@[simp] theorem State.putPacket_arpInputs (h : Handle) (p : Packet) : (s.putPacket h p).arpInputs = s.arpInputs := rfl
@[simp] theorem State.putPacket_arpResolves (h : Handle) (p : Packet) : (s.putPacket h p).arpResolves = s.arpResolves := rfl
@[simp] theorem State.putPacket_draws (h : Handle) (p : Packet) : (s.putPacket h p).draws = s.draws := rfl
@[simp] theorem State.putPacket_handedOver (h : Handle) (p : Packet) : (s.putPacket h p).handedOver = s.handedOver := rfl

/-! ### `emit` -/

@[simp] theorem State.emit_cfg (e : Event) : (s.emit e).cfg = s.cfg := rfl
@[simp] theorem State.emit_cmd (e : Event) : (s.emit e).cmd = s.cmd := rfl
@[simp] theorem State.emit_ops (e : Event) : (s.emit e).ops = s.ops := rfl
@[simp] theorem State.emit_res (e : Event) : (s.emit e).res = s.res := rfl
@[simp] theorem State.emit_ctx (e : Event) : (s.emit e).ctx = s.ctx := rfl
@[simp] theorem State.emit_faulted (e : Event) : (s.emit e).faulted = s.faulted := rfl
@[simp] theorem State.emit_faultCause (e : Event) : (s.emit e).faultCause = s.faultCause := rfl
@[simp] theorem State.emit_log (e : Event) : (s.emit e).log = s.log ++ [e] := rfl
@[simp] theorem State.emit_mem (e : Event) : (s.emit e).mem = s.mem := rfl
@[simp] theorem State.emit_host (e : Event) : (s.emit e).host = s.host := rfl
@[simp] theorem State.emit_arpInputs (e : Event) : (s.emit e).arpInputs = s.arpInputs := rfl
@[simp] theorem State.emit_arpResolves (e : Event) : (s.emit e).arpResolves = s.arpResolves := rfl
@[simp] theorem State.emit_draws (e : Event) : (s.emit e).draws = s.draws := rfl
@[simp] theorem State.emit_handedOver (e : Event) : (s.emit e).handedOver = s.handedOver := rfl

/-! ### `emitAll` -/

@[simp] theorem State.emitAll_cfg (es : List Event) : (s.emitAll es).cfg = s.cfg := rfl
@[simp] theorem State.emitAll_cmd (es : List Event) : (s.emitAll es).cmd = s.cmd := rfl
@[simp] theorem State.emitAll_ops (es : List Event) : (s.emitAll es).ops = s.ops := rfl
@[simp] theorem State.emitAll_res (es : List Event) : (s.emitAll es).res = s.res := rfl
@[simp] theorem State.emitAll_ctx (es : List Event) : (s.emitAll es).ctx = s.ctx := rfl
@[simp] theorem State.emitAll_faulted (es : List Event) : (s.emitAll es).faulted = s.faulted := rfl
@[simp] theorem State.emitAll_faultCause (es : List Event) : (s.emitAll es).faultCause = s.faultCause := rfl
@[simp] theorem State.emitAll_log (es : List Event) : (s.emitAll es).log = s.log ++ es := rfl
@[simp] theorem State.emitAll_mem (es : List Event) : (s.emitAll es).mem = s.mem := rfl
@[simp] theorem State.emitAll_host (es : List Event) : (s.emitAll es).host = s.host := rfl
@[simp] theorem State.emitAll_arpInputs (es : List Event) : (s.emitAll es).arpInputs = s.arpInputs := rfl
@[simp] theorem State.emitAll_arpResolves (es : List Event) : (s.emitAll es).arpResolves = s.arpResolves := rfl
@[simp] theorem State.emitAll_draws (es : List Event) : (s.emitAll es).draws = s.draws := rfl
@[simp] theorem State.emitAll_handedOver (es : List Event) : (s.emitAll es).handedOver = s.handedOver := rfl

/-! ### `handOver` -/

@[simp] theorem State.handOver_cfg (h : Handle) : (s.handOver h).cfg = s.cfg := rfl
@[simp] theorem State.handOver_cmd (h : Handle) : (s.handOver h).cmd = s.cmd := rfl
@[simp] theorem State.handOver_ops (h : Handle) : (s.handOver h).ops = s.ops := rfl
@[simp] theorem State.handOver_res (h : Handle) : (s.handOver h).res = s.res := rfl
@[simp] theorem State.handOver_ctx (h : Handle) : (s.handOver h).ctx = s.ctx := rfl
@[simp] theorem State.handOver_faulted (h : Handle) : (s.handOver h).faulted = s.faulted := rfl
@[simp] theorem State.handOver_faultCause (h : Handle) : (s.handOver h).faultCause = s.faultCause := rfl
@[simp] theorem State.handOver_log (h : Handle) : (s.handOver h).log = s.log := rfl
@[simp] theorem State.handOver_mem (h : Handle) : (s.handOver h).mem = s.mem := rfl
@[simp] theorem State.handOver_host (h : Handle) : (s.handOver h).host = s.host := rfl
@[simp] theorem State.handOver_arpInputs (h : Handle) : (s.handOver h).arpInputs = s.arpInputs := rfl
@[simp] theorem State.handOver_arpResolves (h : Handle) : (s.handOver h).arpResolves = s.arpResolves := rfl
@[simp] theorem State.handOver_draws (h : Handle) : (s.handOver h).draws = s.draws := rfl
@[simp] theorem State.handOver_handedOver (h : Handle) : (s.handOver h).handedOver = if h ∈ s.handedOver then s.handedOver else h :: s.handedOver := rfl

/-! ### `takeBack` -/

@[simp] theorem State.takeBack_cfg (h : Handle) : (s.takeBack h).cfg = s.cfg := rfl
@[simp] theorem State.takeBack_cmd (h : Handle) : (s.takeBack h).cmd = s.cmd := rfl
@[simp] theorem State.takeBack_ops (h : Handle) : (s.takeBack h).ops = s.ops := rfl
@[simp] theorem State.takeBack_res (h : Handle) : (s.takeBack h).res = s.res := rfl
@[simp] theorem State.takeBack_ctx (h : Handle) : (s.takeBack h).ctx = s.ctx := rfl
@[simp] theorem State.takeBack_faulted (h : Handle) : (s.takeBack h).faulted = s.faulted := rfl
@[simp] theorem State.takeBack_faultCause (h : Handle) : (s.takeBack h).faultCause = s.faultCause := rfl
@[simp] theorem State.takeBack_log (h : Handle) : (s.takeBack h).log = s.log := rfl
@[simp] theorem State.takeBack_mem (h : Handle) : (s.takeBack h).mem = s.mem := rfl
@[simp] theorem State.takeBack_host (h : Handle) : (s.takeBack h).host = s.host := rfl
@[simp] theorem State.takeBack_arpInputs (h : Handle) : (s.takeBack h).arpInputs = s.arpInputs := rfl
@[simp] theorem State.takeBack_arpResolves (h : Handle) : (s.takeBack h).arpResolves = s.arpResolves := rfl
@[simp] theorem State.takeBack_draws (h : Handle) : (s.takeBack h).draws = s.draws := rfl
@[simp] theorem State.takeBack_handedOver (h : Handle) : (s.takeBack h).handedOver = s.handedOver.filter fun k => k ≠ h := rfl

/-! ### `raiseFatal` -/

@[simp] theorem State.raiseFatal_cfg (c : Cause) : (s.raiseFatal c).cfg = s.cfg := rfl
@[simp] theorem State.raiseFatal_cmd (c : Cause) : (s.raiseFatal c).cmd = s.cmd := rfl
@[simp] theorem State.raiseFatal_ops (c : Cause) : (s.raiseFatal c).ops = s.ops := rfl
@[simp] theorem State.raiseFatal_res (c : Cause) : (s.raiseFatal c).res = s.res := rfl
@[simp] theorem State.raiseFatal_ctx (c : Cause) : (s.raiseFatal c).ctx = s.ctx := rfl
@[simp] theorem State.raiseFatal_faulted (c : Cause) : (s.raiseFatal c).faulted = true := rfl
@[simp] theorem State.raiseFatal_faultCause (c : Cause) : (s.raiseFatal c).faultCause = c.code := rfl
@[simp] theorem State.raiseFatal_log (c : Cause) : (s.raiseFatal c).log = s.log := rfl
@[simp] theorem State.raiseFatal_mem (c : Cause) : (s.raiseFatal c).mem = s.mem := rfl
@[simp] theorem State.raiseFatal_host (c : Cause) : (s.raiseFatal c).host = s.host := rfl
@[simp] theorem State.raiseFatal_arpInputs (c : Cause) : (s.raiseFatal c).arpInputs = s.arpInputs := rfl
@[simp] theorem State.raiseFatal_arpResolves (c : Cause) : (s.raiseFatal c).arpResolves = s.arpResolves := rfl
@[simp] theorem State.raiseFatal_draws (c : Cause) : (s.raiseFatal c).draws = s.draws := rfl
@[simp] theorem State.raiseFatal_handedOver (c : Cause) : (s.raiseFatal c).handedOver = s.handedOver := rfl

/-! ### `acceptCmd` -/

@[simp] theorem State.acceptCmd_cfg (w : CmdWord) (rest : List HostAction) : (s.acceptCmd w rest).cfg = s.cfg := rfl
@[simp] theorem State.acceptCmd_cmd (w : CmdWord) (rest : List HostAction) : (s.acceptCmd w rest).cmd = some w := rfl
@[simp] theorem State.acceptCmd_ops (w : CmdWord) (rest : List HostAction) : (s.acceptCmd w rest).ops = s.ops := rfl
@[simp] theorem State.acceptCmd_res (w : CmdWord) (rest : List HostAction) : (s.acceptCmd w rest).res = s.res := rfl
@[simp] theorem State.acceptCmd_ctx (w : CmdWord) (rest : List HostAction) : (s.acceptCmd w rest).ctx = s.ctx := rfl
@[simp] theorem State.acceptCmd_faulted (w : CmdWord) (rest : List HostAction) : (s.acceptCmd w rest).faulted = s.faulted := rfl
@[simp] theorem State.acceptCmd_faultCause (w : CmdWord) (rest : List HostAction) : (s.acceptCmd w rest).faultCause = s.faultCause := rfl
@[simp] theorem State.acceptCmd_log (w : CmdWord) (rest : List HostAction) : (s.acceptCmd w rest).log = s.log := rfl
@[simp] theorem State.acceptCmd_mem (w : CmdWord) (rest : List HostAction) : (s.acceptCmd w rest).mem = s.mem := rfl
@[simp] theorem State.acceptCmd_host (w : CmdWord) (rest : List HostAction) : (s.acceptCmd w rest).host = rest := rfl
@[simp] theorem State.acceptCmd_arpInputs (w : CmdWord) (rest : List HostAction) : (s.acceptCmd w rest).arpInputs = s.arpInputs := rfl
@[simp] theorem State.acceptCmd_arpResolves (w : CmdWord) (rest : List HostAction) : (s.acceptCmd w rest).arpResolves = s.arpResolves := rfl
@[simp] theorem State.acceptCmd_draws (w : CmdWord) (rest : List HostAction) : (s.acceptCmd w rest).draws = s.draws := rfl
@[simp] theorem State.acceptCmd_handedOver (w : CmdWord) (rest : List HostAction) : (s.acceptCmd w rest).handedOver = s.handedOver := rfl

/-! ### `applyReset` -/

@[simp] theorem State.applyReset_cfg : (s.applyReset).cfg = s.cfg := rfl
@[simp] theorem State.applyReset_cmd : (s.applyReset).cmd = none := rfl
@[simp] theorem State.applyReset_ops : (s.applyReset).ops = .reset := rfl
@[simp] theorem State.applyReset_res : (s.applyReset).res = .reset := rfl
@[simp] theorem State.applyReset_ctx : (s.applyReset).ctx = .reset s.cfg := rfl
@[simp] theorem State.applyReset_faulted : (s.applyReset).faulted = false := rfl
@[simp] theorem State.applyReset_faultCause : (s.applyReset).faultCause = 0 := rfl
@[simp] theorem State.applyReset_log : (s.applyReset).log = [] := rfl
@[simp] theorem State.applyReset_mem : (s.applyReset).mem = s.mem := rfl
@[simp] theorem State.applyReset_host : (s.applyReset).host = s.host := rfl
@[simp] theorem State.applyReset_arpInputs : (s.applyReset).arpInputs = s.arpInputs := rfl
@[simp] theorem State.applyReset_arpResolves : (s.applyReset).arpResolves = s.arpResolves := rfl
@[simp] theorem State.applyReset_draws : (s.applyReset).draws = s.draws := rfl
@[simp] theorem State.applyReset_handedOver : (s.applyReset).handedOver = s.handedOver := rfl

/-! ### `enqueue` -/

@[simp] theorem State.enqueue_cfg (i : Nat) (h : Handle) : (s.enqueue i h).cfg = s.cfg := rfl
@[simp] theorem State.enqueue_cmd (i : Nat) (h : Handle) : (s.enqueue i h).cmd = s.cmd := rfl
@[simp] theorem State.enqueue_ops (i : Nat) (h : Handle) : (s.enqueue i h).ops = s.ops := rfl
@[simp] theorem State.enqueue_res (i : Nat) (h : Handle) : (s.enqueue i h).res = { s.res with verdict := some 0, reason := some 0 } := rfl
@[simp] theorem State.enqueue_ctx (i : Nat) (h : Handle) : (s.enqueue i h).ctx = s.ctx := rfl
@[simp] theorem State.enqueue_faulted (i : Nat) (h : Handle) : (s.enqueue i h).faulted = s.faulted := rfl
@[simp] theorem State.enqueue_faultCause (i : Nat) (h : Handle) : (s.enqueue i h).faultCause = s.faultCause := rfl
@[simp] theorem State.enqueue_log (i : Nat) (h : Handle) : (s.enqueue i h).log = s.log ++ [.txQueue i h] := rfl
@[simp] theorem State.enqueue_mem (i : Nat) (h : Handle) : (s.enqueue i h).mem = s.mem := rfl
@[simp] theorem State.enqueue_host (i : Nat) (h : Handle) : (s.enqueue i h).host = s.host := rfl
@[simp] theorem State.enqueue_arpInputs (i : Nat) (h : Handle) : (s.enqueue i h).arpInputs = s.arpInputs := rfl
@[simp] theorem State.enqueue_arpResolves (i : Nat) (h : Handle) : (s.enqueue i h).arpResolves = s.arpResolves := rfl
@[simp] theorem State.enqueue_draws (i : Nat) (h : Handle) : (s.enqueue i h).draws = s.draws := rfl
@[simp] theorem State.enqueue_handedOver (i : Nat) (h : Handle) : (s.enqueue i h).handedOver = if h ∈ s.handedOver then s.handedOver else h :: s.handedOver := rfl

/-! ### `abandonTx` -/

@[simp] theorem State.abandonTx_cfg (c : Cause) : (s.abandonTx c s0).cfg = s.cfg := rfl
@[simp] theorem State.abandonTx_cmd (c : Cause) : (s.abandonTx c s0).cmd = s.cmd := rfl
@[simp] theorem State.abandonTx_ops (c : Cause) : (s.abandonTx c s0).ops = s.ops := rfl
@[simp] theorem State.abandonTx_res (c : Cause) : (s.abandonTx c s0).res = { s.res with
      status := (Config.freeLeftover s.draws).status
      verdict := (Config.freeLeftover s.draws).verdict
      reason := (Config.freeLeftover s.draws).reason } := rfl
@[simp] theorem State.abandonTx_ctx (c : Cause) : (s.abandonTx c s0).ctx = s.ctx := rfl
@[simp] theorem State.abandonTx_faulted (c : Cause) : (s.abandonTx c s0).faulted = true := rfl
@[simp] theorem State.abandonTx_faultCause (c : Cause) : (s.abandonTx c s0).faultCause = c.code := rfl
@[simp] theorem State.abandonTx_log (c : Cause) : (s.abandonTx c s0).log = s0.log ++ (if s.log = s0.log then [] else (Config.freeLeftover s.draws).events) := rfl
@[simp] theorem State.abandonTx_mem (c : Cause) : (s.abandonTx c s0).mem = s.mem := rfl
@[simp] theorem State.abandonTx_host (c : Cause) : (s.abandonTx c s0).host = s.host := rfl
@[simp] theorem State.abandonTx_arpInputs (c : Cause) : (s.abandonTx c s0).arpInputs = s.arpInputs := rfl
@[simp] theorem State.abandonTx_arpResolves (c : Cause) : (s.abandonTx c s0).arpResolves = s.arpResolves := rfl
@[simp] theorem State.abandonTx_draws (c : Cause) : (s.abandonTx c s0).draws = s.draws + 1 := rfl
@[simp] theorem State.abandonTx_handedOver (c : Cause) : (s.abandonTx c s0).handedOver = s.handedOver := rfl

/-! ### `vlanHook` -/

@[simp] theorem State.vlanHook_cfg (g : Iface) (i : Nat) (t : Tag) (en : Bool) : (s.vlanHook g i t en).cfg = s.cfg := by
  unfold State.vlanHook; split <;> rfl
@[simp] theorem State.vlanHook_cmd (g : Iface) (i : Nat) (t : Tag) (en : Bool) : (s.vlanHook g i t en).cmd = s.cmd := by
  unfold State.vlanHook; split <;> rfl
@[simp] theorem State.vlanHook_ops (g : Iface) (i : Nat) (t : Tag) (en : Bool) : (s.vlanHook g i t en).ops = s.ops := by
  unfold State.vlanHook; split <;> rfl
@[simp] theorem State.vlanHook_res (g : Iface) (i : Nat) (t : Tag) (en : Bool) : (s.vlanHook g i t en).res = s.res := by
  unfold State.vlanHook; split <;> rfl
@[simp] theorem State.vlanHook_ctx (g : Iface) (i : Nat) (t : Tag) (en : Bool) : (s.vlanHook g i t en).ctx = s.ctx := by
  unfold State.vlanHook; split <;> rfl
@[simp] theorem State.vlanHook_faulted (g : Iface) (i : Nat) (t : Tag) (en : Bool) : (s.vlanHook g i t en).faulted = s.faulted := by
  unfold State.vlanHook; split <;> rfl
@[simp] theorem State.vlanHook_faultCause (g : Iface) (i : Nat) (t : Tag) (en : Bool) : (s.vlanHook g i t en).faultCause = s.faultCause := by
  unfold State.vlanHook; split <;> rfl
@[simp] theorem State.vlanHook_log (g : Iface) (i : Nat) (t : Tag) (en : Bool) :
    (s.vlanHook g i t en).log = s.log ++ (if g.hasVlanHook = true then [.vlanSetup i t en] else []) := by
  unfold State.vlanHook; split <;> simp_all
@[simp] theorem State.vlanHook_mem (g : Iface) (i : Nat) (t : Tag) (en : Bool) : (s.vlanHook g i t en).mem = s.mem := by
  unfold State.vlanHook; split <;> rfl
@[simp] theorem State.vlanHook_host (g : Iface) (i : Nat) (t : Tag) (en : Bool) : (s.vlanHook g i t en).host = s.host := by
  unfold State.vlanHook; split <;> rfl
@[simp] theorem State.vlanHook_arpInputs (g : Iface) (i : Nat) (t : Tag) (en : Bool) : (s.vlanHook g i t en).arpInputs = s.arpInputs := by
  unfold State.vlanHook; split <;> rfl
@[simp] theorem State.vlanHook_arpResolves (g : Iface) (i : Nat) (t : Tag) (en : Bool) : (s.vlanHook g i t en).arpResolves = s.arpResolves := by
  unfold State.vlanHook; split <;> rfl
@[simp] theorem State.vlanHook_draws (g : Iface) (i : Nat) (t : Tag) (en : Bool) : (s.vlanHook g i t en).draws = s.draws := by
  unfold State.vlanHook; split <;> rfl
@[simp] theorem State.vlanHook_handedOver (g : Iface) (i : Nat) (t : Tag) (en : Bool) : (s.vlanHook g i t en).handedOver = s.handedOver := by
  unfold State.vlanHook; split <;> rfl

/-! ### `withFetchWord` and `resetWith` -/

@[simp] theorem State.withFetchWord_host (n w : Nat) :
    (s.withFetchWord n w).host = .writeCmd (BitVec.ofNat 32 (w % 2 ^ n)) :: s.host := rfl

/-- The launch state is what reset leaves of a launched block with nothing placed from outside. -/
theorem State.resetWith_eq_applyReset (c : Launch) : (State.resetWith c).applyReset = State.resetWith c := rfl

/-! ### Two updates in a row -/

@[simp] theorem State.setStatus_setStatus (c d : Status) : (s.setStatus c).setStatus d = s.setStatus d := rfl

@[simp] theorem State.setCtx_setCtx (c d : Context) : (s.setCtx c).setCtx d = s.setCtx d := rfl

@[simp] theorem State.mem_handOver (h x : Handle) : x ∈ (s.handOver h).handedOver ↔ x = h ∨ x ∈ s.handedOver := by
  rw [State.handOver_handedOver]; split
  · exact ⟨.inr, fun | .inl e => e ▸ ‹_› | .inr m => m⟩
  · simp

theorem State.enqueue_mem_handedOver (i : Nat) (h x : Handle) :
    x ∈ (s.enqueue i h).handedOver ↔ x = h ∨ x ∈ s.handedOver := State.mem_handOver (s := s.emit (.txQueue i h)) h x

end Sys2Proof.Machine
end

