-- ==== Sys2Proof/Laws/Ops.lean ====
section
/-! SUPPORT. What each guard, each collaborator and each way of ending a command can do, said once. -/

namespace Sys2Proof.Machine

variable {s : State}

/-! ### Guards of 30_encoding.md R88 -/

theorem State.onIface_some {i : Nat} {f : Iface} (k : Iface → State) (h : s.cfg.ifaces[i]? = some f) :
    s.onIface i k = k f := by simp [State.onIface, h]

theorem State.onIface_none {i : Nat} (k : Iface → State) (h : s.cfg.ifaces[i]? = none) :
    s.onIface i k = s.illegal := by simp [State.onIface, h]

/-- A command that names an interface: illegal, or its effect. -/
theorem State.onIface_cases (i : Nat) (s : State) (k : Iface → State) :
    (s.cfg.ifaces[i]? = none ∧ s.onIface i k = s.illegal)
      ∨ ∃ f, s.cfg.ifaces[i]? = some f ∧ s.onIface i k = k f := by
  cases h : s.cfg.ifaces[i]? with
  | none => exact .inl ⟨rfl, State.onIface_none k h⟩
  | some f => exact .inr ⟨f, rfl, State.onIface_some k h⟩

theorem State.onEth_some {i : Nat} {f : Iface} (k : Iface → State) (h : s.cfg.ifaces[i]? = some f)
    (e : f.isEth = true) : s.onEth i k = k f := by simp [State.onEth, State.onIface_some _ h, e]

theorem State.onEth_notEth {i : Nat} {f : Iface} (k : Iface → State) (h : s.cfg.ifaces[i]? = some f)
    (e : f.isEth = false) : s.onEth i k = s.illegal := by simp [State.onEth, State.onIface_some _ h, e]

/-- A command of Ethernet interfaces alone: illegal, or its effect. -/
theorem State.onEth_cases (i : Nat) (s : State) (k : Iface → State) :
    s.onEth i k = s.illegal ∨ ∃ f, s.cfg.ifaces[i]? = some f ∧ f.isEth = true ∧ s.onEth i k = k f := by
  obtain ⟨-, e⟩ | ⟨f, hf, e⟩ := State.onIface_cases i s fun f => if f.isEth then k f else s.illegal
  · exact .inl e
  · cases he : f.isEth
    · exact .inl (State.onEth_notEth k hf he)
    · exact .inr ⟨f, hf, he, State.onEth_some k hf he⟩

@[simp] theorem State.onOperand_some {α : Type} (a : α) (k : α → State) : s.onOperand (some a) k = k a := rfl

@[simp] theorem State.onOperand_none {α : Type} (k : α → State) : s.onOperand none k = s.raiseFatal .hostDuty := rfl

/-- A command that reads an operand register: a fault for want of it, or its effect. -/
theorem State.onOperand_cases {α : Type} (o : Option α) (s : State) (k : α → State) :
    (o = none ∧ s.onOperand o k = s.raiseFatal .hostDuty) ∨ ∃ a, o = some a ∧ s.onOperand o k = k a := by
  cases o with
  | none => exact .inl ⟨rfl, rfl⟩
  | some a => exact .inr ⟨a, rfl, rfl⟩

theorem State.onPacket_some {i : Nat} {f : Iface} {h : Handle} {p : Packet} (k : Iface → Handle → Packet → State)
    (hf : s.cfg.ifaces[i]? = some f) (e : f.isEth = true) (ho : s.ops.opPkt = some h) (hp : s.mem.packet? h = some p) :
    s.onPacket i k = k f h p := by simp [State.onPacket, State.onEth_some _ hf e, ho, hp]

/-- A command that names a packet: illegal, a fault for want of the operand, or its effect on the packet. -/
theorem State.onPacket_cases (i : Nat) (s : State) (k : Iface → Handle → Packet → State) :
    s.onPacket i k = s.illegal ∨ (s.ops.opPkt = none ∧ s.onPacket i k = s.raiseFatal .hostDuty)
      ∨ ∃ f h p, s.cfg.ifaces[i]? = some f ∧ f.isEth = true ∧ s.ops.opPkt = some h ∧ s.mem.packet? h = some p
        ∧ s.onPacket i k = k f h p := by
  unfold State.onPacket
  obtain e | ⟨f, hf, he, e⟩ := State.onEth_cases i s _ <;> rw [e]
  · exact .inl rfl
  · obtain ⟨ho, e⟩ | ⟨h, ho, e⟩ := State.onOperand_cases s.ops.opPkt s _ <;> rw [e]
    · exact .inr (.inl ⟨ho, rfl⟩)
    · split
      · exact .inl rfl
      · exact .inr (.inr ⟨f, h, _, hf, he, ho, ‹_›, rfl⟩)

theorem State.ifOwned_of_not_mem {h : Handle} (k : State) (hn : h ∉ s.handedOver) : s.ifOwned h k = k := by
  simp [State.ifOwned, hn]

theorem State.ifOwned_of_mem {h : Handle} (k : State) (hm : h ∈ s.handedOver) :
    s.ifOwned h k = s.raiseFatal .hostDuty := by simp [State.ifOwned, hm]

theorem State.ifOwned_cases (h : Handle) (s k : State) :
    (h ∈ s.handedOver ∧ s.ifOwned h k = s.raiseFatal .hostDuty) ∨ (h ∉ s.handedOver ∧ s.ifOwned h k = k) := by
  by_cases hm : h ∈ s.handedOver
  · exact .inl ⟨hm, State.ifOwned_of_mem k hm⟩
  · exact .inr ⟨hm, State.ifOwned_of_not_mem k hm⟩

@[simp] theorem State.onOptAddr_false (a : Option Addr6) (k : Option Addr6 → State) :
    s.onOptAddr (some false) a k = k none := rfl

@[simp] theorem State.onOptAddr_true (a : Addr6) (k : Option Addr6 → State) :
    s.onOptAddr (some true) (some a) k = k (some a) := rfl

theorem State.onOptAddr_cases (v : Option Bool) (a : Option Addr6) (s : State) (k : Option Addr6 → State) :
    s.onOptAddr v a k = s.raiseFatal .hostDuty ∨ ∃ x, s.onOptAddr v a k = k x := by
  unfold State.onOptAddr
  obtain ⟨-, e⟩ | ⟨b, -, e⟩ := State.onOperand_cases v s _ <;> rw [e]
  · exact .inl rfl
  · cases b
    · exact .inr ⟨none, rfl⟩
    · obtain ⟨-, e⟩ | ⟨x, -, e⟩ := State.onOperand_cases a s fun x => k (some x)
      · exact .inl e
      · exact .inr ⟨some x, e⟩

/-! ### Collaborators -/

/-- `ask ARP_INPUT`: some verdict, the request at the end of the log, and the store as ARP left it. -/
theorem State.askArpInput_eq (h : Handle) (s : State) :
    ∃ (r : ArpInputReply) (rest : List ArpInputReply) (d : Nat),
      s.askArpInput h = (r.verdict,
        { s with log := s.log ++ [.arpInput h], arpInputs := rest, draws := d, mem := s.mem.changes r.store })
      ∧ (s.arpInputs = r :: rest ∧ d = s.draws
        ∨ s.arpInputs = [] ∧ rest = [] ∧ r = Config.freeArpInput s.draws ∧ d = s.draws + 1) := by
  unfold State.askArpInput
  cases e : s.arpInputs with
  | nil => exact ⟨_, [], _, by simp [State.emit, e], .inr ⟨rfl, rfl, rfl, rfl⟩⟩
  | cons r rest => exact ⟨r, rest, s.draws, by simp [State.emit, e], .inl ⟨rfl, rfl⟩⟩

/-- `ask ARP_RESOLVE`: some answer, the request at the end of the log, and the store as ARP left it. -/
theorem State.askArpResolve_eq (h : Handle) (s : State) :
    ∃ (r : ArpResolveReply) (rest : List ArpResolveReply) (d : Nat),
      s.askArpResolve h = (r.packet,
        { s with log := s.log ++ [.arpResolve h], arpResolves := rest, draws := d, mem := s.mem.changes r.store })
      ∧ (s.arpResolves = r :: rest ∧ d = s.draws
        ∨ s.arpResolves = [] ∧ rest = [] ∧ r = Config.freeArpResolve s.draws ∧ d = s.draws + 1) := by
  unfold State.askArpResolve
  cases e : s.arpResolves with
  | nil => exact ⟨_, [], _, by simp [State.emit, e], .inr ⟨rfl, rfl, rfl, rfl⟩⟩
  | cons r rest => exact ⟨r, rest, s.draws, by simp [State.emit, e], .inl ⟨rfl, rfl⟩⟩

/-! ### What RX and TX can do, on the packet of their handle -/

/-- RX from its parse on: the fields it may write, and legal codes in the ones it does. -/
theorem rxFrame_frame (i : Nat) (f : Iface) (h : Handle) (p : Packet) (s : State) :
    ∃ (v : Verdict) (r : Reason) (m : Memory) (es : List Event) (ai : List ArpInputReply) (d : Nat) (ho : List Handle),
      rxFrame i f h p s =
        { s with
          res := { s.res with status := some 0, verdict := some (verdictCode v), reason := some r.code }
          mem := m, log := s.log ++ es, arpInputs := ai, draws := d, handedOver := ho } := by
  have deliver : ∀ (q : Packet) (m : Memory), ∃ (v : Verdict) (r : Reason) (m' : Memory) (es : List Event),
      rxDeliver h q { s with res := { s.res with status := some 0 }, mem := m } =
        { s with
          res := { s.res with status := some 0, verdict := some (verdictCode v), reason := some r.code }
          mem := m', log := s.log ++ es } := by
    intro q m
    unfold rxDeliver
    split
    · exact ⟨.drop, .malformed, m, [], by simp [State.drop, State.setVerdict]⟩
    · exact ⟨.cont, .none, _, _, rfl⟩
  unfold rxFrame
  simp only [State.setStatus, Status.code]
  split
  · exact ⟨.drop, .malformed, s.mem, [], s.arpInputs, s.draws, s.handedOver, by simp [State.drop, State.setVerdict]⟩
  · split
    · exact ⟨.drop, .unknownType, s.mem.put h _, [], s.arpInputs, s.draws, s.handedOver, by
        simp [State.drop, State.setVerdict, State.putPacket]; rfl⟩
    · split
      · split
        · unfold rxArp
          split
          · obtain ⟨r, rest, d, e, -⟩ := State.askArpInput_eq h
              { s with res := { s.res with status := some 0 }, mem := s.mem.put h (strip _ (recordLinkAddrs _)) }
            simp only [State.putPacket]
            rw [e]
            exact ⟨r.verdict, .none, _, [.arpInput h], rest, d, _, rfl⟩
          · split
            · exact ⟨.drop, .arpFrameNoArp, _, [], s.arpInputs, s.draws, s.handedOver, by
                simp [State.drop, State.setVerdict, State.putPacket]; rfl⟩
            · obtain ⟨v, r, m, es, e⟩ := deliver (strip _ (recordLinkAddrs _)) (s.mem.put h (strip _ (recordLinkAddrs _)))
              exact ⟨v, r, m, es, s.arpInputs, s.draws, s.handedOver, e⟩
        · obtain ⟨v, r, m, es, e⟩ := deliver (strip _ (recordLinkAddrs _)) (s.mem.put h (strip _ (recordLinkAddrs _)))
          exact ⟨v, r, m, es, s.arpInputs, s.draws, s.handedOver, e⟩
      · exact ⟨.drop, .notForUs, s.mem.put h _, [], s.arpInputs, s.draws, s.handedOver, by
          simp [State.drop, State.setVerdict, State.putPacket]; rfl⟩

/-- ARP answers another packet: the one asked about is released (44_frame_sender.md R173), and only then. -/
theorem releaseOther_eq (h h' : Handle) (s : State) :
    ∃ ho : List Handle, (∀ x, x ∈ ho ↔ x ∈ s.handedOver ∨ (x = h ∧ h' ≠ h))
      ∧ (if h' = h then s else (s.emit (.release h)).handOver h)
        = { s with log := s.log ++ (if h' = h then [] else [.release h]), handedOver := ho } := by
  by_cases e : h' = h
  · exact ⟨s.handedOver, by simp [e], by simp [e]⟩
  · refine ⟨_, fun x => ?_, by rw [if_neg e, if_neg e]; rfl⟩
    show x ∈ ((s.emit (.release h)).handOver h).handedOver ↔ _
    rw [State.mem_handOver]; simp [e, State.emit, or_comm]

/-- TX from its family test on: dropped or queued, with the fields it may write; or a fault, with the fields an abandoned
TX leaves open. -/
theorem txPacket_frame (i : Nat) (f : Iface) (h : Handle) (p : Packet) (s : State) :
    ∃ (m : Memory) (es : List Event) (ar : List ArpResolveReply) (d : Nat) (ho : List Handle),
      (∃ (v : Verdict) (r : Reason), v ≠ .cont ∧ txPacket i f h p s =
        { s with
          res := { s.res with status := some 0, verdict := some (verdictCode v), reason := some r.code }
          mem := m, log := s.log ++ es, arpResolves := ar, draws := d, handedOver := ho })
      ∨ ∃ (c : Cause) (st : Option (BitVec 4)) (v : Option (BitVec 2)) (r : Option (BitVec 4)), txPacket i f h p s =
        { s with
          res := { s.res with status := st, verdict := v, reason := r }, faulted := true, faultCause := c.code
          mem := m, log := s.log ++ es, arpResolves := ar, draws := d, handedOver := ho } := by
  have frame : ∀ q : Packet,
      ∃ (m : Memory) (es : List Event) (ar : List ArpResolveReply) (d : Nat) (ho : List Handle),
      (∃ (v : Verdict) (r : Reason), v ≠ .cont ∧ txFrame i h s q (s.setStatus .ok) =
        { s with
          res := { s.res with status := some 0, verdict := some (verdictCode v), reason := some r.code }
          mem := m, log := s.log ++ es, arpResolves := ar, draws := d, handedOver := ho })
      ∨ ∃ (c : Cause) (st : Option (BitVec 4)) (v : Option (BitVec 2)) (r : Option (BitVec 4)),
        txFrame i h s q (s.setStatus .ok) =
        { s with
          res := { s.res with status := st, verdict := v, reason := r }, faulted := true, faultCause := c.code
          mem := m, log := s.log ++ es, arpResolves := ar, draws := d, handedOver := ho } := by
    intro q
    unfold txFrame
    dsimp only
    split
    · exact ⟨_, [], s.arpResolves, s.draws, s.handedOver, .inl ⟨.drop, .noVlanForIface, by decide, by
        rw [List.append_nil]; rfl⟩⟩
    · split
      · exact ⟨_, _, s.arpResolves, _, s.handedOver, .inr ⟨.headroom, _, _, _, rfl⟩⟩
      · exact ⟨_, [.txQueue i h], s.arpResolves, s.draws, _, .inl ⟨.ok, .none, by decide, rfl⟩⟩
  unfold txPacket
  dsimp only
  split
  · exact ⟨_, _, s.arpResolves, _, s.handedOver, .inr ⟨.hostDuty, _, _, _, rfl⟩⟩
  · split
    · split
      · exact ⟨_, [], s.arpResolves, s.draws, s.handedOver, .inl ⟨.drop, .malformed, by decide, by
          rw [List.append_nil]; rfl⟩⟩
      · split
        · exact frame _
        · unfold txArp
          obtain ⟨r, rest, d, e, -⟩ := State.askArpResolve_eq h (s.setStatus .ok)
          rw [e]
          dsimp only
          split
          · exact ⟨_, [.arpResolve h], rest, d, s.handedOver, .inl ⟨.drop, .arpFailed, by decide, rfl⟩⟩
          · rename_i h' _
            obtain ⟨ho, -, e'⟩ := releaseOther_eq h h'
              { s.setStatus .ok with
                log := (s.setStatus .ok).log ++ [.arpResolve h], arpResolves := rest, draws := d
                mem := (s.setStatus .ok).mem.changes r.store }
            rw [e']
            split
            · exact ⟨_, _, _, _, _, .inr ⟨.hostDuty, _, _, _, rfl⟩⟩
            · split
              · exact ⟨_, _, _, _, _, .inr ⟨.hostDuty, _, _, _, rfl⟩⟩
              · exact ⟨_, [.arpResolve h] ++ (if h' = h then [] else [.release h]) ++ [.txQueue i h'], rest, d, _, .inl ⟨.ok, .none, by decide, by
                  simp only [← List.append_assoc]; rfl⟩⟩
    · split
      · exact ⟨_, [], s.arpResolves, s.draws, s.handedOver, .inl ⟨.drop, .malformed, by decide, by
          rw [List.append_nil]; rfl⟩⟩
      · exact frame _

end Sys2Proof.Machine
end

