-- ==== Sys2Proof/Laws/Step.lean ====
section
/-! SUPPORT. What one step can do, said once. -/

namespace Sys2Proof.Machine

/-- One step: idle; a write of `CMD` that is not accepted, illegal, or runs its command; or another host action. -/
theorem step_cases (s : State) :
    (s.host = [] ∧ step s = .next s)
    ∨ (∃ w rest, s.host = .writeCmd w :: rest ∧
        ((s.faulted = true ∧ step s = .fault .notAccepted)
        ∨ (s.faulted = false ∧ ∃ r, decode w = .error r ∧ step s = .next (s.acceptCmd w rest).illegal)
        ∨ (s.faulted = false ∧ ∃ i, decode w = .ok i ∧ step s = exec i (s.acceptCmd w rest))))
    ∨ (∃ a rest, s.host = a :: rest ∧ (∀ w, a ≠ .writeCmd w) ∧ step s = State.hostAct a { s with host := rest }) := by
  unfold step
  cases h : s.host with
  | nil => exact .inl ⟨rfl, rfl⟩
  | cons a rest =>
    right
    cases a
    case writeCmd w =>
      refine .inl ⟨w, rest, rfl, ?_⟩
      cases hf : s.faulted
      · right
        cases e : decode w with
        | error r => exact .inl ⟨rfl, r, rfl, by simp [e]⟩
        | ok i => exact .inr ⟨rfl, i, rfl, by simp [e]⟩
      · exact .inl ⟨rfl, rfl⟩
    all_goals exact .inr ⟨_, rest, rfl, by simp, rfl⟩

end Sys2Proof.Machine
end

