-- ==== Sys2Proof/Laws/Exec.lean ====
section
/-! SUPPORT. The next states each command can answer, command by command. -/

namespace Sys2Proof.Machine

theorem execVlanInit_cases (i : Nat) (s : State) :
    ∃ t, execVlanInit i s = .next t ∧
      (t = s.illegal ∨ t = s.setStatus .ok
        ∨ t = (s.setStatus .ok).setCtx (s.ctx.initBind s.cfg.initFree s.cfg.tagUnspec s.cfg.numIfaces i)
          ∧ firstBound s.ctx.slots i = none ∧ ∃ f, s.cfg.ifaces[i]? = some f ∧ f.vlanCap = true) := by
  refine ⟨_, rfl, ?_⟩
  obtain ⟨-, e⟩ | ⟨f, hf, e⟩ := State.onIface_cases i s _ <;> rw [e]
  · exact .inl rfl
  · refine .inr ?_
    dsimp only
    split
    · exact .inl rfl
    · split
      · exact .inl rfl
      · exact .inr ⟨rfl, by simp_all, f, hf, by simp_all⟩

theorem execVlanEnable_cases (i : Nat) (t : Tag) (s : State) :
    ∃ u, execVlanEnable i t s = .next u ∧
      ((∃ c, u = s.setStatus c)
        ∨ ∃ f k, u = ((s.setCtx (s.ctx.enable s.cfg.vlanCount k i t)).vlanHook f i t true).setStatus .ok
          ∧ s.cfg.ifaces[i]? = some f ∧ f.isEth = true ∧ s.ctx.init = true ∧ t ≠ s.cfg.tagUnspec
          ∧ findPair s.cfg.tagUnspec s.ctx.slots i t = none ∧ freeBound s.cfg.tagUnspec s.ctx.slots i = some k) := by
  refine ⟨_, rfl, ?_⟩
  obtain ⟨-, e⟩ | ⟨f, hf, e⟩ := State.onIface_cases i s _ <;> rw [e]
  · exact .inl ⟨_, rfl⟩
  · repeat' split
    all_goals first
      | exact .inl ⟨_, rfl⟩
      | exact .inr ⟨f, _, rfl, hf, by simp_all⟩

theorem execVlanDisable_cases (i : Nat) (t : Tag) (s : State) :
    ∃ u, execVlanDisable i t s = .next u ∧
      ((∃ c, u = s.setStatus c)
        ∨ ∃ f k, u = ((s.setCtx (s.ctx.disable s.cfg.tagUnspec k i)).vlanHook f i t false).setStatus .ok
          ∧ s.cfg.ifaces[i]? = some f ∧ f.isEth = true ∧ t ≠ s.cfg.tagUnspec
          ∧ findPair s.cfg.tagUnspec s.ctx.slots i t = some k) := by
  refine ⟨_, rfl, ?_⟩
  obtain ⟨-, e⟩ | ⟨f, hf, e⟩ := State.onIface_cases i s _ <;> rw [e]
  · exact .inl ⟨_, rfl⟩
  · repeat' split
    all_goals first
      | exact .inl ⟨_, rfl⟩
      | exact .inr ⟨f, _, rfl, hf, by simp_all⟩

theorem execL2Enable_cases (i : Nat) (en : Bool) (s : State) :
    ∃ t, execL2Enable i en s = .next t ∧
      (t = s.illegal ∨ t = s.setStatus .ok ∨ t = (s.emit (.arpClear i)).setStatus .ok) := by
  refine ⟨_, rfl, ?_⟩
  obtain e | ⟨f, -, -, e⟩ := State.onEth_cases i s _ <;> rw [e]
  · exact .inl rfl
  · split
    · exact .inr (.inr rfl)
    · exact .inr (.inl rfl)

theorem execRx_cases (i : Nat) (s : State) :
    ∃ t, execRx i s = .next t ∧
      (t = s.illegal ∨ t = s.raiseFatal .hostDuty
        ∨ ∃ f h p, t = rxFrame i f h p s ∧ s.cfg.ifaces[i]? = some f ∧ f.isEth = true ∧ s.ops.opPkt = some h
          ∧ s.mem.packet? h = some p ∧ h ∉ s.handedOver) := by
  refine ⟨_, rfl, ?_⟩
  obtain e | ⟨-, e⟩ | ⟨f, h, p, hf, he, ho, hp, e⟩ := State.onPacket_cases i s _ <;> rw [e]
  · exact .inl rfl
  · exact .inr (.inl rfl)
  · obtain ⟨-, e⟩ | ⟨hn, e⟩ := State.ifOwned_cases h s (rxFrame i f h p s) <;> rw [e]
    · exact .inr (.inl rfl)
    · exact .inr (.inr ⟨f, h, p, rfl, hf, he, ho, hp, hn⟩)

theorem execTx_cases (i : Nat) (s : State) :
    ∃ t, execTx i s = .next t ∧
      (t = s.illegal ∨ t = s.raiseFatal .hostDuty
        ∨ ∃ f h p, t = txPacket i f h p s ∧ s.cfg.ifaces[i]? = some f ∧ f.isEth = true ∧ s.ops.opPkt = some h
          ∧ s.mem.packet? h = some p ∧ h ∉ s.handedOver) := by
  refine ⟨_, rfl, ?_⟩
  obtain e | ⟨-, e⟩ | ⟨f, h, p, hf, he, ho, hp, e⟩ := State.onPacket_cases i s _ <;> rw [e]
  · exact .inl rfl
  · exact .inr (.inl rfl)
  · obtain ⟨-, e⟩ | ⟨hn, e⟩ := State.ifOwned_cases h s (txPacket i f h p s) <;> rw [e]
    · exact .inr (.inl rfl)
    · exact .inr (.inr ⟨f, h, p, rfl, hf, he, ho, hp, hn⟩)

theorem execHdrBuild_cases (i : Nat) (s : State) :
    ∃ t, execHdrBuild i s = .next t ∧
      (t = s.illegal ∨ (∃ c, t = s.raiseFatal c)
        ∨ ∃ (h : Handle) (p : Packet) (k : Byte) (f : Frag) (src dst : Option Addr6) (ty : Half),
          s.ops.opPkt = some h ∧ s.mem.packet? h = some p ∧ p.frags[k.toNat]? = some f
          ∧ hdrLen (s.vlanActive i) ≤ f.off
          ∧ t = State.setStatus .ok (s.putPacket h { p with
              frags := p.frags.set k.toNat
                (f.headerWrite s.cfg.etypeVlan (s.vlanActive i) src dst ty p.vlanTci) })) := by
  refine ⟨_, rfl, ?_⟩
  obtain e | ⟨-, e⟩ | ⟨f₀, h, p, -, -, ho, hp, e⟩ := State.onPacket_cases i s _ <;> rw [e]
  · exact .inl rfl
  · exact .inr (.inl ⟨_, rfl⟩)
  · obtain ⟨-, e⟩ | ⟨k, -, e⟩ := State.onOperand_cases s.ops.opFrag s _ <;> rw [e]
    · exact .inr (.inl ⟨_, rfl⟩)
    · split
      · exact .inl rfl
      · rename_i f hf
        obtain ⟨-, e⟩ | ⟨-, e⟩ := State.ifOwned_cases h s _ <;> rw [e]
        · exact .inr (.inl ⟨_, rfl⟩)
        · obtain e | ⟨src, e⟩ := State.onOptAddr_cases s.ops.opSrcV s.ops.opSrc s _ <;> rw [e]
          · exact .inr (.inl ⟨_, rfl⟩)
          · obtain e | ⟨dst, e⟩ := State.onOptAddr_cases s.ops.opDstV s.ops.opDst s _ <;> rw [e]
            · exact .inr (.inl ⟨_, rfl⟩)
            · obtain ⟨-, e⟩ | ⟨ty, -, e⟩ := State.onOperand_cases s.ops.opType s _ <;> rw [e]
              · exact .inr (.inl ⟨_, rfl⟩)
              · dsimp only
                split
                · exact .inr (.inl ⟨_, rfl⟩)
                · exact .inr (.inr ⟨h, p, k, f, src, dst, ty, ho, hp, hf, by omega, rfl⟩)

/-- Everything a command can do, said once: what holds of each of these next states holds of the one `exec` answers. -/
theorem exec_ind (i : Instr) (s : State) {P : State → Prop} (status : ∀ c, P (s.setStatus c))
    (fatal : ∀ c, P (s.raiseFatal c))
    (bool : i.op ∈ [Op.clsBcast, .clsMcast, .vlanIsEnabled] → ∀ b, P ((s.setBool b).setStatus .ok))
    (addr : i.op ∈ [Op.mapIpv6, .mapIpv4, .bcastAddr] → ∀ a, P ((s.setAddr a).setStatus .ok))
    (iface : i.op = .vlanLookup → ∀ r, P ((s.setIface r).setStatus .ok))
    (tag : i.op = .vlanGetTag → ∀ t, P ((s.setTag t).setStatus .ok))
    (count : i.op = .hdrReserve → ∀ n, P ((s.setCount n).setStatus .ok))
    (init : ∀ n f, i = .vlanInit n → firstBound s.ctx.slots n = none → s.cfg.ifaces[n]? = some f → f.vlanCap = true →
      P ((s.setStatus .ok).setCtx (s.ctx.initBind s.cfg.initFree s.cfg.tagUnspec s.cfg.numIfaces n)))
    (enable : ∀ n t f k, i = .vlanEnable n t → s.cfg.ifaces[n]? = some f → s.ctx.init = true → t ≠ s.cfg.tagUnspec →
      findPair s.cfg.tagUnspec s.ctx.slots n t = none → freeBound s.cfg.tagUnspec s.ctx.slots n = some k →
      P (((s.setCtx (s.ctx.enable s.cfg.vlanCount k n t)).vlanHook f n t true).setStatus .ok))
    (disable : ∀ n t f k, i = .vlanDisable n t → s.cfg.ifaces[n]? = some f → t ≠ s.cfg.tagUnspec →
      findPair s.cfg.tagUnspec s.ctx.slots n t = some k →
      P (((s.setCtx (s.ctx.disable s.cfg.tagUnspec k n)).vlanHook f n t false).setStatus .ok))
    (clear : i.op = .l2Enable → ∀ n, P ((s.emit (.arpClear n)).setStatus .ok))
    (build : ∀ (n : Nat) (h : Handle) (p : Packet) (k : Byte) (f : Frag) (src dst : Option Addr6) (ty : Half),
      i = .hdrBuild n → s.ops.opPkt = some h → s.mem.packet? h = some p → p.frags[k.toNat]? = some f →
      hdrLen (s.vlanActive n) ≤ f.off →
      P (State.setStatus .ok (s.putPacket h { p with
        frags := p.frags.set k.toNat (f.headerWrite s.cfg.etypeVlan (s.vlanActive n) src dst ty p.vlanTci) })))
    (rx : ∀ n f h p, i = .rx n → s.ops.opPkt = some h → s.mem.packet? h = some p → P (rxFrame n f h p s))
    (tx : ∀ n f h p, i = .tx n → s.ops.opPkt = some h → s.mem.packet? h = some p → P (txPacket n f h p s)) :
    ∃ t, exec i s = .next t ∧ P t := by
  cases i
  case rx n =>
    obtain ⟨t, e, h | h | ⟨f, h, p, h1, -, -, h4, h5, -⟩⟩ := execRx_cases n s
    · exact ⟨t, e, h ▸ status _⟩
    · exact ⟨t, e, h ▸ fatal _⟩
    · exact ⟨t, e, h1 ▸ rx n f h p rfl h4 h5⟩
  case tx n =>
    obtain ⟨t, e, h | h | ⟨f, h, p, h1, -, -, h4, h5, -⟩⟩ := execTx_cases n s
    · exact ⟨t, e, h ▸ status _⟩
    · exact ⟨t, e, h ▸ fatal _⟩
    · exact ⟨t, e, h1 ▸ tx n f h p rfl h4 h5⟩
  case hdrBuild n =>
    obtain ⟨t, e, h | ⟨c, h⟩ | ⟨h, p, k, f, src, dst, ty, h1, h2, h3, h4, h5⟩⟩ := execHdrBuild_cases n s
    · exact ⟨t, e, h ▸ status _⟩
    · exact ⟨t, e, h ▸ fatal _⟩
    · exact ⟨t, e, h5 ▸ build n h p k f src dst ty rfl h1 h2 h3 h4⟩
  case vlanInit n =>
    obtain ⟨t, e, h | h | ⟨h1, h2, f, h3, h4⟩⟩ := execVlanInit_cases n s
    · exact ⟨t, e, h ▸ status _⟩
    · exact ⟨t, e, h ▸ status _⟩
    · exact ⟨t, e, h1 ▸ init n f rfl h2 h3 h4⟩
  case vlanEnable n t =>
    obtain ⟨u, e, ⟨c, h⟩ | ⟨f, k, h1, h2, -, h4, h5, h6, h7⟩⟩ := execVlanEnable_cases n t s
    · exact ⟨u, e, h ▸ status _⟩
    · exact ⟨u, e, h1 ▸ enable n t f k rfl h2 h4 h5 h6 h7⟩
  case vlanDisable n t =>
    obtain ⟨u, e, ⟨c, h⟩ | ⟨f, k, h1, h2, -, h4, h5⟩⟩ := execVlanDisable_cases n t s
    · exact ⟨u, e, h ▸ status _⟩
    · exact ⟨u, e, h1 ▸ disable n t f k rfl h2 h4 h5⟩
  case l2Enable n en =>
    obtain ⟨u, e, h | h | h⟩ := execL2Enable_cases n en s
    · exact ⟨u, e, h ▸ status _⟩
    · exact ⟨u, e, h ▸ status _⟩
    · exact ⟨u, e, h ▸ clear rfl n⟩
  case bcastAddr => exact ⟨_, rfl, addr (by decide) _⟩
  case vlanLookup t => exact ⟨_, rfl, iface rfl _⟩
  case clsBcast =>
    obtain ⟨-, e⟩ | ⟨a, -, e⟩ := State.onOperand_cases s.ops.opA s fun a => (s.setBool (isBcast a)).setStatus .ok
    · exact ⟨_, congrArg Host.Outcome.next e, fatal _⟩
    · exact ⟨_, congrArg Host.Outcome.next e, bool (by simp [Instr.op]) _⟩
  case clsMcast =>
    obtain ⟨-, e⟩ | ⟨a, -, e⟩ := State.onOperand_cases s.ops.opA s fun a => (s.setBool (isMcast a)).setStatus .ok
    · exact ⟨_, congrArg Host.Outcome.next e, fatal _⟩
    · exact ⟨_, congrArg Host.Outcome.next e, bool (by simp [Instr.op]) _⟩
  case mapIpv6 =>
    obtain ⟨-, e⟩ | ⟨a, -, e⟩ :=
      State.onOperand_cases s.ops.ip6? s fun a => (s.setAddr (ipv6McastToLink a)).setStatus .ok
    · exact ⟨_, congrArg Host.Outcome.next e, fatal _⟩
    · exact ⟨_, congrArg Host.Outcome.next e, addr (by simp [Instr.op]) _⟩
  case mapIpv4 =>
    obtain ⟨-, e⟩ | ⟨a, -, e⟩ :=
      State.onOperand_cases s.ops.ip4? s fun a => (s.setAddr (ipv4McastToLink a)).setStatus .ok
    · exact ⟨_, congrArg Host.Outcome.next e, fatal _⟩
    · exact ⟨_, congrArg Host.Outcome.next e, addr (by simp [Instr.op]) _⟩
  case vlanIsEnabled n =>
    obtain ⟨-, e⟩ | ⟨f, -, e⟩ := State.onIface_cases n s fun _ => (s.setBool (s.vlanActive n)).setStatus .ok
    · exact ⟨_, congrArg Host.Outcome.next e, status _⟩
    · exact ⟨_, congrArg Host.Outcome.next e, bool (by simp [Instr.op]) _⟩
  case vlanGetTag n =>
    obtain ⟨-, e⟩ | ⟨f, -, e⟩ :=
      State.onIface_cases n s fun _ => (s.setTag (getTag s.cfg.tagUnspec s.ctx.slots n)).setStatus .ok
    · exact ⟨_, congrArg Host.Outcome.next e, status _⟩
    · exact ⟨_, congrArg Host.Outcome.next e, tag rfl _⟩
  case hdrReserve n =>
    obtain ⟨-, e⟩ | ⟨f, -, e⟩ := State.onIface_cases n s fun _ => (s.setCount (s.headerReserve n)).setStatus .ok
    · exact ⟨_, congrArg Host.Outcome.next e, status _⟩
    · exact ⟨_, congrArg Host.Outcome.next e, count rfl _⟩

end Sys2Proof.Machine
end

