-- ==== Sys2Proof/Laws/Packet.lean ====
section
/-! SUPPORT. Packets: byte fields read back, the header HeaderWrite puts, tag fields, strip and trim. -/

namespace Sys2Proof.Machine

/-! ### Byte fields -/

theorem getD_writeBytes_of_not_mem (b : List Byte) (j k : Nat) (v : List Byte) (h : k < j ∨ j + v.length ≤ k) :
    (writeBytes b j v).getD k 0 = b.getD k 0 := by
  rw [List.getD_eq_getElem?_getD, List.getD_eq_getElem?_getD, writeBytes_getElem?_of_not_mem _ _ _ _ h]

theorem getD_writeBytes_of_mem (b : List Byte) (j k : Nat) (v : List Byte) (h : k < v.length)
    (hb : j + v.length ≤ b.length) : (writeBytes b j v).getD (j + k) 0 = v.getD k 0 := by
  rw [List.getD_eq_getElem?_getD, List.getD_eq_getElem?_getD, writeBytes_getElem?_of_mem _ _ _ _ h hb]

theorem be16Bytes_append (v : Half) : v.extractLsb' 8 8 ++ v.extractLsb' 0 8 = v := by
  refine BitVec.eq_of_getLsbD_eq fun k hk => ?_
  rw [BitVec.getLsbD_append]
  split
  · rw [BitVec.getLsbD_extractLsb', Nat.zero_add]; simp [*]
  · rw [BitVec.getLsbD_extractLsb', Nat.add_sub_cancel' (by omega)]; simp [show k - 8 < 8 by omega]

/-- `be16` reads what `put_be16` wrote (00_scope.md R11). -/
theorem be16_writeBytes (b : List Byte) (j : Nat) (v : Half) (h : j + 2 ≤ b.length) :
    be16 (writeBytes b j (be16Bytes v)) j = v := by
  have h0 := getD_writeBytes_of_mem b j 0 (be16Bytes v) (by simp [be16Bytes]) (by simpa [be16Bytes] using h)
  have h1 := getD_writeBytes_of_mem b j 1 (be16Bytes v) (by simp [be16Bytes]) (by simpa [be16Bytes] using h)
  rw [Nat.add_zero] at h0
  rw [be16, h0, h1]
  exact be16Bytes_append v

theorem be16_writeBytes_of_disjoint (b : List Byte) (j k : Nat) (v : List Byte) (h : k + 2 ≤ j ∨ j + v.length ≤ k) :
    be16 (writeBytes b j v) k = be16 b k := by
  rw [be16, getD_writeBytes_of_not_mem _ _ _ _ (by omega), getD_writeBytes_of_not_mem _ _ _ _ (by omega)]; rfl

theorem addr6At_writeBytes (b : List Byte) (j : Nat) (a : Addr6) (h : j + 6 ≤ b.length) :
    addr6At (writeBytes b j a.toList) j = a := by
  have key : ∀ k, k < 6 → (writeBytes b j a.toList).getD (j + k) 0 = a.toList.getD k 0 := fun k hk =>
    getD_writeBytes_of_mem b j k a.toList (by simpa using hk) (by simpa using h)
  have h0 := key 0 (by omega)
  rw [Nat.add_zero] at h0
  rw [addr6At, h0, key 1 (by omega), key 2 (by omega), key 3 (by omega), key 4 (by omega), key 5 (by omega)]
  refine Vector.ext fun k hk => ?_
  match k, hk with
  | 0, _ => simp [List.getD]
  | 1, _ => simp [List.getD]
  | 2, _ => simp [List.getD]
  | 3, _ => simp [List.getD]
  | 4, _ => simp [List.getD]
  | 5, _ => simp [List.getD]

theorem addr6At_writeBytes_of_disjoint (b : List Byte) (j k : Nat) (v : List Byte)
    (h : k + 6 ≤ j ∨ j + v.length ≤ k) : addr6At (writeBytes b j v) k = addr6At b k := by
  unfold addr6At
  rw [getD_writeBytes_of_not_mem _ _ _ _ (by omega), getD_writeBytes_of_not_mem _ _ _ _ (by omega),
    getD_writeBytes_of_not_mem _ _ _ _ (by omega), getD_writeBytes_of_not_mem _ _ _ _ (by omega),
    getD_writeBytes_of_not_mem _ _ _ _ (by omega), getD_writeBytes_of_not_mem _ _ _ _ (by omega)]

/-! ### HeaderWrite -/

/-- The bytes under an optional address. -/
theorem writeAddr_buf (f : Frag) (j : Nat) (a : Option Addr6) :
    (f.writeAddr j a).off = f.off ∧ (f.writeAddr j a).len = f.len ∧ (f.writeAddr j a).buf.length = f.buf.length
      ∧ (∀ k, k < j ∨ j + 6 ≤ k → (f.writeAddr j a).buf[k]? = f.buf[k]?)
      ∧ (∀ k, k + 6 ≤ j ∨ j + 6 ≤ k → addr6At (f.writeAddr j a).buf k = addr6At f.buf k)
      ∧ (a = none → f.writeAddr j a = f)
      ∧ (j + 6 ≤ f.buf.length → ∀ x ∈ a, addr6At (f.writeAddr j a).buf j = x) := by
  cases a with
  | none => simp [Frag.writeAddr]
  | some x =>
    refine ⟨rfl, rfl, by simp [Frag.writeAddr, Frag.memWrite], fun k hk => ?_, fun k hk => ?_, by simp, fun hl y hy => ?_⟩
    · exact writeBytes_getElem?_of_not_mem _ _ _ _ (by simpa using hk)
    · exact addr6At_writeBytes_of_disjoint _ _ _ _ (by simpa using hk)
    · cases hy; exact addr6At_writeBytes _ _ _ hl

/-- The part of the header after the two addresses, at `j`. -/
theorem headerTail_buf (b : List Byte) (j : Nat) (vl : Bool) (tpid ptype tci : Half)
    (hb : j + (if vl then 6 else 2) ≤ b.length) :
    let b' := if vl then writeBytes (writeBytes (writeBytes b j (be16Bytes tpid)) (j + 2) (be16Bytes tci)) (j + 4) (be16Bytes ptype)
      else writeBytes b j (be16Bytes ptype)
    b'.length = b.length
      ∧ (∀ k, k < j ∨ j + (if vl then 6 else 2) ≤ k → b'[k]? = b[k]?)
      ∧ (∀ k, k + 6 ≤ j → addr6At b' k = addr6At b k)
      ∧ (if vl then be16 b' j = tpid ∧ be16 b' (j + 2) = tci ∧ be16 b' (j + 4) = ptype else be16 b' j = ptype) := by
  have len : ∀ v : Half, (be16Bytes v).length = 2 := fun _ => rfl
  cases vl
  · simp only [Bool.false_eq_true, if_false] at hb ⊢
    exact ⟨writeBytes_length _ _ _, fun k hk => writeBytes_getElem?_of_not_mem _ _ _ _ (by rw [len]; omega),
      fun k hk => addr6At_writeBytes_of_disjoint _ _ _ _ (.inl hk), be16_writeBytes _ _ _ hb⟩
  · simp only [if_true] at hb ⊢
    refine ⟨by simp, fun k hk => ?_, fun k hk => ?_, ?_, ?_, ?_⟩
    · rw [writeBytes_getElem?_of_not_mem _ _ _ _ (by rw [len]; omega),
        writeBytes_getElem?_of_not_mem _ _ _ _ (by rw [len]; omega),
        writeBytes_getElem?_of_not_mem _ _ _ _ (by rw [len]; omega)]
    · rw [addr6At_writeBytes_of_disjoint _ _ _ _ (by omega), addr6At_writeBytes_of_disjoint _ _ _ _ (by omega),
        addr6At_writeBytes_of_disjoint _ _ _ _ (by omega)]
    · rw [be16_writeBytes_of_disjoint _ _ _ _ (by omega), be16_writeBytes_of_disjoint _ _ _ _ (by omega),
        be16_writeBytes _ _ _ (by omega)]
    · rw [be16_writeBytes_of_disjoint _ _ _ _ (by omega), be16_writeBytes _ _ _ (by simp; omega)]
    · exact be16_writeBytes _ _ _ (by simp; omega)

theorem headerWrite_buf (f : Frag) (tpid : Half) (vl : Bool) (src dst : Option Addr6) (ptype tci : Half) :
    let b := ((f.writeAddr (f.off - hdrLen vl) dst).writeAddr (f.off - hdrLen vl + 6) src).buf
    let j := f.off - hdrLen vl + 12
    (f.headerWrite tpid vl src dst ptype tci).buf =
      if vl then writeBytes (writeBytes (writeBytes b j (be16Bytes tpid)) (j + 2) (be16Bytes tci)) (j + 4) (be16Bytes ptype)
      else writeBytes b j (be16Bytes ptype) := by
  cases vl <;> rfl

/-- Everything HeaderWrite does (45_header_builder.md R190). -/
theorem headerWrite_spec {f : Frag} {vl : Bool} (tpid : Half) (src dst : Option Addr6) (ptype tci : Half)
    (hw : f.wf = true) (hh : hdrLen vl ≤ f.off) :
    headerOver tpid vl src dst ptype tci f (f.headerWrite tpid vl src dst ptype tci) := by
  have hl : f.off ≤ f.buf.length := by have : f.off + f.len ≤ f.buf.length := of_decide_eq_true hw; omega
  obtain ⟨o1, l1, n1, k1, d1, e1, a1⟩ := writeAddr_buf f (f.off - hdrLen vl) dst
  obtain ⟨o2, l2, n2, k2, d2, e2, a2⟩ := writeAddr_buf (f.writeAddr (f.off - hdrLen vl) dst) (f.off - hdrLen vl + 6) src
  have hH : hdrLen vl = 12 + (if vl then 6 else 2) := by cases vl <;> rfl
  obtain ⟨n3, k3, d3, t3⟩ := headerTail_buf
    ((f.writeAddr (f.off - hdrLen vl) dst).writeAddr (f.off - hdrLen vl + 6) src).buf (f.off - hdrLen vl + 12) vl tpid ptype tci
    (by omega)
  have hbuf := headerWrite_buf f tpid vl src dst ptype tci
  dsimp only at hbuf
  have hoff : (f.headerWrite tpid vl src dst ptype tci).off = f.off := by
    unfold Frag.headerWrite; split <;> exact o2.trans o1
  have hlen : (f.headerWrite tpid vl src dst ptype tci).len = f.len := by
    unfold Frag.headerWrite; split <;> exact l2.trans l1
  have hH' : hdrLen vl = if vl = true then 18 else 14 := rfl
  unfold headerOver
  rw [hoff, hlen, hbuf, ← hH']
  refine ⟨rfl, rfl, n3.trans (n2.trans n1), fun a ha => ?_, fun hd j hj => ?_, fun a ha => ?_, fun hs j hj => ?_, t3, fun j hj => ?_⟩
  · rw [d3 _ (by omega), d2 _ (by omega)]; exact a1 (by omega) a ha
  · rw [k3 _ (by omega), k2 _ (by omega), e1 hd]
  · rw [d3 _ (by omega)]; exact a2 (by omega) a ha
  · rw [k3 _ (by omega), e2 hs, k1 _ (by omega)]
  · rw [k3 _ (by omega), k2 _ (by omega), k1 _ (by omega)]

/-- HeaderWrite leaves the fragment's bounds, whatever its arguments. -/
theorem headerWrite_bounds (f : Frag) (tpid : Half) (vl : Bool) (src dst : Option Addr6) (ptype tci : Half) :
    (f.headerWrite tpid vl src dst ptype tci).off = f.off ∧ (f.headerWrite tpid vl src dst ptype tci).len = f.len
      ∧ (f.headerWrite tpid vl src dst ptype tci).buf.length = f.buf.length := by
  obtain ⟨o1, l1, n1, -⟩ := writeAddr_buf f (f.off - hdrLen vl) dst
  obtain ⟨o2, l2, n2, -⟩ := writeAddr_buf (f.writeAddr (f.off - hdrLen vl) dst) (f.off - hdrLen vl + 6) src
  unfold Frag.headerWrite Frag.memWrite
  split <;> simp [o1, o2, l1, l2, n1, n2]

@[simp] theorem headerWrite_wf (f : Frag) (tpid : Half) (vl : Bool) (src dst : Option Addr6) (ptype tci : Half) :
    (f.headerWrite tpid vl src dst ptype tci).wf = f.wf := by
  obtain ⟨h1, h2, h3⟩ := headerWrite_bounds f tpid vl src dst ptype tci
  rw [Frag.wf, Frag.wf, h1, h2, h3]

/-- HeaderWrite never writes outside `buf[off−H..off)`, whatever the headroom. -/
theorem headerWrite_outside (f : Frag) (tpid : Half) (vl : Bool) (src dst : Option Addr6) (ptype tci : Half)
    (hh : hdrLen vl ≤ f.off) {j : Nat} (hj : j < f.off - hdrLen vl ∨ f.off ≤ j) :
    (f.headerWrite tpid vl src dst ptype tci).buf[j]? = f.buf[j]? := by
  have hH : hdrLen vl = if vl = true then 18 else 14 := rfl
  obtain ⟨-, -, -, k1, -⟩ := writeAddr_buf f (f.off - hdrLen vl) dst
  obtain ⟨-, -, -, k2, -⟩ := writeAddr_buf (f.writeAddr (f.off - hdrLen vl) dst) (f.off - hdrLen vl + 6) src
  have len : ∀ v : Half, (be16Bytes v).length = 2 := fun _ => rfl
  unfold Frag.headerWrite Frag.memWrite
  cases vl
  · simp only [Bool.false_eq_true, if_false] at hH ⊢
    rw [writeBytes_getElem?_of_not_mem _ _ _ _ (by rw [len]; omega), k2 _ (by omega), k1 _ (by omega)]
  · simp only [if_true] at hH ⊢
    rw [writeBytes_getElem?_of_not_mem _ _ _ _ (by rw [len]; omega),
      writeBytes_getElem?_of_not_mem _ _ _ _ (by rw [len]; omega),
      writeBytes_getElem?_of_not_mem _ _ _ _ (by rw [len]; omega), k2 _ (by omega), k1 _ (by omega)]

/-! ### Tag fields -/

@[simp] theorem tciVid_setVid (t : Half) (v : Tag) : tciVid (tciSetVid t v) = v := by
  refine BitVec.eq_of_getLsbD_eq fun k hk => ?_
  simp only [tciVid, tciSetVid, BitVec.getLsbD_extractLsb', BitVec.getLsbD_append]
  simp [hk]

@[simp] theorem tciVid_setPcp (t : Half) (p : BitVec 3) : tciVid (tciSetPcp t p) = tciVid t := by
  refine BitVec.eq_of_getLsbD_eq fun k hk => ?_
  simp only [tciVid, tciSetPcp, BitVec.getLsbD_extractLsb', BitVec.getLsbD_append]
  simp [hk, show k < 13 by omega]

@[simp] theorem tciPcp_setPcp (t : Half) (p : BitVec 3) : tciPcp (tciSetPcp t p) = p := by
  refine BitVec.eq_of_getLsbD_eq fun k hk => ?_
  simp only [tciPcp, tciSetPcp, BitVec.getLsbD_extractLsb', BitVec.getLsbD_append]
  simp [hk]

@[simp] theorem tciDei_setVid (t : Half) (v : Tag) : tciDei (tciSetVid t v) = tciDei t := by
  simp only [tciDei, tciSetVid, BitVec.getLsbD_extractLsb', BitVec.getLsbD_append]
  simp

@[simp] theorem tciDei_setPcp (t : Half) (p : BitVec 3) : tciDei (tciSetPcp t p) = tciDei t := by
  simp only [tciDei, tciSetPcp, BitVec.getLsbD_extractLsb', BitVec.getLsbD_append]
  simp

/-- The three fields are the whole of a TCI (10_state.md R37). -/
theorem tci_ext {a b : Half} (h1 : tciVid a = tciVid b) (h2 : tciDei a = tciDei b) (h3 : tciPcp a = tciPcp b) : a = b := by
  refine BitVec.eq_of_getLsbD_eq fun k hk => ?_
  by_cases l : k < 12
  · have := congrArg (·.getLsbD k) h1
    simpa [tciVid, l, -BitVec.getLsbD_eq_getElem] using this
  · by_cases e : k = 12
    · subst e; exact h2
    · have := congrArg (·.getLsbD (k - 13)) h3
      simp only [tciPcp, BitVec.getLsbD_extractLsb', show 13 + (k - 13) = k by omega, show k - 13 < 3 by omega,
        decide_true, Bool.true_and] at this
      exact this

/-! ### Trim, strip and parse -/

/-- Everything the loop of Trim does (43_frame_receiver.md R159): a prefix of the fragments is kept, the last one
shortened, and the indices of the rest are released in order. -/
theorem trimFrags_spec (l k acc : Nat) (fs : List Frag) (h : acc ≤ l) :
    (trimFrags l k acc fs).1.length ≤ fs.length
      ∧ (trimFrags l k acc fs).2
          = List.range' (k + (trimFrags l k acc fs).1.length) (fs.length - (trimFrags l k acc fs).1.length)
      ∧ ((trimFrags l k acc fs).1.map Frag.len).sum = min (fs.map Frag.len).sum (l - acc)
      ∧ (∀ m < (trimFrags l k acc fs).1.length, 0 < k + m → acc + ((fs.take m).map Frag.len).sum < l)
      ∧ (∀ (j : Nat) (a : Frag), (trimFrags l k acc fs).1[j]? = some a → ∃ b : Frag, fs[j]? = some b
          ∧ a.buf = b.buf ∧ a.off = b.off ∧ a.len ≤ b.len
          ∧ (j + 1 < (trimFrags l k acc fs).1.length → a.len = b.len))
      ∧ ((∀ f ∈ fs, f.wf = true) → (trimFrags l k acc fs).1.flatMap Frag.data = (fs.flatMap Frag.data).take (l - acc)) := by
  induction fs generalizing k acc with
  | nil => simp [trimFrags]
  | cons f fs ih =>
    unfold trimFrags
    split
    · rename_i hk
      dsimp only
      generalize hf : (if acc + f.len > l then { f with len := l - acc } else f) = f'
      have hb : f'.buf = f.buf ∧ f'.off = f.off ∧ f'.len = min f.len (l - acc) := by
        subst hf; split <;> simp <;> omega
      obtain ⟨hb1, hb2, hb3⟩ := hb
      obtain ⟨i1, i2, i3, i4, i5, i6⟩ := ih (k + 1) (acc + f'.len) (by omega)
      refine ⟨by simpa using i1, ?_, ?_, ?_, ?_, ?_⟩
      · rw [i2]; simp only [List.length_cons]; congr 1 <;> omega
      · simp only [List.map_cons, List.sum_cons, i3]; omega
      · intro m hm hkm
        cases m with
        | zero => simp; rcases hk with hk | hk <;> omega
        | succ m =>
          have := i4 m (by simpa using hm) (by omega)
          simp only [List.take_succ_cons, List.map_cons, List.sum_cons]
          have h0 := i4 0 (by simp at hm; omega) (by omega)
          simp at h0
          omega
      · intro j a ha
        cases j with
        | zero =>
          simp only [List.getElem?_cons_zero, Option.some.injEq] at ha ⊢
          subst ha
          refine ⟨f, rfl, hb1, hb2, by omega, fun hl => ?_⟩
          have h0 := i4 0 (by simpa using hl) (by omega)
          simp at h0
          omega
        | succ j =>
          simp only [List.getElem?_cons_succ] at ha ⊢
          obtain ⟨b, hb, p1, p2, p3, p4⟩ := i5 j a ha
          exact ⟨b, hb, p1, p2, p3, fun hl => p4 (by simpa using hl)⟩
      · intro hw
        have hd : ∀ g : Frag, g.wf = true → g.data.length = g.len := by
          intro g hg
          have : g.off + g.len ≤ g.buf.length := of_decide_eq_true hg
          simp [Frag.data]; omega
        have hfd : f'.data = f.data.take (l - acc) := by
          simp [Frag.data, hb1, hb2, hb3, List.take_take, Nat.min_comm]
        have hfl := hd f (hw f (by simp))
        rw [List.flatMap_cons, List.flatMap_cons, List.take_append, i6 (fun g hg => hw g (by simp [hg])), hfd, hfl]
        congr 2; omega
    · rename_i hk
      obtain ⟨i1, i2, i3, i4, i5, i6⟩ := ih (k + 1) acc h
      have hl : acc = l := by omega
      have h0 : (trimFrags l (k + 1) acc fs).1.length = 0 := by
        by_contra hne
        have := i4 0 (by omega) (by omega)
        simp at this; omega
      have hnil := List.eq_nil_of_length_eq_zero h0
      dsimp only
      rw [i2, h0, hnil]
      subst hl
      simp [List.range'_succ]

/-- The data of fragments that are fragment records is as long as their lengths say (10_state.md R40). -/
theorem Packet.length_data {p : Packet} (h : p.wf = true) : p.data.length = p.len := by
  unfold Packet.data Packet.len
  rw [List.length_flatMap]
  congr 1
  apply List.map_congr_left
  intro a ha
  rw [Packet.wf, List.all_eq_true] at h
  have : a.off + a.len ≤ a.buf.length := of_decide_eq_true (h a ha)
  simp [Frag.data]; omega

/-- Everything Trim does to a packet that has a fragment (43_frame_receiver.md R159). -/
theorem trim_spec (l : Nat) {p : Packet} (hp : p.frags ≠ []) :
    trimmedTo l p (trim l p).1
      ∧ (trim l p).2 = List.range' (trim l p).1.frags.length (p.frags.length - (trim l p).1.frags.length) := by
  obtain ⟨-, t2, t3, t4, t5, t6⟩ := trimFrags_spec l 0 0 p.frags (Nat.zero_le _)
  unfold trim
  by_cases hc : l < p.len
  · rw [if_pos hc]
    refine ⟨⟨rfl, ?_, ?_, ?_, ?_, t5, ?_⟩, by simpa using t2⟩
    · obtain ⟨f, fs, e⟩ := List.exists_cons_of_ne_nil hp
      dsimp only
      rw [e, trimFrags, if_pos (.inl rfl)]; simp
    · rw [Packet.len, t3]; simp [Packet.len]
    · intro h; omega
    · intro _ m h0 hm; simpa using t4 m hm (by omega)
    · intro hw; simpa [Packet.data] using t6 (by simpa [Packet.wf] using hw)
  · rw [if_neg hc]
    refine ⟨⟨rfl, List.length_pos_iff.2 hp, ?_, fun _ => rfl, fun h => absurd h hc,
      fun k a hk => ⟨a, hk, rfl, rfl, Nat.le_refl _, fun _ => rfl⟩, fun hw => ?_⟩, by simp⟩
    · dsimp only; omega
    · rw [List.take_of_length_le (by rw [Packet.length_data hw]; omega)]

/-- What Trim does to a packet. -/
theorem trim_wf {l : Nat} {p : Packet} (h : p.wf = true) : (trim l p).1.wf = true := by
  unfold trim
  split
  · rw [Packet.wf, List.all_eq_true] at *
    intro a ha
    obtain ⟨j, hj⟩ := List.mem_iff_getElem?.1 ha
    obtain ⟨-, -, -, -, h5, -⟩ := trimFrags_spec l 0 0 p.frags (Nat.zero_le _)
    obtain ⟨b, hb, p1, p2, p3, -⟩ := h5 j a hj
    have hw : b.off + b.len ≤ b.buf.length := of_decide_eq_true (h b (List.mem_of_getElem? hb))
    exact decide_eq_true (by rw [p1, p2]; omega)
  · exact h

theorem strip_wf {n : Nat} {p : Packet} {g : Frag} (hg : p.frags.head? = some g) (hn : n ≤ g.len) (h : p.wf = true) :
    (strip n p).wf = true := by
  obtain ⟨fs, hfs⟩ : ∃ fs, p.frags = g :: fs := List.head?_eq_some_iff.1 hg
  rw [Packet.wf, List.all_eq_true] at *
  unfold strip
  rw [hfs]
  rw [hfs] at h
  intro a ha
  rcases List.mem_cons.1 ha with rfl | ha
  · have hw : g.off + g.len ≤ g.buf.length := of_decide_eq_true (h g (by simp))
    exact decide_eq_true (by dsimp only; omega)
  · exact h a (by simp [ha])

/-- ParseHeader: the header it finds lies inside the first fragment, and it writes no more than the TCI. -/
theorem parseHeader_eq_some {c : Launch} {active : Bool} {p q : Packet} {ty : Half} {n : Nat}
    (h : parseHeader c active p = some (ty, n, q)) :
    ∃ g : Frag, p.frags.head? = some g ∧ n ≤ g.len ∧ (n = 14 ∨ n = 18) ∧ ∃ tci : Half, q = { p with vlanTci := tci } := by
  unfold parseHeader at h
  split at h
  · cases h
  · rename_i f fs hf
    refine ⟨f, by rw [hf]; rfl, ?_⟩
    repeat' split at h
    all_goals cases h
    · exact ⟨by omega, .inr rfl, _, rfl⟩
    · exact ⟨by omega, .inl rfl, _, rfl⟩

end Sys2Proof.Machine
end

