-- ==== Sys2Proof/Laws/Vlan.lean ====
section
/-! SUPPORT. The VLAN table: its searches as first slots, and its three writers keep the context sound. -/

namespace Sys2Proof.Machine

/-! ### Searches -/

theorem findIdx?_eq_some_iff (ss : List Slot) (P : Slot → Bool) (k : Nat) :
    ss.findIdx? P = some k ↔ isFirstSlot ss (fun x => P x = true) k := by
  rw [List.findIdx?_eq_some_iff_getElem]
  constructor
  · rintro ⟨h, hp, hn⟩
    refine ⟨⟨ss[k], List.getElem?_eq_getElem h, hp⟩, fun j hj sl hsl => ?_⟩
    obtain ⟨hj', rfl⟩ := List.getElem?_eq_some_iff.1 hsl
    exact hn j hj
  · rintro ⟨⟨sl, hsl, hp⟩, hn⟩
    obtain ⟨h, rfl⟩ := List.getElem?_eq_some_iff.1 hsl
    exact ⟨h, hp, fun j hj => hn j hj _ (List.getElem?_eq_getElem (by omega))⟩

theorem find?_eq_some_iff (ss : List Slot) (P : Slot → Bool) (x : Slot) :
    ss.find? P = some x ↔ ∃ k, isFirstSlot ss (fun x => P x = true) k ∧ ss[k]? = some x := by
  rw [List.find?_eq_some_iff_getElem]
  constructor
  · rintro ⟨hp, k, h, rfl, hn⟩
    refine ⟨k, ⟨⟨ss[k], List.getElem?_eq_getElem h, hp⟩, fun j hj sl hsl => ?_⟩, List.getElem?_eq_getElem h⟩
    obtain ⟨hj', rfl⟩ := List.getElem?_eq_some_iff.1 hsl
    simpa using hn j hj
  · rintro ⟨k, ⟨⟨sl, hsl, hp⟩, hn⟩, hx⟩
    obtain ⟨h, rfl⟩ := List.getElem?_eq_some_iff.1 hx
    rw [List.getElem?_eq_getElem h, Option.some.injEq] at hsl
    subst hsl
    exact ⟨hp, k, h, rfl, fun j hj => by simpa using hn j hj _ (List.getElem?_eq_getElem (by omega))⟩

/-- At most one slot is the first. -/
theorem isFirstSlot_unique {ss : List Slot} {P : Slot → Prop} {j k : Nat} (hj : isFirstSlot ss P j)
    (hk : isFirstSlot ss P k) : j = k := by
  obtain ⟨⟨a, ha, pa⟩, na⟩ := hj
  obtain ⟨⟨b, hb, pb⟩, nb⟩ := hk
  rcases Nat.lt_trichotomy j k with h | h | h
  · exact absurd pa (nb j h a ha)
  · exact h
  · exact absurd pb (na k h b hb)

theorem firstBound_eq_none (ss : List Slot) (i : Nat) : firstBound ss i = none ↔ ∀ sl ∈ ss, sl.bound ≠ some i := by
  simp [firstBound]

theorem firstBound_eq_some (ss : List Slot) (i k : Nat) :
    firstBound ss i = some k ↔ isFirstSlot ss (fun x => x.bound = some i) k := by
  simp [firstBound, findIdx?_eq_some_iff]

theorem findPair_eq_none {u t : Tag} (ht : t ≠ u) (ss : List Slot) (i : Nat) :
    findPair u ss i t = none ↔ ∀ sl ∈ ss, ¬ (sl.bound = some i ∧ sl.tag = t) := by
  simp [findPair, ht]

theorem findPair_eq_some {u t : Tag} (ht : t ≠ u) (ss : List Slot) (i k : Nat) :
    findPair u ss i t = some k ↔ isFirstSlot ss (fun x => x.bound = some i ∧ x.tag = t) k := by
  simp [findPair, findIdx?_eq_some_iff, ht]

theorem freeBound_eq_none (u : Tag) (ss : List Slot) (i : Nat) :
    freeBound u ss i = none ↔ ∀ sl ∈ ss, ¬ (sl.bound = some i ∧ sl.tag = u) := by
  simp [freeBound]

theorem freeBound_eq_some (u : Tag) (ss : List Slot) (i k : Nat) :
    freeBound u ss i = some k ↔ isFirstSlot ss (fun x => x.bound = some i ∧ x.tag = u) k := by
  simp [freeBound, findIdx?_eq_some_iff]

/-- Free for VLAN_INIT: untagged, and unbound where `INIT_FREE_SLOT = unbound`. -/
theorem initFree_eq_none (m : InitFreeSlot) (u : Tag) (ss : List Slot) :
    initFree m u ss = none ↔ ∀ sl ∈ ss, ¬ (sl.tag = u ∧ (m = .unbound → sl.bound = none)) := by
  cases m <;> simp [initFree, Option.isSome_iff_ne_none]

theorem initFree_eq_some (m : InitFreeSlot) (u : Tag) (ss : List Slot) (k : Nat) :
    initFree m u ss = some k ↔ isFirstSlot ss (fun x => x.tag = u ∧ (m = .unbound → x.bound = none)) k := by
  cases m <;> simp [initFree, findIdx?_eq_some_iff]

/-! ### Writes of one slot -/

theorem setSlotTag_eq {ss : List Slot} {k : Nat} {sl : Slot} (h : ss[k]? = some sl) (t : Tag) :
    setSlotTag ss k t = ss.set k { sl with tag := t } := by
  rw [setSlotTag, List.modify_eq_set_getElem?, h]; rfl

theorem setSlotBound_eq {ss : List Slot} {k : Nat} {sl : Slot} (h : ss[k]? = some sl) (i : Nat) :
    setSlotBound ss k i = ss.set k { sl with bound := some i } := by
  rw [setSlotBound, List.modify_eq_set_getElem?, h]; rfl

/-! ### Soundness -/

theorem boundOnce_iff (x : Context) :
    x.boundOnce ↔ ∀ (j k i : Nat) (a b : Slot), x.slots[j]? = some a → x.slots[k]? = some b → a.bound = some i →
      b.bound = some i → j = k := by
  rw [Context.boundOnce, List.pairwise_iff_getElem]
  constructor
  · intro h j k i a b ha hb hi hi'
    obtain ⟨hj, rfl⟩ := List.getElem?_eq_some_iff.1 ha
    obtain ⟨hk, rfl⟩ := List.getElem?_eq_some_iff.1 hb
    rcases Nat.lt_trichotomy j k with l | l | l
    · rcases h j k hj hk l with e | e <;> simp_all
    · exact l
    · rcases h k j hk hj l with e | e <;> simp_all
  · intro h j k hj hk l
    cases e : x.slots[j].bound with
    | none => exact .inl rfl
    | some i =>
      refine .inr fun e' => ?_
      have := h j k i _ _ (List.getElem?_eq_getElem hj) (List.getElem?_eq_getElem hk) e e'.symm
      omega

@[simp] theorem Context.bit_set (ss : List Slot) (n : Nat) (bs : List Bool) (v : Bool) {i : Nat} (hi : i < bs.length)
    (j : Nat) (b : Bool) :
    (⟨ss, n, bs.set i b, v⟩ : Context).bit j = if j = i then b else bs.getD j false := by
  unfold Context.bit
  by_cases h : j = i
  · subst h; simp [hi]
  · simp [Ne.symm h, h]

/-- Replacing one slot changes the number of tagged ones by what that slot was and becomes. -/
theorem taggedSlots_set {u : Tag} {ss : List Slot} {k : Nat} {a : Slot} (h : ss[k]? = some a) (b : Slot) :
    taggedSlots u (ss.set k b) + (if a.tag = u then 0 else 1) = taggedSlots u ss + (if b.tag = u then 0 else 1) := by
  obtain ⟨hk, rfl⟩ := List.getElem?_eq_some_iff.1 h
  have pos : ss[k].tag ≠ u → 0 < taggedSlots u ss := fun ne =>
    List.countP_pos_iff.2 ⟨_, List.getElem_mem hk, by simpa using ne⟩
  unfold taggedSlots at *
  rw [List.countP_set hk]
  by_cases h1 : ss[k].tag = u <;> by_cases h2 : b.tag = u <;> simp [h1, h2]
  · have := pos h1; omega
  · have := pos h1; omega

/-- A bit set that was clear adds one to the count of set bits. -/
theorem count_set_true {bs : List Bool} {i : Nat} (hi : i < bs.length) (h : bs.getD i false = false) :
    (bs.set i true).count true = bs.count true + 1 := by
  have : bs[i] = false := by simpa [List.getD, List.getElem?_eq_getElem hi] using h
  rw [List.count_set hi]; simp [this]

/-- A bit cleared that was set takes one from the count of set bits. -/
theorem count_set_false {bs : List Bool} {i : Nat} (hi : i < bs.length) (h : bs.getD i false = true) :
    (bs.set i false).count true = bs.count true - 1 := by
  have : bs[i] = true := by simpa [List.getD, List.getElem?_eq_getElem hi] using h
  rw [List.count_set hi]; simp [this]

/-- Every slot of a list with one slot replaced: the new one, or an old one at another index. -/
theorem getElem?_set_cases {ss : List Slot} {k j : Nat} {b x : Slot} (h : (ss.set k b)[j]? = some x) :
    (j = k ∧ x = b) ∨ (j ≠ k ∧ ss[j]? = some x) := by
  rw [List.getElem?_set] at h
  split at h
  · split at h
    · cases h; exact .inl ⟨by omega, rfl⟩
    · cases h
  · exact .inr ⟨by omega, h⟩

/-- VLAN_ENABLE keeps the context sound. -/
theorem Context.sound_enable {c : Launch} {x : Context} {k i : Nat} {t : Tag} (hs : x.sound c) (hi : i < c.numIfaces)
    (ht : t ≠ c.tagUnspec) (hk : freeBound c.tagUnspec x.slots i = some k) :
    (x.enable c.vlanCount k i t).sound c := by
  obtain ⟨⟨hl, hb, hv⟩, htb, hbo, hui, hc1, hc2, hc3⟩ := hs
  rw [boundOnce_iff] at hbo
  obtain ⟨⟨sl, hsl, hsb, hst⟩, -⟩ := (freeBound_eq_some _ _ _ _).1 hk
  have hkl : k < x.slots.length := (List.getElem?_eq_some_iff.1 hsl).1
  have hmem : sl ∈ x.slots := List.mem_of_getElem? hsl
  have hib : i < x.ifBitset.length := by omega
  have hbit : x.ifBitset.getD i false = false := by
    cases e : x.ifBitset.getD i false with
    | false => rfl
    | true =>
      obtain ⟨y, hy, hyb, hyt⟩ := (hc3 i hi).1 e
      obtain ⟨j, hj⟩ := List.mem_iff_getElem?.1 hy
      have := hbo j k i y sl hj hsl hyb hsb
      subst this; rw [hj] at hsl; cases hsl; exact absurd hst hyt
  have hcount : taggedSlots c.tagUnspec (x.slots.set k { sl with tag := t }) = taggedSlots c.tagUnspec x.slots + 1 := by
    simpa [hst, ht] using taggedSlots_set (u := c.tagUnspec) hsl { sl with tag := t }
  have hle : taggedSlots c.tagUnspec (x.slots.set k { sl with tag := t }) ≤ c.vlanCount := by
    rw [← hl, ← List.length_set (as := x.slots) (i := k) (a := { sl with tag := t })]; exact List.countP_le_length
  have hbo' : ∀ (j l m : Nat) (a b : Slot), (x.slots.set k { sl with tag := t })[j]? = some a →
      (x.slots.set k { sl with tag := t })[l]? = some b → a.bound = some m → b.bound = some m → j = l := by
    intro j l m a b ha hb' e e'
    rcases getElem?_set_cases ha with ⟨rfl, rfl⟩ | ⟨-, ha2⟩ <;> rcases getElem?_set_cases hb' with ⟨rfl, rfl⟩ | ⟨-, hb2⟩
    · rfl
    · exact hbo _ _ m _ _ hsl hb2 e e'
    · exact hbo _ _ m _ _ ha2 hsl e e'
    · exact hbo _ _ m _ _ ha2 hb2 e e'
  refine ⟨⟨?_, ?_, ?_⟩, ?_, (boundOnce_iff _).2 ?_, ?_, ?_, ?_, ?_⟩ <;> simp only [Context.enable, setSlotTag_eq hsl]
  · rw [List.length_set, hl]
  · rw [List.length_set, hb]
  · intro y hy j hj
    rcases List.mem_or_eq_of_mem_set hy with h | rfl
    · exact hv y h j hj
    · exact hv sl hmem j hj
  · intro y hy hyt
    rcases List.mem_or_eq_of_mem_set hy with h | rfl
    · exact htb y h hyt
    · simp [hsb]
  · exact hbo'
  · intro h; exact absurd (hui h sl hmem) (by simp [hsb])
  · rw [hcount] at hle ⊢; omega
  · rw [count_set_true hib hbit, ← hc2]; omega
  · intro j hj
    rw [Context.bit_set _ _ _ _ hib]
    by_cases e : j = i
    · subst e
      simp only [if_true, true_iff]
      exact ⟨_, List.mem_of_getElem? (List.getElem?_set_self hkl), hsb, ht⟩
    · rw [if_neg e]
      refine (hc3 j hj).trans ⟨?_, ?_⟩
      · rintro ⟨y, hy, hyb, hyt⟩
        obtain ⟨l, hl⟩ := List.mem_iff_getElem?.1 hy
        have : l ≠ k := by rintro rfl; rw [hl] at hsl; cases hsl; rw [hyb] at hsb; cases hsb; exact e rfl
        exact ⟨y, List.mem_of_getElem? (by rw [List.getElem?_set_ne (Ne.symm this)]; exact hl), hyb, hyt⟩
      · rintro ⟨y, hy, hyb, hyt⟩
        rcases List.mem_or_eq_of_mem_set hy with h | rfl
        · exact ⟨y, h, hyb, hyt⟩
        · rw [hsb] at hyb; cases hyb; exact absurd rfl e

/-- VLAN_DISABLE keeps the context sound. -/
theorem Context.sound_disable {c : Launch} {x : Context} {k i : Nat} {t : Tag} (hs : x.sound c) (hi : i < c.numIfaces)
    (ht : t ≠ c.tagUnspec) (hk : findPair c.tagUnspec x.slots i t = some k) :
    (x.disable c.tagUnspec k i).sound c := by
  obtain ⟨⟨hl, hb, hv⟩, htb, hbo, hui, hc1, hc2, hc3⟩ := hs
  rw [boundOnce_iff] at hbo
  obtain ⟨⟨sl, hsl, hsb, hst⟩, -⟩ := (findPair_eq_some ht _ _ _).1 hk
  subst hst
  have hkl : k < x.slots.length := (List.getElem?_eq_some_iff.1 hsl).1
  have hmem : sl ∈ x.slots := List.mem_of_getElem? hsl
  have hib : i < x.ifBitset.length := by omega
  have hbit : x.ifBitset.getD i false = true := (hc3 i hi).2 ⟨sl, hmem, hsb, ht⟩
  have hcount : taggedSlots c.tagUnspec (x.slots.set k { sl with tag := c.tagUnspec }) + 1 = taggedSlots c.tagUnspec x.slots := by
    simpa [ht] using taggedSlots_set (u := c.tagUnspec) hsl { sl with tag := c.tagUnspec }
  refine ⟨⟨?_, ?_, ?_⟩, ?_, (boundOnce_iff _).2 ?_, ?_, ?_, ?_, ?_⟩ <;> simp only [Context.disable, setSlotTag_eq hsl]
  · rw [List.length_set, hl]
  · rw [List.length_set, hb]
  · intro y hy j hj
    rcases List.mem_or_eq_of_mem_set hy with h | rfl
    · exact hv y h j hj
    · exact hv sl hmem j hj
  · intro y hy hyt
    rcases List.mem_or_eq_of_mem_set hy with h | rfl
    · exact htb y h hyt
    · simp [hsb]
  · intro j l m a b ha hb' e e'
    rcases getElem?_set_cases ha with ⟨rfl, rfl⟩ | ⟨-, ha2⟩ <;> rcases getElem?_set_cases hb' with ⟨rfl, rfl⟩ | ⟨-, hb2⟩
    · rfl
    · exact hbo _ _ m _ _ hsl hb2 e e'
    · exact hbo _ _ m _ _ ha2 hsl e e'
    · exact hbo _ _ m _ _ ha2 hb2 e e'
  · intro h; exact absurd (hui h sl hmem) (by simp [hsb])
  · split <;> omega
  · rw [count_set_false hib hbit, ← hc2]; split <;> omega
  · intro j hj
    rw [Context.bit_set _ _ _ _ hib]
    by_cases e : j = i
    · subst e
      simp only [if_true, Bool.false_eq_true, false_iff]
      rintro ⟨y, hy, hyb, hyt⟩
      obtain ⟨l, hl⟩ := List.mem_iff_getElem?.1 hy
      rcases getElem?_set_cases hl with ⟨-, rfl⟩ | ⟨hne, hl⟩
      · exact hyt rfl
      · exact hne (hbo l k j y sl hl hsl hyb hsb)
    · rw [if_neg e]
      refine (hc3 j hj).trans ⟨?_, ?_⟩
      · rintro ⟨y, hy, hyb, hyt⟩
        obtain ⟨l, hl⟩ := List.mem_iff_getElem?.1 hy
        have : l ≠ k := by rintro rfl; rw [hl] at hsl; cases hsl; rw [hyb] at hsb; cases hsb; exact e rfl
        exact ⟨y, List.mem_of_getElem? (by rw [List.getElem?_set_ne (Ne.symm this)]; exact hl), hyb, hyt⟩
      · rintro ⟨y, hy, hyb, hyt⟩
        rcases List.mem_or_eq_of_mem_set hy with h | rfl
        · exact ⟨y, h, hyb, hyt⟩
        · exact absurd rfl hyt

/-- VLAN_INIT of an unbound interface keeps the context sound. -/
theorem Context.sound_initBind {c : Launch} {x : Context} {i : Nat} (hs : x.sound c) (hi : i < c.numIfaces)
    (hn : firstBound x.slots i = none) : (x.initBind c.initFree c.tagUnspec c.numIfaces i).sound c := by
  obtain ⟨⟨hl, hb, hv⟩, htb, hbo, hui, hc1, hc2, hc3⟩ := hs
  rw [firstBound_eq_none] at hn
  unfold Context.initBind
  cases hk : initFree c.initFree c.tagUnspec x.slots with
  | none => exact ⟨⟨hl, hb, hv⟩, htb, hbo, by simp [Context.unboundBeforeInit], hc1, hc2, hc3⟩
  | some k =>
    rw [boundOnce_iff] at hbo
    obtain ⟨⟨sl, hsl, hst, -⟩, -⟩ := (initFree_eq_some _ _ _ _).1 hk
    have hcount : taggedSlots c.tagUnspec (x.slots.set k { sl with bound := some i }) = taggedSlots c.tagUnspec x.slots := by
      simpa [hst] using taggedSlots_set (u := c.tagUnspec) hsl { sl with bound := some i }
    have hbits : (if x.init = true then x.ifBitset else List.replicate c.numIfaces false) = x.ifBitset := by
      split
      · rfl
      · rename_i h
        have h0 : taggedSlots c.tagUnspec x.slots = 0 := by
          rw [taggedSlots, List.countP_eq_zero]
          intro y hy e
          exact htb y hy (by simpa using e) (hui (by simpa using h) y hy)
        rw [← hb, eq_comm, List.eq_replicate_iff]
        refine ⟨rfl, fun y hy => ?_⟩
        have : x.ifBitset.count true = 0 := by omega
        cases y
        · rfl
        · exact absurd hy (List.count_eq_zero.1 this)
    dsimp only
    rw [hbits, setSlotBound_eq hsl]
    refine ⟨⟨?_, hb, ?_⟩, ?_, (boundOnce_iff _).2 ?_, by simp [Context.unboundBeforeInit], ?_, hc2, ?_⟩
    · rw [List.length_set, hl]
    · intro y hy j hj
      rcases List.mem_or_eq_of_mem_set hy with h | rfl
      · exact hv y h j hj
      · cases hj; exact hi
    · intro y hy hyt
      rcases List.mem_or_eq_of_mem_set hy with h | rfl
      · exact htb y h hyt
      · simp
    · intro j l m a b ha hb' e e'
      rcases getElem?_set_cases ha with ⟨rfl, rfl⟩ | ⟨-, ha2⟩ <;> rcases getElem?_set_cases hb' with ⟨rfl, rfl⟩ | ⟨-, hb2⟩
      · rfl
      · cases e; exact absurd e' (hn b (List.mem_of_getElem? hb2))
      · cases e'; exact absurd e (hn a (List.mem_of_getElem? ha2))
      · exact hbo _ _ m _ _ ha2 hb2 e e'
    · rw [hcount]; exact hc1
    · intro j hj
      refine (hc3 j hj).trans ⟨?_, ?_⟩
      · rintro ⟨y, hy, hyb, hyt⟩
        obtain ⟨l, hl⟩ := List.mem_iff_getElem?.1 hy
        have : l ≠ k := by rintro rfl; rw [hl] at hsl; cases hsl; exact hyt hst
        exact ⟨y, List.mem_of_getElem? (by rw [List.getElem?_set_ne (Ne.symm this)]; exact hl), hyb, hyt⟩
      · rintro ⟨y, hy, hyb, hyt⟩
        rcases List.mem_or_eq_of_mem_set hy with h | rfl
        · exact ⟨y, h, hyb, hyt⟩
        · exact absurd hst hyt

/-- The context after reset is sound. -/
theorem Context.sound_reset (c : Launch) : (Context.reset c).sound c := by
  refine ⟨⟨List.length_replicate, List.length_replicate, ?_⟩, ?_, ?_, ?_, ?_, ?_, ?_⟩
  · intro sl h; rw [List.eq_of_mem_replicate h]; simp
  · intro sl h ht; rw [List.eq_of_mem_replicate h] at ht; exact absurd rfl ht
  · exact List.pairwise_replicate.2 (.inr (.inl rfl))
  · intro _ sl h; rw [List.eq_of_mem_replicate h]
  · simp [Context.reset, taggedSlots, List.countP_replicate]
  · simp [Context.reset, List.count_replicate]
  · intro i hi
    simp only [Context.reset, Context.bit, List.mem_replicate]
    constructor
    · intro h; simp [List.getD, hi] at h
    · rintro ⟨sl, ⟨-, rfl⟩, h, -⟩; cases h

end Sys2Proof.Machine
end

