-- ==== Sys2Proof/Laws/Paths.lean ====
section
/-! SUPPORT. RX and TX path by path, in the terms the statements use; every command keeps the packet store canonical. -/

namespace Sys2Proof.Machine

/-! ### The terms of the statements -/

/-- Broadcast or multicast is the group bit (40_address_classifier.md R100, R101). -/
theorem isBcast_or_isMcast (a : Addr6) : (isBcast a || isMcast a) = groupBit a := by
  unfold isMcast groupBit
  cases h : isBcast a
  · simp
  · simp only [isBcast, Bool.and_eq_true, beq_iff_eq] at h
    simp [h.1.1.1.1.1]

theorem headerReserve_eq (s : State) (i : Nat) : s.headerReserve i = hdrLen (s.vlanActive i) := by
  unfold State.headerReserve hdrLen; split <;> rfl

theorem fixSrc_eq (f : Iface) (p : Packet) : fixSrc f p = { p with llSrc := txSource f p } := by
  unfold fixSrc txSource
  split
  · rename_i h; rw [h, Option.map_none, ← h]
  · rename_i a h
    rw [h, Option.map_some, isBcast_or_isMcast]
    split
    · rfl
    · rw [← h]

/-- The TCI of the statements is the one AssignVlan gives. -/
theorem assignVlan_of_txTagged {s : State} {i : Nat} {q : Packet} {tci : Half} (h : s.txTagged i q tci) :
    (if s.vlanActive i then assignVlan s.cfg s.ctx.slots i q else some q) = some { q with vlanTci := tci } := by
  unfold State.txTagged at h
  cases hv : s.vlanActive i with
  | false => simp [hv] at h ⊢; rw [h]
  | true =>
    simp only [hv, if_true] at h ⊢
    obtain ⟨h1, h2, h3⟩ := h
    unfold assignVlan
    by_cases hc : tciVid q.vlanTci = s.cfg.tagUnspec
    · rw [if_pos hc] at h3 ⊢
      obtain ⟨j, k, sl, e1, e2, e3, e4⟩ := h3
      have : s.ctx.slots.find? (fun x => x.bound == some j) = some sl := by
        rw [find?_eq_some_iff]; exact ⟨k, by simpa using e2, e3⟩
      simp only [e1, this]
      congr 2
      exact tci_ext (by simp [e4]) (by simp [h2]) (by simp [h1])
    · rw [if_neg hc] at h3 ⊢
      congr 2
      exact tci_ext (by simp [h3]) (by simp [h2]) (by simp [h1])

/-- WriteAllHeaders past its headroom check puts the header in every fragment. -/
theorem writeAllHeaders_spec {c : Launch} {vl : Bool} {p q : Packet} (hw : p.wf = true) (hh : p.headroom (hdrLen vl))
    (hf : q.frags = p.frags) :
    headersOver c.etypeVlan vl q.llSrc q.llDst (selectType c q) q.vlanTci p (writeAllHeaders c vl q) := by
  constructor
  · simp [writeAllHeaders, hf]
  · intro k f hk
    have hm := List.mem_of_getElem? hk
    rw [Packet.wf, List.all_eq_true] at hw
    exact ⟨_, by simp only [writeAllHeaders, hf, List.getElem?_map, hk, Option.map_some],
      headerWrite_spec _ _ _ _ _ (hw f hm) (hh f hm)⟩

/-- The header RX finds is the one ParseHeader reads. -/
theorem parseHeader_of_rxHeader {s : State} {i : Nat} {p : Packet} {g : Frag} {n : Nat} {ty : Half}
    (h : s.rxHeader i p g n ty) :
    parseHeader s.cfg (s.vlanActive i) p =
      some (ty, n, { p with vlanTci := if n = 18 then be16 g.buf (g.off + 14) else p.vlanTci }) := by
  obtain ⟨hg, hn, he, ht⟩ := h
  obtain ⟨fs, hfs⟩ := List.head?_eq_some_iff.1 hg
  unfold parseHeader
  rw [hfs]
  by_cases hc : s.vlanActive i = true ∧ be16 g.buf (g.off + 12) = s.cfg.etypeVlan
  · rw [if_pos hc] at he; subst he
    simp [hc.1, hc.2, show ¬ g.len < 14 by omega, show ¬ g.len < 18 by omega, ht]
  · rw [if_neg hc] at he; subst he
    have : ¬ ((s.vlanActive i && be16 g.buf (g.off + 12) == s.cfg.etypeVlan) = true) := by simpa using hc
    simp only [show ¬ g.len < 14 by omega, if_false, this, ht]
    simp [← hfs]

theorem classify_of_typed {c : Launch} {ty : Half} {fam : BitVec 2} {arp : Bool} (h : c.typed ty fam arp) :
    classify c ty = some (fam, arp) := by
  unfold classify
  rcases h with ⟨h1, rfl, rfl⟩ | ⟨h1, h2, rfl, rfl⟩ | ⟨h1, h2, h3, rfl, rfl⟩
  · simp [h1]
  · rw [if_neg h1, if_pos h2]
  · rw [if_neg h1, if_neg h2, if_pos h3]

/-- RX of a packet whose header is whole and of a recognised type: filtered, then handed to ARP or delivered
(43_frame_receiver.md R150). -/
theorem exec_rx_of_typed {s : State} {i : Nat} {f : Iface} {h : Handle} {p : Packet} {g : Frag} {n : Nat} {ty : Half}
    {fam : BitVec 2} {arp : Bool} (hr : s.ready i f h p) (hh : s.rxHeader i p g n ty) (ht : s.cfg.typed ty fam arp) :
    exec (.rx i) s = .next (
      if groupBit (addr6At g.buf g.off) = true ∨ addr6At g.buf g.off = f.linkAddr then
        (if arp then rxArp h (rxStripped n fam g p) ((s.setStatus .ok).putPacket h (rxStripped n fam g p))
          else rxDeliver h (rxStripped n fam g p) ((s.setStatus .ok).putPacket h (rxStripped n fam g p)))
      else ((s.setStatus .ok).putPacket h (rxRecorded n fam g p)).drop .notForUs) := by
  obtain ⟨h1, h2, h3, h4, h5⟩ := hr
  obtain ⟨fs, hfs⟩ := List.head?_eq_some_iff.1 hh.1
  have hrec : recordLinkAddrs { p with
      vlanTci := if n = 18 then be16 g.buf (g.off + 14) else p.vlanTci, family := fam } = rxRecorded n fam g p := by
    simp [recordLinkAddrs, Packet.hdrDst, Packet.hdrSrc, hfs, rxRecorded]
  have hstr : strip n (rxRecorded n fam g p) = rxStripped n fam g p := by simp [strip, rxStripped, hfs]
  have hdst : (rxRecorded n fam g p).hdrDst = addr6At g.buf g.off := by simp [Packet.hdrDst, hfs]
  simp only [exec, execRx, State.onPacket_some _ h1 h2 h3 h4, State.ifOwned_of_not_mem _ h5]
  congr 1
  unfold rxFrame
  dsimp only
  rw [show parseHeader (s.setStatus .ok).cfg ((s.setStatus .ok).vlanActive i) p = _ from parseHeader_of_rxHeader hh]
  dsimp only
  rw [show classify (s.setStatus .ok).cfg ty = _ from classify_of_typed ht]
  dsimp only
  rw [hrec, hstr, hdst]
  have : accept f (addr6At g.buf g.off) = true ↔ groupBit (addr6At g.buf g.off) = true ∨ addr6At g.buf g.off = f.linkAddr := by
    rw [accept, isBcast_or_isMcast]; simp
  by_cases hc : groupBit (addr6At g.buf g.off) = true ∨ addr6At g.buf g.off = f.linkAddr
  · rw [if_pos hc, if_pos (this.2 hc)]
  · rw [if_neg hc, if_neg (mt this.1 hc)]

/-- Steps 7 and 8 of RX on a packet whose declared length is read: trimmed to it, verdict `CONTINUE`
(43_frame_receiver.md R158 to R160). -/
theorem rxDeliver_of_some {h : Handle} {p : Packet} {s : State} {l : Nat} (hl : ipDeclaredLen s.cfg p = some l)
    (hp : p.frags ≠ []) : ∃ p' : Packet, trimmedTo l p p'
      ∧ rxDeliver h p s = ((s.putPacket h p').emitAll (trimEvents h p p')).setVerdict .cont .none := by
  obtain ⟨ht, he⟩ := trim_spec l hp
  exact ⟨_, ht, by unfold rxDeliver; rw [hl]; dsimp only; rw [he]⟩

/-! ### RX keeps the packet store canonical -/

theorem rxDeliver_mem_wf (h : Handle) {p : Packet} {s : State} (hm : s.mem.wf = true) (hp : p.wf = true) :
    (rxDeliver h p s).mem.wf = true := by
  unfold rxDeliver; split
  · exact hm
  · exact Memory.wf_put hm (trim_wf hp)

theorem rxFrame_mem_wf (i : Nat) (f : Iface) (h : Handle) {p : Packet} {s : State} (hm : s.mem.wf = true)
    (hp : p.wf = true) : (rxFrame i f h p s).mem.wf = true := by
  unfold rxFrame
  dsimp only
  split
  · exact hm
  · rename_i ty n q hq
    obtain ⟨g, hg, hn, -, tci, rfl⟩ := parseHeader_eq_some hq
    split
    · exact Memory.wf_put hm hp
    · rename_i fam arp _
      have hs : (strip n (recordLinkAddrs { p with vlanTci := tci, family := fam })).wf = true := strip_wf hg hn hp
      have hm' := Memory.wf_put (h := h) hm hs
      split
      · split
        · unfold rxArp
          split
          · obtain ⟨r, rest, d, e, -⟩ := State.askArpInput_eq h
              ((s.setStatus .ok).putPacket h (strip n (recordLinkAddrs { p with vlanTci := tci, family := fam })))
            rw [e]
            exact Memory.wf_changes _ hm'
          · split
            · exact hm'
            · exact rxDeliver_mem_wf h hm' hs
        · exact rxDeliver_mem_wf h hm' hs
      · exact Memory.wf_put hm hp

/-! ### TX, path by path -/

/-- AssignVlan changes the TCI alone. -/
theorem assignVlan_eq_some {c : Launch} {ss : List Slot} {i : Nat} {p q : Packet} (h : assignVlan c ss i p = some q) :
    ∃ tci : Half, q = { p with vlanTci := tci } := by
  unfold assignVlan at h
  repeat' split at h
  all_goals cases h
  all_goals exact ⟨_, rfl⟩

/-- TX from label `HDR`: dropped with the packet as it came; a fault with no byte written; or queued with the header in
every fragment. -/
theorem txFrame_cases (i : Nat) (h : Handle) (p : Packet) (s : State) :
    (s.vlanActive i = true ∧ assignVlan s.cfg s.ctx.slots i p = none ∧
        txFrame i h s p (s.setStatus .ok) = ((s.setStatus .ok).putPacket h p).drop .noVlanForIface)
      ∨ ∃ tci : Half, (if s.vlanActive i then assignVlan s.cfg s.ctx.slots i p else some p) = some { p with vlanTci := tci } ∧
        ((¬ p.headroom (hdrLen (s.vlanActive i)) ∧
          txFrame i h s p (s.setStatus .ok) =
            ((s.setStatus .ok).putPacket h (p.forgetLink (Config.freeLeftover s.draws))).abandonTx .headroom s)
        ∨ (p.headroom (hdrLen (s.vlanActive i)) ∧
          txFrame i h s p (s.setStatus .ok) = ((s.setStatus .ok).putPacket h
            (writeAllHeaders s.cfg (s.vlanActive i) { p with vlanTci := tci })).enqueue i h)) := by
  have key : ∀ q : Packet, (if s.vlanActive i then assignVlan s.cfg s.ctx.slots i p else some p) = some q →
      txFrame i h s p (s.setStatus .ok) =
        if q.frags.any fun f => decide (f.off < hdrLen (s.vlanActive i)) then
          ((s.setStatus .ok).putPacket h (q.forgetLink (Config.freeLeftover s.draws))).abandonTx .headroom s
        else ((s.setStatus .ok).putPacket h (writeAllHeaders s.cfg (s.vlanActive i) q)).enqueue i h := by
    intro q hq
    unfold txFrame
    dsimp only
    rw [show (if (s.setStatus .ok).vlanActive i = true then
        assignVlan (s.setStatus .ok).cfg (s.setStatus .ok).ctx.slots i p else some p) = some q from hq]
    rfl
  cases hq : (if s.vlanActive i then assignVlan s.cfg s.ctx.slots i p else some p) with
  | none =>
    cases hv : s.vlanActive i with
    | false => rw [hv] at hq; cases hq
    | true =>
      rw [hv, if_pos rfl] at hq
      refine .inl ⟨rfl, hq, ?_⟩
      unfold txFrame
      dsimp only
      rw [show (if (s.setStatus .ok).vlanActive i = true then
        assignVlan (s.setStatus .ok).cfg (s.setStatus .ok).ctx.slots i p else some p) = none from (if_pos hv).trans hq]
  | some q =>
    obtain ⟨tci, rfl⟩ : ∃ tci : Half, q = { p with vlanTci := tci } := by
      split at hq
      · exact assignVlan_eq_some hq
      · cases hq; exact ⟨_, rfl⟩
    refine .inr ⟨tci, rfl, ?_⟩
    rw [key _ hq]
    by_cases hh : p.headroom (hdrLen (s.vlanActive i))
    · refine .inr ⟨hh, if_neg ?_⟩
      simp only [List.any_eq_true, decide_eq_true_eq, not_exists, not_and, Nat.not_lt]
      exact hh
    · refine .inl ⟨hh, if_pos ?_⟩
      simpa [Packet.headroom] using hh

/-- TX past its checks: a drop, a fault of the family, the ARP path, or label `HDR` with the link metadata filled in. -/
theorem txPacket_cases (i : Nat) (f : Iface) (h : Handle) (p : Packet) (s : State) :
    (txPacket i f h p s = (s.setStatus .ok).abandonTx .hostDuty s ∧ p.family ≠ 1 ∧ p.family ≠ 2)
      ∨ txPacket i f h p s = (s.setStatus .ok).drop .malformed
      ∨ txPacket i f h p s = ((s.setStatus .ok).putPacket h (fixSrc f p)).drop .malformed
      ∨ (txPacket i f h p s = txArp i h s (s.setStatus .ok) ∧ s.cfg.arpEnabled = true ∧ p.family = 1)
      ∨ ∃ (src dst : Option Addr6) (ty : LlType),
          txPacket i f h p s = txFrame i h s { p with llSrc := src, llDst := dst, llType := ty } (s.setStatus .ok)
          ∧ dst ≠ none ∧ (p.family = 1 ∨ p.family = 2) := by
  unfold txPacket
  dsimp only
  split
  · exact .inl ⟨rfl, ‹_›⟩
  · rename_i hfam
    have hfam : p.family = 1 ∨ p.family = 2 := by
      by_contra hc; exact hfam ⟨fun e => hc (.inl e), fun e => hc (.inr e)⟩
    split
    · rename_i ha
      split
      · exact .inr (.inl rfl)
      · split
        · exact .inr (.inr (.inr (.inr ⟨_, _, _, rfl, by simp, hfam⟩)))
        · exact .inr (.inr (.inr (.inl ⟨rfl, ha⟩)))
    · have hsrc : ∃ src, fixSrc f p = { p with llSrc := src } := by
        unfold fixSrc
        repeat' split
        all_goals exact ⟨_, rfl⟩
      obtain ⟨src, hsrc⟩ := hsrc
      split
      · exact .inr (.inr (.inl rfl))
      · rename_i q hq
        rw [hsrc] at hq
        refine .inr (.inr (.inr (.inr ?_)))
        have hd : ∃ d, q = { p with llSrc := src, llDst := some d } := by
          unfold defaultDst at hq
          split at hq
          · rename_i d hd
            cases hq
            exact ⟨d, by rw [← show p.llDst = some d from hd]⟩
          · split at hq
            · split at hq <;> cases hq
              exact ⟨_, rfl⟩
            · cases hq; exact ⟨_, rfl⟩
        obtain ⟨d, rfl⟩ := hd
        exact ⟨src, some d, p.llType, rfl, by simp, hfam⟩

/-- TX whose addresses are settled comes to label `HDR` with the packet the statements name. -/
theorem txPacket_of_txAddressed {s : State} {i : Nat} {f : Iface} {h : Handle} {p q : Packet}
    (ha : s.txAddressed i f p q) : txPacket i f h p s = txFrame i h s q (s.setStatus .ok) := by
  unfold txPacket
  obtain ⟨hd, d, rfl, hq⟩ | ⟨he, hf, v, hv, hs, rfl⟩ := ha
  · have hfam : ¬ (p.family ≠ familyIpv4 ∧ p.family ≠ familyIpv6) := by
      rintro ⟨h1, h2⟩; rcases hd with e | ⟨e, -⟩ <;> simp_all
    have harp : ¬ (s.cfg.arpEnabled = true ∧ p.family = familyIpv4) := by
      rintro ⟨h1, h2⟩; rcases hd with e | ⟨-, e⟩ <;> simp_all
    have hdst : defaultDst s.cfg (fixSrc f p) = some { p with llSrc := txSource f p, llDst := some d } := by
      rw [fixSrc_eq]
      unfold defaultDst
      rcases hq with e | ⟨e, e1, rfl⟩ | ⟨e, e2, w, hw, rfl⟩
      · simp [e]
      · simp [e, e1, bcastAddr]
      · rw [show ipv6Dst s.cfg { p with llSrc := txSource f p } = some w from hw]
        simp [e, e2, bcastAddr, ipv6IsMcast, ipv6McastToLink]
    dsimp only
    rw [if_neg hfam, if_neg (by simpa using harp)]
    rw [show (s.setStatus .ok).cfg = s.cfg from rfl, hdst]
  · dsimp only
    rw [if_neg (by simp [hf]), if_pos (by simp [hf, he])]
    rw [show ipv4Dst (s.setStatus .ok).cfg p = some v from hv]
    dsimp only
    rw [if_pos (by simpa [subnetBcast, ipv4IsMcast] using hs)]
    by_cases hb : (i, v) ∈ s.cfg.subnetBcast <;> simp [ipv4Shortcut, subnetBcast, hb, bcastAddr, ipv4McastToLink]

/-- TX of a packet whose addresses are settled, past its checks. -/
theorem exec_tx_of_txAddressed {s : State} {i : Nat} {f : Iface} {h : Handle} {p q : Packet} (hr : s.ready i f h p)
    (ha : s.txAddressed i f p q) : exec (.tx i) s = .next (txFrame i h s q (s.setStatus .ok)) := by
  obtain ⟨h1, h2, h3, h4, h5⟩ := hr
  simp only [exec, execTx, State.onPacket_some _ h1 h2 h3 h4, State.ifOwned_of_not_mem _ h5, txPacket_of_txAddressed ha]

/-- TX of an IPv4 packet that goes to ARP, past its checks (44_frame_sender.md R171). -/
theorem exec_tx_of_arp {s : State} {i : Nat} {f : Iface} {h : Handle} {p : Packet} {v : Ip4} (hr : s.ready i f h p)
    (he : s.cfg.arpEnabled = true) (hf : p.family = 1) (hv : ipv4Dst s.cfg p = some v) (hs : ¬ s.txShortcut i v) :
    exec (.tx i) s = .next (txArp i h s (s.setStatus .ok)) := by
  obtain ⟨h1, h2, h3, h4, h5⟩ := hr
  simp only [exec, execTx, State.onPacket_some _ h1 h2 h3 h4, State.ifOwned_of_not_mem _ h5]
  unfold txPacket
  dsimp only
  rw [if_neg (by simp [hf]), if_pos (by simp [hf, he])]
  rw [show ipv4Dst (s.setStatus .ok).cfg p = some v from hv]
  dsimp only
  rw [if_neg (by simpa [subnetBcast, ipv4IsMcast] using hs)]

/-- The ARP path: dropped, a fault, or the packet ARP answered queued; the request is the first event in the log unless it
faults, then the release of the packet asked about if another is answered. -/
theorem txArp_cases (i : Nat) (h : Handle) (s : State) :
    ∃ (r : ArpResolveReply) (rest : List ArpResolveReply) (d : Nat),
      (s.arpResolves = r :: rest ∧ d = s.draws
        ∨ s.arpResolves = [] ∧ rest = [] ∧ r = Config.freeArpResolve s.draws ∧ d = s.draws + 1)
      ∧ ((r.packet = none ∧ txArp i h s (s.setStatus .ok) = State.drop .arpFailed
            { s.setStatus .ok with
              log := s.log ++ [.arpResolve h], arpResolves := rest, draws := d, mem := s.mem.changes r.store })
        ∨ ∃ (h' : Handle) (ho : List Handle), r.packet = some h'
          ∧ (∀ x, x ∈ ho ↔ x ∈ s.handedOver ∨ (x = h ∧ h' ≠ h))
          ∧ ((txArp i h s (s.setStatus .ok) = State.abandonTx
                { s.setStatus .ok with
                  log := s.log ++ [.arpResolve h] ++ (if h' = h then [] else [.release h]), arpResolves := rest, draws := d
                  mem := s.mem.changes r.store
                  handedOver := ho } .hostDuty s)
            ∨ ∃ (q : Packet) (g : Frag) (base : Nat), (s.mem.changes r.store).packet? h' = some q
              ∧ arpHeader q = some (g, base)
              ∧ txArp i h s (s.setStatus .ok) = State.enqueue i h' (State.putPacket h'
                  { q with llDst := some (addr6At g.buf base), llSrc := some (addr6At g.buf (base + 6)), llType := .ethernet }
                  { s.setStatus .ok with
                    log := s.log ++ [.arpResolve h] ++ (if h' = h then [] else [.release h]), arpResolves := rest, draws := d
                    mem := s.mem.changes r.store, handedOver := ho }))) := by
  obtain ⟨r, rest, d, e, hr⟩ := State.askArpResolve_eq h (s.setStatus .ok)
  refine ⟨r, rest, d, hr, ?_⟩
  unfold txArp
  rw [e]
  dsimp only
  cases hp : r.packet with
  | none => exact .inl ⟨rfl, rfl⟩
  | some h' =>
    obtain ⟨ho, hho, e'⟩ := releaseOther_eq h h'
      { s.setStatus .ok with
        log := s.log ++ [.arpResolve h], arpResolves := rest, draws := d, mem := s.mem.changes r.store }
    refine .inr ⟨h', ho, rfl, hho, ?_⟩
    dsimp only
    simp only [State.setStatus_log, State.setStatus_mem, State.setStatus_host, State.setStatus_cfg] at e' ⊢
    rw [e']
    dsimp only
    cases hm : (s.mem.changes r.store).packet? h' with
    | none => exact .inl rfl
    | some q =>
      dsimp only
      cases ha : arpHeader q with
      | none => exact .inl rfl
      | some gb => exact .inr ⟨q, gb.1, gb.2, rfl, ha, rfl⟩

/-! ### TX and HDR_BUILD keep the packet store canonical -/

theorem writeAllHeaders_wf (c : Launch) (vl : Bool) (p : Packet) : (writeAllHeaders c vl p).wf = p.wf := by
  simp [writeAllHeaders, Packet.wf, List.all_map, Function.comp_def]

theorem txPacket_mem_wf (i : Nat) (f : Iface) (h : Handle) {p : Packet} {s : State} (hm : s.mem.wf = true)
    (hp : p.wf = true) : (txPacket i f h p s).mem.wf = true := by
  obtain ⟨e, -⟩ | e | e | ⟨e, -⟩ | ⟨src, dst, ty, e, -⟩ := txPacket_cases i f h p s <;> rw [e]
  · exact hm
  · exact hm
  · rw [fixSrc_eq]; exact Memory.wf_put hm hp
  · obtain ⟨r, rest, d, -, ⟨-, e⟩ | ⟨h', ho, -, -, e | ⟨q, g, base, hq, -, e⟩⟩⟩ := txArp_cases i h s <;> rw [e]
    · exact Memory.wf_changes _ hm
    · exact Memory.wf_changes _ hm
    · have hw := Memory.wf_changes r.store hm
      have hq : Packet.wf q = true := Memory.wf_of_packet? hw hq
      exact Memory.wf_put hw hq
  · obtain ⟨-, -, e⟩ | ⟨tci, -, ⟨-, e⟩ | ⟨-, e⟩⟩ := txFrame_cases i h { p with llSrc := src, llDst := dst, llType := ty } s <;>
      rw [e]
    · exact Memory.wf_put hm hp
    · exact Memory.wf_put hm hp
    · exact Memory.wf_put hm (by rw [writeAllHeaders_wf]; exact hp)

/-- HDR_BUILD past its checks and operand reads (45_header_builder.md R191). -/
theorem exec_hdrBuild_of_ready {s : State} {i : Nat} {f : Iface} {h : Handle} {p : Packet} {k : Byte} {g : Frag}
    {src dst : Option Addr6} {ty : Half} (hr : s.ready i f h p) (hk : s.ops.opFrag = some k)
    (hg : p.frags[k.toNat]? = some g) (h1 : s.ops.opSrcV = some src.isSome) (h2 : ∀ a ∈ src, s.ops.opSrc = some a)
    (h3 : s.ops.opDstV = some dst.isSome) (h4 : ∀ a ∈ dst, s.ops.opDst = some a) (h5 : s.ops.opType = some ty) :
    exec (.hdrBuild i) s = .next (
      if g.off < hdrLen (s.vlanActive i) then s.raiseFatal .headroom
      else
        let g' := g.headerWrite s.cfg.etypeVlan (s.vlanActive i) src dst ty p.vlanTci
        (s.putPacket h { p with frags := p.frags.set k.toNat g' }).setStatus .ok) := by
  obtain ⟨r1, r2, r3, r4, r5⟩ := hr
  simp only [exec, execHdrBuild, State.onPacket_some _ r1 r2 r3 r4, hk, State.onOperand_some, hg,
    State.ifOwned_of_not_mem _ r5]
  congr 1
  rw [h1, h3, h5]
  cases src <;> cases dst <;> simp_all

/-- One fragment replaced by itself with a header over it. -/
theorem wf_set_headerWrite {p : Packet} {k : Nat} {f : Frag} (hp : p.wf = true) (hf : p.frags[k]? = some f)
    (tpid : Half) (vl : Bool) (src dst : Option Addr6) (ptype tci : Half) :
    Packet.wf { p with frags := p.frags.set k (f.headerWrite tpid vl src dst ptype tci) } = true := by
  rw [Packet.wf, List.all_eq_true] at *
  intro x hx
  rcases List.mem_or_eq_of_mem_set hx with hx | rfl
  · exact hp x hx
  · rw [headerWrite_wf]; exact hp f (List.mem_of_getElem? hf)

end Sys2Proof.Machine
end

