-- ==== Sys2Proof/Laws/PerInstr.lean ====
section
/-! SUPPORT. A fact about every command as syntax, one lemma per constructor. -/

namespace Sys2Proof.Laws.EncodeLegal

/-- The word of a command meets the mask and match of its row (30_encoding.md R84), whatever its operands. -/
def Statement (i : Instr) : Prop := encode i &&& i.op.mask = i.op.matchWord

/-- Bit by bit: an assembled word under a mask. -/
theorem of_bits {opc mask m : CmdWord} (h : opc >>> 8 = 0) (i : Nat) (t : Tag) (f : Bool)
    (e : ∀ k < 32, ((if k < 8 then opc.getLsbD k else if k < 16 then i.testBit (k - 8)
      else if k < 28 then t.getLsbD (k - 16) else decide (k = 28) && f) && mask.getLsbD k) = m.getLsbD k) :
    assemble opc i t f &&& mask = m :=
  BitVec.eq_of_getLsbD_eq fun k hk => by rw [BitVec.getLsbD_and, assemble_getLsbD h]; exact e k hk

theorem clsBcast : Statement .clsBcast := by unfold Statement; decide

theorem clsMcast : Statement .clsMcast := by unfold Statement; decide

theorem mapIpv6 : Statement .mapIpv6 := by unfold Statement; decide

theorem mapIpv4 : Statement .mapIpv4 := by unfold Statement; decide

theorem bcastAddr : Statement .bcastAddr := by unfold Statement; decide

theorem vlanInit (i : Nat) : Statement (.vlanInit i) := by
  refine of_bits (by decide) i 0 false fun k hk => ?_
  interval_cases k <;> simp [Instr.op, Op.mask, Op.matchWord]

theorem vlanEnable (i : Nat) (t : Tag) : Statement (.vlanEnable i t) := by
  refine of_bits (by decide) i t false fun k hk => ?_
  interval_cases k <;> simp [Instr.op, Op.mask, Op.matchWord]

theorem vlanDisable (i : Nat) (t : Tag) : Statement (.vlanDisable i t) := by
  refine of_bits (by decide) i t false fun k hk => ?_
  interval_cases k <;> simp [Instr.op, Op.mask, Op.matchWord]

theorem vlanIsEnabled (i : Nat) : Statement (.vlanIsEnabled i) := by
  refine of_bits (by decide) i 0 false fun k hk => ?_
  interval_cases k <;> simp [Instr.op, Op.mask, Op.matchWord]

theorem vlanLookup (t : Tag) : Statement (.vlanLookup t) := by
  refine of_bits (by decide) 0 t false fun k hk => ?_
  interval_cases k <;> simp [Instr.op, Op.mask, Op.matchWord]

theorem vlanGetTag (i : Nat) : Statement (.vlanGetTag i) := by
  refine of_bits (by decide) i 0 false fun k hk => ?_
  interval_cases k <;> simp [Instr.op, Op.mask, Op.matchWord]

theorem rx (i : Nat) : Statement (.rx i) := by
  refine of_bits (by decide) i 0 false fun k hk => ?_
  interval_cases k <;> simp [Instr.op, Op.mask, Op.matchWord]

theorem tx (i : Nat) : Statement (.tx i) := by
  refine of_bits (by decide) i 0 false fun k hk => ?_
  interval_cases k <;> simp [Instr.op, Op.mask, Op.matchWord]

theorem hdrBuild (i : Nat) : Statement (.hdrBuild i) := by
  refine of_bits (by decide) i 0 false fun k hk => ?_
  interval_cases k <;> simp [Instr.op, Op.mask, Op.matchWord]

theorem hdrReserve (i : Nat) : Statement (.hdrReserve i) := by
  refine of_bits (by decide) i 0 false fun k hk => ?_
  interval_cases k <;> simp [Instr.op, Op.mask, Op.matchWord]

theorem l2Enable (i : Nat) (f : Bool) : Statement (.l2Enable i f) := by
  refine of_bits (by decide) i 0 f fun k hk => ?_
  interval_cases k <;> simp [Instr.op, Op.mask, Op.matchWord]

end Sys2Proof.Laws.EncodeLegal
end

