-- ==== Sys2Proof/Tests/Slice0.lean ====
section
/-! SUPPORT. Tests of the block, with results from 95_test_vectors.md, and witnesses of the hypotheses of the statements. -/

namespace Sys2Proof.Tests

open Sys2Proof Sys2Proof.Machine

/-! ### Helpers -/

/-- `02:00:00:00:00:01`, the address of interface 0. -/
def mac1 : Addr6 := #v[2, 0, 0, 0, 0, 0x01]
/-- `MAC_A`, a remote station. -/
def macA : Addr6 := #v[2, 0, 0, 0, 0, 0xAA]
/-- The broadcast address. -/
def macB : Addr6 := #v[0xFF, 0xFF, 0xFF, 0xFF, 0xFF, 0xFF]

/-- `n` zero bytes. -/
def z (n : Nat) : List Byte := List.replicate n 0
/-- `IP4(tl, 192.168.1.d)` (95_test_vectors.md section 0), `tl < 256`. -/
def ip4 (tl : Byte) (d : List Byte) : List Byte :=
  [0x45, 0, 0, tl, 0, 0, 0, 0, 0x40, 0x11, 0, 0, 0xC0, 0xA8, 1, 2] ++ d
/-- `IP6(0, dst)` (95_test_vectors.md section 0). -/
def ip6 (dst : List Byte) : List Byte := [0x60, 0, 0, 0, 0, 0, 0x3B, 0x40, 0xFE, 0x80] ++ z 13 ++ [0xAA] ++ dst
/-- `ff02::1`. -/
def ff021 : List Byte := [0xFF, 2] ++ z 13 ++ [1]

/-- A fragment that is all data. -/
def whole (b : List Byte) : Frag := ⟨b, 0, b.length⟩
/-- A frame as RX gets it: no metadata yet. -/
def frame (fs : List Frag) : Packet := ⟨0, 0x0FFF, 0, 0, none, none, .none, fs⟩
/-- The frame of vector RX1 to destination `d`, with type bytes `ty` and declared length `tl`. -/
def rx1 (d : Addr6) (ty : List Byte) (tl : Byte) : Packet :=
  frame [whole (d.toList ++ macA.toList ++ ty ++ ip4 tl [0xC0, 0xA8, 1, 1])]
/-- An IPv6 packet to `ff02::1` as TX gets it, with `n` bytes of headroom. -/
def tx6 (n : Nat) (src dst : Option Addr6) : Packet := ⟨2, 0x0FFF, 5, 0, src, dst, .none, [⟨z n ++ ip6 ff021, n, 40⟩]⟩
/-- An IPv4 packet to address `d` as TX gets it, with 14 bytes of headroom. -/
def tx4 (d : List Byte) : Packet := ⟨1, 0x0FFF, 0, 0, none, none, .none, [⟨z 14 ++ ip4 0x14 d, 14, 20⟩]⟩

/-- The context after `VLAN_INIT 0`, `VLAN_INIT 1`, `VLAN_ENABLE 0, 10` (vector V17). -/
def ctxV : Context := ⟨[⟨10, some 0⟩, ⟨0x0FFF, some 1⟩], 1, [true, false, false], true⟩
/-- Every operand register written; `OPPKT` is 1, `OPFRAG` 0. -/
def opsV : OperandRegs :=
  ⟨some macB, some #v[0xE0, 0x81, 2, 3], some #v[0, 0, 0, 0, 0, 0, 0, 0, 0x0A, 0x0B, 0x0C, 0x0D], some 1, some 0,
    some 0x0800, some true, some mac1, some true, some macA⟩
/-- A block launched with `c` that runs, with packet 1 placed, VLAN 10 on interface 0, and every operand written. -/
def st (c : Launch) (p : Packet) : State := { State.resetWith c with ctx := ctxV, ops := opsV, mem := [(1, p)] }
/-- The same before any VLAN command. -/
def st0 (c : Launch) (p : Packet) : State := { st c p with ctx := .reset c }
/-- CFG-A with ARP present. -/
def cfgArp : Launch := { Launch.cfgA with arpEnabled := true }
/-- A state of no packet and no VLAN, `OPA` holding `a`. -/
def stA (a : Addr6) : State := { State.reset with ops := { OperandRegs.reset with opA := some a } }

/-- The state after the host writes `CMD` with `w`, or the same state where the block stops. -/
def after (w : CmdWord) (s : State) : State :=
  match step { s with host := [.writeCmd w] } with
  | .next t => t
  | _ => s
/-- Packet 1, or a packet with nothing in it. -/
def pkt (s : State) : Packet := (s.mem.packet? 1).getD (frame [])
/-- The first `n` bytes of each fragment's buffer of packet 1. -/
def heads (n : Nat) (s : State) : List (List Byte) := (pkt s).frags.map fun f => f.buf.take n
/-- The bounds of packet 1's fragments: size, `off`, `len`. -/
def bounds (s : State) : List (Nat × Nat × Nat) := (pkt s).frags.map fun f => (f.buf.length, f.off, f.len)

/-! ### WellFormed: an interface index of more than 8 bits is refused -/

theorem test_ill_formed_ifx : ∀ i ∈ [Instr.vlanInit 256, .vlanEnable 256 1, .vlanDisable 300 1, .vlanIsEnabled 256,
    .vlanGetTag 256, .rx 256, .tx 256, .hdrBuild 256, .hdrReserve 256, .l2Enable 1000 true], i.wellFormed = false := by
  decide

theorem test_well_formed_ifx : ∀ i ∈ [Instr.clsBcast, .vlanLookup 0xFFF, .vlanEnable 255 0xFFF, .rx 0, .l2Enable 255 false],
    i.wellFormed = true := by decide

/-! ### Decode: the words of 95_test_vectors.md section 2 -/

theorem test_decode_classifier : decode 0x00000001 = .ok .clsBcast ∧ decode 0x00000002 = .ok .clsMcast := by decide
theorem test_decode_mapper :
    decode 0x00000003 = .ok .mapIpv6 ∧ decode 0x00000004 = .ok .mapIpv4 ∧ decode 0x00000005 = .ok .bcastAddr := by decide
theorem test_decode_vlan :
    decode 0x00000110 = .ok (.vlanInit 1) ∧ decode 0x01230111 = .ok (.vlanEnable 1 0x123)
      ∧ decode 0x0FFE0012 = .ok (.vlanDisable 0 4094) ∧ decode 0x00000213 = .ok (.vlanIsEnabled 2)
      ∧ decode 0x0FFF0014 = .ok (.vlanLookup 0xFFF) ∧ decode 0x00000115 = .ok (.vlanGetTag 1) := by decide
theorem test_decode_frames :
    decode 0x00000120 = .ok (.rx 1) ∧ decode 0x00000021 = .ok (.tx 0) ∧ decode 0x00000122 = .ok (.hdrBuild 1)
      ∧ decode 0x00000023 = .ok (.hdrReserve 0) ∧ decode 0x10000130 = .ok (.l2Enable 1 true) := by decide
theorem test_decode_reserved :
    decode 0x00000000 = .error .reservedOpcode ∧ decode 0x00000006 = .error .reservedOpcode
      ∧ decode 0x000000FF = .error .reservedOpcode := by decide
theorem test_decode_reserved_edges :
    decode 0x0F = .error .reservedOpcode ∧ decode 0x16 = .error .reservedOpcode ∧ decode 0x1F = .error .reservedOpcode
      ∧ decode 0x24 = .error .reservedOpcode ∧ decode 0x2F = .error .reservedOpcode ∧ decode 0x31 = .error .reservedOpcode := by
  decide
theorem test_decode_nonzero_field :
    decode 0x00000101 = .error .nonzeroField ∧ decode 0x20000001 = .error .nonzeroField
      ∧ decode 0x10000010 = .error .nonzeroField ∧ decode 0x00010010 = .error .nonzeroField
      ∧ decode 0x10000011 = .error .nonzeroField ∧ decode 0x00000114 = .error .nonzeroField
      ∧ decode 0x80000030 = .error .nonzeroField := by decide
theorem test_decode_table_word : decodeTableWord 32 0x01230111 = some (.vlanEnable 1 0x123) ∧ decodeTableWord 32 0 = none := by
  decide
/-- The word placed is the one the next step runs. -/
theorem test_withFetchWord : ∃ t, step (State.reset.withFetchWord 32 0x00000005) = .next t ∧ t.res.addr = some macB :=
  ⟨_, rfl, rfl⟩

/-! ### Illegal words, faults and acceptance (sections 2 and 10) -/

theorem test_illegal_items_1_2 : (after 0x00 State.reset).res.status = some 15 ∧ (after 0x101 State.reset).res.status = some 15 := by
  decide
theorem test_illegal_item_3 : (after 0x310 State.reset).res.status = some 15 ∧ (after 0xFF13 State.reset).res.status = some 15 := by
  decide
theorem test_illegal_item_4 : (after 0x220 State.reset).res.status = some 15 ∧ (after 0x230 State.reset).res.status = some 15 := by
  decide
theorem test_fault_unwritten_operand : (after 0x01 State.reset).faulted = true ∧ (after 0x01 State.reset).faultCause = 2 := by
  decide
theorem test_not_accepted_when_faulted : step { after 0x01 State.reset with host := [.writeCmd 0x05] } = .fault .notAccepted :=
  rfl
theorem test_host_read_after_reset : State.reset.hostRead .resStatus = none ∧ State.reset.hostRead .faulted = some (.bits 0) := by
  decide

/-! ### AddressClassifier (section 3) and MulticastMapper (section 4) -/

theorem test_clsBcast_boundary : (after 0x01 (stA macB)).res.bool = some true
    ∧ (after 0x01 (stA #v[0xFF, 0xFF, 0xFF, 0xFF, 0xFF, 0xFE])).res.bool = some false := by decide
theorem test_clsMcast_boundary : (after 0x02 (stA macB)).res.bool = some false
    ∧ (after 0x02 (stA #v[0x7F, 0xFF, 0xFF, 0xFF, 0xFF, 0xFF])).res.bool = some true
    ∧ (after 0x02 (stA #v[0xFE, 0xFF, 0xFF, 0xFF, 0xFF, 0xFF])).res.bool = some false := by decide
theorem test_mapIpv6_ends_abcd : (after 0x03 (st Launch.cfgA (frame []))).res.addr = some #v[0x33, 0x33, 0x0A, 0x0B, 0x0C, 0x0D] := by
  decide
theorem test_mapIpv4_clears_bit_7 :
    (after 0x04 (st Launch.cfgA (frame []))).res.addr = some #v[0x01, 0x00, 0x5E, 0x01, 0x02, 0x03] := by decide
theorem test_bcastAddr : (after 0x05 State.reset).res.addr = some macB ∧ (after 0x05 State.reset).res.bool = none := by decide

/-! ### VlanTable (section 5) -/

theorem test_vlanInit_first_slot : (after 0x10 State.reset).ctx = ⟨[⟨0xFFF, some 0⟩, ⟨0xFFF, none⟩], 0, [false, false, false], true⟩ := by
  decide
theorem test_vlanInit_no_vlan_cap : (after 0x210 State.reset).ctx = .reset Launch.cfgA := by decide
theorem test_vlanEnable_takes_slot : let t := after 0xA0011 (after 0x10 State.reset)
    t.ctx = ⟨[⟨10, some 0⟩, ⟨0xFFF, none⟩], 1, [true, false, false], true⟩ ∧ t.log = [.vlanSetup 0 10 true] := by decide
theorem test_vlanEnable_status_order : (after 0xFFF0211 State.reset).res.status = some 1
    ∧ (after 0xA0011 (st Launch.cfgA (frame []))).res.status = some 4
    ∧ (after 0x140011 (st Launch.cfgA (frame []))).res.status = some 5 := by decide
theorem test_vlanDisable_frees : let t := after 0xA0012 (st Launch.cfgA (frame []))
    t.ctx = ⟨[⟨0xFFF, some 0⟩, ⟨0xFFF, some 1⟩], 0, [false, false, false], true⟩ ∧ t.log = [.vlanSetup 0 10 false] := by decide
theorem test_vlanDisable_not_found : (after 0xA0012 State.reset).res.status = some 6 := by decide
theorem test_vlanIsEnabled_bits : (after 0x13 (st Launch.cfgA (frame []))).res.bool = some true
    ∧ (after 0x113 (st Launch.cfgA (frame []))).res.bool = some false := by decide
theorem test_vlanIsEnabled_all_slots : (after 0x213 (after 0xA0111 (st Launch.cfgA (frame [])))).res.bool = some true := by decide
theorem test_vlanLookup_fallback : let t := after 0x140014 (st Launch.cfgA (frame []))
    t.res.ifaceV = some true ∧ t.res.iface = some 1 := by decide
theorem test_vlanLookup_none : let t := after 0xA0014 State.reset
    t.res.ifaceV = some false ∧ t.res.iface = some 0 := by decide
theorem test_vlanGetTag : (after 0x15 (st Launch.cfgA (frame []))).res.tag = some 10
    ∧ (after 0x215 (st Launch.cfgA (frame []))).res.tag = some 0xFFF := by decide

/-! ### RX (section 6) -/

/-- RX1: accepted and stripped. -/
theorem test_rx1 : let t := after 0x20 (st0 Launch.cfgA (rx1 mac1 [8, 0] 0x14))
    t.res.verdict = some 1 ∧ t.res.reason = some 0 ∧ bounds t = [(34, 14, 20)]
      ∧ (pkt t).llSrc = some macA ∧ (pkt t).llDst = some mac1 ∧ (pkt t).llReserve = 14 ∧ (pkt t).family = 1 := by decide
/-- RX12: trimmed to the first fragment, the other released. -/
theorem test_rx12 : let t := after 0x20 (st0 Launch.cfgA (frame
      [⟨mac1.toList ++ macA.toList ++ [8, 0] ++ ip4 0x14 [0xC0, 0xA8, 1, 1] ++ z 26, 0, 40⟩, ⟨z 16, 0, 10⟩]))
    t.res.verdict = some 1 ∧ bounds t = [(60, 14, 20)] ∧ t.log = [.fragRelease 1 1] := by decide

/-! ### TX (section 7) -/

/-- TX1: the mapped destination, no source bytes written. -/
theorem test_tx1 : let t := after 0x21 (st0 Launch.cfgA (tx6 14 none none))
    t.res.verdict = some 0 ∧ heads 14 t = [[0x33, 0x33, 0, 0, 0, 1, 0, 0, 0, 0, 0, 0, 0x86, 0xDD]]
      ∧ t.log = [.txQueue 0 1] := by decide
/-- TX5: the tag of the owner's slot inserted, with the packet's priority. -/
theorem test_tx5 : let t := after 0x21 (st Launch.cfgA (tx6 18 (some mac1) (some macA)))
    heads 18 t = [[2, 0, 0, 0, 0, 0xAA, 2, 0, 0, 0, 0, 1, 0x81, 0, 0xA0, 0x0A, 0x86, 0xDD]]
      ∧ (pkt t).vlanTci = 0xA00A ∧ (pkt t).llReserve = 18 := by decide

/-! ### HDR_BUILD (section 8), HDR_RESERVE and L2_ENABLE (section 9) -/

/-- HB2: a VLAN header, the bytes before it unchanged. -/
theorem test_hdrBuild_vlan : let t := after 0x22 (st Launch.cfgA
      ⟨0, 0x600A, 0, 0, none, none, .none, [⟨List.replicate 20 0xEE ++ z 40, 20, 40⟩]⟩)
    heads 20 t = [[0xEE, 0xEE, 2, 0, 0, 0, 0, 0xAA, 2, 0, 0, 0, 0, 1, 0x81, 0, 0x60, 0x0A, 8, 0]] ∧ t.log = [] := by decide
/-- HB5: one byte of headroom short. -/
theorem test_hdrBuild_headroom : let t := after 0x22 (st0 Launch.cfgA (frame [⟨z 53, 13, 40⟩]))
    t.faulted = true ∧ t.faultCause = 1 ∧ t.mem = [(1, frame [⟨z 53, 13, 40⟩])] := by decide
theorem test_hdrReserve : (after 0x23 (st Launch.cfgA (frame []))).res.count = some 18
    ∧ (after 0x123 (st Launch.cfgA (frame []))).res.count = some 14 := by decide
theorem test_l2Enable : (after 0x30 (st cfgArp (frame []))).log = [.arpClear 0]
    ∧ (after 0x10000030 (st cfgArp (frame []))).log = [] ∧ (after 0x30 (st Launch.cfgA (frame []))).log = [] := by decide

/-! ### Witnesses: concrete states and operands that meet the hypotheses of each statement, clause by clause -/

/-- The record of interface 0 in CFG-A. -/
def if0 : Iface := ⟨true, mac1, true, true⟩
/-- The record of interface 1 in CFG-A. -/
def if1 : Iface := ⟨true, #v[2, 0, 0, 0, 0, 2], true, false⟩
/-- The record of interface 2 in CFG-A, not Ethernet. -/
def if2 : Iface := ⟨false, #v[2, 0, 0, 0, 0, 3], false, false⟩
/-- No packet placed, VLAN 10 on interface 0. -/
def sV : State := { st Launch.cfgA (frame []) with mem := [] }
/-- A `VLAN_COUNT = 1` block whose one slot is interface 0's. -/
def sOne : State := { sV with cfg := { Launch.cfgA with vlanCount := 1 }, ctx := ⟨[⟨10, some 0⟩], 1, [true, false, false], true⟩ }
/-- RX1's fragment. -/
def gRx1 : Frag := whole (mac1.toList ++ macA.toList ++ [8, 0] ++ ip4 0x14 [0xC0, 0xA8, 1, 1])
/-- A broadcast IPv6 frame with a VLAN header and nothing after it. -/
def gVlan : Frag := whole (macB.toList ++ macA.toList ++ [0x81, 0, 0x20, 0x0A, 0x86, 0xDD])
/-- An IPv4 frame to another station. -/
def gOther : Frag := whole ([2, 0, 0, 0, 0, 0x99] ++ macA.toList ++ [8, 0])
/-- A VLAN frame cut one byte short of its header. -/
def gVlanShort : Frag := whole (mac1.toList ++ macA.toList ++ [0x81, 0, 0x20, 0x0A, 8])
/-- A frame of an unknown type. -/
def gUnknown : Frag := whole (mac1.toList ++ macA.toList ++ [0x88, 0xCC])
/-- An IPv4 frame cut before its total length field. -/
def gShort : Frag := whole (mac1.toList ++ macA.toList ++ [8, 0, 0x45, 0, 0])

theorem witness_DecodeOfEncodeIsTheCommand : (Instr.vlanEnable 255 0xFFF).wellFormed = true
    ∧ (Instr.l2Enable 0 true).wellFormed = true ∧ (Instr.vlanLookup 0).wellFormed = true := by decide

theorem witness_EncodeOfDecodeIsTheWord : decode 0x0FFFFF12 = .ok (.vlanDisable 255 0xFFF) := by decide

theorem witness_DecodeFollowsTheOpcodeMap : wordOpc Op.vlanLookup.matchWord = wordOpc 0x0FFF0014
    ∧ (∃ i, decode 0x0FFF0014 = .ok i) ∧ (0x0FFF0014 : CmdWord) &&& Op.vlanLookup.mask = Op.vlanLookup.matchWord :=
  ⟨by decide, ⟨.vlanLookup 0xFFF, by decide⟩, by decide⟩

theorem witness_DecodedOperandsAreTheWordsFields : decode 0x0FFFFF11 = .ok (.vlanEnable 255 0xFFF)
    ∧ (Instr.vlanEnable 255 0xFFF).ifx? = some 255 ∧ decode 0x00000012 = .ok (.vlanDisable 0 0)
    ∧ decode 0x0FFF0014 = .ok (.vlanLookup 0xFFF) ∧ decode 0x10000030 = .ok (.l2Enable 0 true) := by decide

theorem witness_WriteOfCmdRunsTheDecodedCommand :
    ({ sV with host := [.writeCmd 5], faulted := true } : State).host = .writeCmd 5 :: []
    ∧ ({ sV with host := [.writeCmd 5], faulted := true } : State).faulted = true
    ∧ ({ sV with host := [.writeCmd 5] } : State).faulted = false ∧ decode 5 = .ok .bcastAddr
    ∧ decode 6 = .error .reservedOpcode := by decide

theorem witness_IllegalCommandChangesOnlyStatus_words :
    ({ sV with host := [.writeCmd 0] } : State).host = .writeCmd 0 :: [] ∧ sV.faulted = false
    ∧ (∀ o : Op, wordOpc o.matchWord ≠ wordOpc 0)
    ∧ wordOpc Op.clsBcast.matchWord = wordOpc 0x101 ∧ (0x101 : CmdWord) &&& Op.clsBcast.mask ≠ Op.clsBcast.matchWord :=
  ⟨rfl, rfl, fun o => by cases o <;> decide, by decide, by decide⟩

theorem witness_IllegalCommandChangesOnlyStatus_guards :
    (Instr.rx 3).ifx? = some 3 ∧ sV.cfg.numIfaces ≤ 3
    ∧ sV.cfg.ifaces[2]? = some if2 ∧ if2.isEth = false
    ∧ sV.cfg.ifaces[0]? = some if0 ∧ if0.isEth = true ∧ sV.ops.opPkt = some 1 ∧ sV.mem.packet? 1 = none
    ∧ (st Launch.cfgA (frame [])).mem.packet? 1 = some (frame []) ∧ sV.ops.opFrag = some 0
    ∧ (frame []).frags.length ≤ (0 : Byte).toNat := by decide

theorem witness_IllegalCommandChangesOnlyStatus_unwritten :
    State.reset.ops.opA = none ∧ State.reset.ops.opIpLo = none
    ∧ ({ sV with ops := { opsV with opIpHi := none } } : State).ops.opIpHi = none
    ∧ State.reset.cfg.ifaces[0]? = some if0 ∧ State.reset.ops.opPkt = none
    ∧ ({ opsV with opFrag := none } : OperandRegs).opFrag = none
    ∧ opsV.opFrag = some 0 ∧ (0 : Byte).toNat < (rx1 mac1 [8, 0] 0x14).frags.length
    ∧ ({ opsV with opSrcV := none } : OperandRegs).opSrcV = none
    ∧ ({ opsV with opSrc := none } : OperandRegs).opSrcV = some true ∧ ({ opsV with opSrc := none } : OperandRegs).opSrc = none
    ∧ ({ opsV with opDstV := none } : OperandRegs).opDstV = none
    ∧ ({ opsV with opDst := none } : OperandRegs).opDstV = some true ∧ ({ opsV with opDst := none } : OperandRegs).opDst = none
    ∧ ({ opsV with opType := none } : OperandRegs).opType = none := by decide

theorem witness_PacketHandedOverFaults : let s : State := { st Launch.cfgA (rx1 mac1 [8, 0] 0x14) with handedOver := [1] }
    s.cfg.ifaces[0]? = some if0 ∧ if0.isEth = true ∧ s.ops.opPkt = some 1
    ∧ s.mem.packet? 1 = some (rx1 mac1 [8, 0] 0x14) ∧ 1 ∈ s.handedOver ∧ s.ops.opFrag = some 0
    ∧ (0 : Byte).toNat < (rx1 mac1 [8, 0] 0x14).frags.length := by decide

theorem witness_OnlyResetLeavesAFault : ({ sV with faulted := true } : State).faulted = true
    ∧ (∃ t, step { sV with faulted := true, host := [.setOpFrag 0] } = .next t)
    ∧ (∀ rest, ({ sV with faulted := true, host := [.setOpFrag 0] } : State).host ≠ .reset :: rest)
    ∧ ∃ t, step { sV with faulted := true, host := [.reset] } = .next t :=
  ⟨rfl, ⟨_, rfl⟩, fun _ h => by simp at h, ⟨_, rfl⟩⟩

theorem witness_ResetGivesEveryElementItsValue : ({ sV with host := [.reset] } : State).host = .reset :: [] := rfl

theorem witness_HostActionsChangeOnlyWhatTheyName :
    sV.host = [] ∧ (∀ a : HostAction, ({ sV with host := [a] } : State).host = a :: [])
    ∧ (frame [⟨z 4, 1, 3⟩]).wf = true ∧ (frame [⟨z 4, 2, 3⟩]).wf = false := ⟨rfl, fun _ => rfl, by decide, by decide⟩

theorem witness_ResultRegistersHaveTheirWriters :
    (∃ t, exec .bcastAddr sV = .next t ∧ sV.faulted = false ∧ t.faulted = false)
    ∧ Instr.bcastAddr.op ∉ [Op.clsBcast, .clsMcast, .vlanIsEnabled] ∧ Instr.bcastAddr.op ≠ .vlanLookup
    ∧ Instr.bcastAddr.op ≠ .vlanGetTag ∧ Instr.bcastAddr.op ≠ .hdrReserve ∧ Instr.bcastAddr.op ∉ [Op.rx, .tx]
    ∧ (∃ t, exec (.rx 0) sV = .next t) ∧ (Instr.rx 0).op ∉ [Op.mapIpv6, .mapIpv4, .bcastAddr] :=
  ⟨⟨_, rfl, rfl, rfl⟩, by decide, by decide, by decide, by decide, by decide, ⟨_, rfl⟩, by decide⟩

theorem witness_OnlyVlanManagementChangesTheContext : (∃ t, exec (.tx 0) sV = .next t)
    ∧ (Instr.tx 0).op ∉ [Op.vlanInit, .vlanEnable, .vlanDisable] := ⟨⟨_, rfl⟩, by decide⟩

theorem witness_InitIsSetByVlanInitAndClearedByReset :
    (∃ t, exec (.vlanInit 0) State.reset = .next t ∧ State.reset.ctx.init = false ∧ t.ctx.init = true)
    ∧ (∃ t, step { sV with host := [.writeCmd 5] } = .next t) ∧ sV.ctx.init = true :=
  ⟨⟨_, rfl, rfl, rfl⟩, ⟨_, rfl⟩, rfl⟩

theorem witness_EventLogOnlyGrows : (∃ t, exec (.l2Enable 0 false) { sV with cfg := cfgArp } = .next t ∧ t.log ≠ [])
    ∧ ∃ t, step { sV with host := [.reset] } = .next t := ⟨⟨_, rfl, by decide⟩, ⟨_, rfl⟩⟩

theorem witness_ReadingCommandsChangeOnlyResultsAndRepeat :
    (Instr.vlanLookup 10).op ∈ [Op.clsBcast, .clsMcast, .mapIpv6, .mapIpv4, .bcastAddr, .vlanIsEnabled, .vlanLookup,
      .vlanGetTag, .hdrReserve]
    ∧ ∃ t, exec (.vlanLookup 10) sV = .next t ∧ sV.faulted = false ∧ t.faulted = false := ⟨by decide, ⟨_, rfl, rfl, rfl⟩⟩

theorem witness_RxAndHdrBuildSeeOnlyTheirPacket : let s := st Launch.cfgA (rx1 mac1 [8, 0] 0x14)
    let m : Memory := [(1, rx1 mac1 [8, 0] 0x14), (2, frame [])]
    s.ops.opPkt = some 1 ∧ m.packet? 1 = s.mem.packet? 1
    ∧ (∃ t, exec (.rx 0) s = .next t) ∧ (∃ t, exec (.rx 0) { s with mem := m } = .next t)
    ∧ (∃ t, exec (.hdrBuild 0) s = .next t) ∧ ∃ t, exec (.hdrBuild 0) { s with mem := m } = .next t :=
  ⟨rfl, by decide, ⟨_, rfl⟩, ⟨_, rfl⟩, ⟨_, rfl⟩, ⟨_, rfl⟩⟩

/-- A state other than reset, with a packet and a VLAN, meets the invariant, and a step runs from it. -/
theorem witness_StepKeepsTheInvariant : State.Inv { st Launch.cfgA (rx1 mac1 [8, 0] 0x14) with host := [.writeCmd 0x20] }
    ∧ ∃ t, step { st Launch.cfgA (rx1 mac1 [8, 0] 0x14) with host := [.writeCmd 0x20] } = .next t :=
  ⟨⟨by decide, by decide, fun _ => by decide, by decide, by decide⟩, ⟨_, rfl⟩⟩

theorem witness_ResetMeetsTheInvariant : Launch.cfgA.wf = true ∧ sOne.cfg.wf = true := by decide

theorem witness_EnabledCountIsConsistentFromReset : Launch.cfgA.wf = true
    ∧ Memory.wf [(1, frame [whole [1]])] = true ∧ ∃ s, Sys2Proof.core.run 2 { State.resetWith Launch.cfgA with
        host := [.writeCmd 0x10, .writeCmd 0xA0011], mem := [(1, frame [whole [1]])], arpInputs := [], arpResolves := [] }
        = .next s := ⟨by decide, by decide, ⟨_, rfl⟩⟩

theorem witness_SlotsStayBoundAndDistinct : ctxV.sound Launch.cfgA ∧ ctxV.slots[0]? = some ⟨10, some 0⟩
    ∧ (10 : Tag) ≠ Launch.cfgA.tagUnspec ∧ sV.cfg.initFree = .unbound
    ∧ (∃ t, step { sV with host := [.writeCmd 0xA0012] } = .next t) ∧ sV.ctx.slots[1]? = some ⟨0xFFF, some 1⟩ :=
  ⟨by decide, rfl, by decide, rfl, ⟨_, rfl⟩, rfl⟩

theorem witness_classifier_and_mapper_operands : sV.ops.opA = some macB ∧ (stA mac1).ops.opA = some mac1
    ∧ sV.ops.opIpLo = some #v[0xE0, 0x81, 2, 3] ∧ sV.ops.opIpHi = some #v[0, 0, 0, 0, 0, 0, 0, 0, 0x0A, 0x0B, 0x0C, 0x0D] := by
  decide

/-- Slot 0 is the first that meets what it meets. -/
theorem first0 {ss : List Slot} {P : Slot → Prop} (sl : Slot) (h : ss[0]? = some sl) (hp : P sl) : isFirstSlot ss P 0 :=
  ⟨⟨sl, h, hp⟩, fun j hj => absurd hj (Nat.not_lt_zero j)⟩

/-- Slot 1 is the first, when slot 0 does not meet it. -/
theorem first1 {ss : List Slot} {P : Slot → Prop} (a b : Slot) (h0 : ss[0]? = some a) (h1 : ss[1]? = some b) (ha : ¬ P a)
    (hb : P b) : isFirstSlot ss P 1 :=
  ⟨⟨b, h1, hb⟩, fun j hj sl h => by
    obtain rfl : j = 0 := by omega
    rw [h0] at h; cases h; exact ha⟩

theorem witness_VlanInitBindsTheFirstFreeSlot :
    (sV.cfg.ifaces[2]? = some if2 ∧ if2.vlanCap = false) ∧ (sV.cfg.ifaces[0]? = some if0 ∧ ∃ sl ∈ sV.ctx.slots, sl.bound = some 0)
    ∧ (sOne.cfg.ifaces[1]? = some if1 ∧ if1.vlanCap = true ∧ (∀ sl ∈ sOne.ctx.slots, sl.bound ≠ some 1)
      ∧ ∀ sl ∈ sOne.ctx.slots, ¬ (sl.tag = sOne.cfg.tagUnspec ∧ (sOne.cfg.initFree = .unbound → sl.bound = none)))
    ∧ ((∀ sl ∈ State.reset.ctx.slots, sl.bound ≠ some 0)
      ∧ isFirstSlot State.reset.ctx.slots
        (fun sl => sl.tag = State.reset.cfg.tagUnspec ∧ (State.reset.cfg.initFree = .unbound → sl.bound = none)) 0) :=
  ⟨by decide, by decide, by decide, by decide, first0 ⟨0xFFF, none⟩ rfl (by decide)⟩

theorem witness_VlanInitIsIdempotent : (∃ t, exec (.vlanInit 0) State.reset = .next t) ∧ sV.cfg.ifaces[0]? = some if0
    ∧ (∃ sl ∈ sV.ctx.slots, sl.bound = some 0) ∧ (∃ t, exec (.vlanInit 0) sV = .next t)
    ∧ sV.cfg.ifaces[2]? = some if2 ∧ if2.vlanCap = false ∧ ∃ t, exec (.vlanInit 2) sV = .next t :=
  ⟨⟨_, rfl⟩, by decide, by decide, ⟨_, rfl⟩, by decide, by decide, ⟨_, rfl⟩⟩

/-- Vector W2's state: `unspec_only`, slot 0 free and bound to interface 0. -/
def sW : State := { sV with
  cfg := { Launch.cfgA with initFree := .unspecOnly }
  ctx := ⟨[⟨0xFFF, some 0⟩, ⟨0xFFF, none⟩], 0, [false, false, false], true⟩ }

theorem witness_UnspecOnlyInitRebinds :
    (sW.cfg.initFree = .unspecOnly ∧ sW.ctx.sound sW.cfg ∧ sW.cfg.ifaces[1]? = some if1 ∧ if1.vlanCap = true
      ∧ (∀ x ∈ sW.ctx.slots, x.bound ≠ some 1) ∧ isFirstSlot sW.ctx.slots (fun x => x.tag = sW.cfg.tagUnspec) 0
      ∧ sW.ctx.slots[0]? = some ⟨0xFFF, some 0⟩ ∧ sW.cfg.ifaces[0]? = some if0 ∧ if0.isEth = true
      ∧ (10 : Tag) ≠ sW.cfg.tagUnspec ∧ ∃ t, exec (.vlanInit 1) sW = .next t)
    ∧ sV.cfg.initFree = .unbound ∧ (∃ t, exec (.vlanInit 1) sV = .next t) ∧ sV.ctx.slots[0]? = some ⟨10, some 0⟩ :=
  ⟨⟨rfl, by decide, by decide, by decide, by decide, first0 ⟨0xFFF, some 0⟩ rfl rfl, rfl, by decide, by decide, by decide,
    ⟨_, rfl⟩⟩, rfl, ⟨_, rfl⟩, rfl⟩

theorem witness_VlanEnableTakesTheFreeSlot : sV.cfg.ifaces[1]? = some if1 ∧ if1.isEth = true ∧ sV.ctx.init = true
    ∧ (10 : Tag) ≠ sV.cfg.tagUnspec ∧ (∀ sl ∈ sV.ctx.slots, ¬ (sl.bound = some 1 ∧ sl.tag = 10))
    ∧ isFirstSlot sV.ctx.slots (fun sl => sl.bound = some 1 ∧ sl.tag = sV.cfg.tagUnspec) 1 :=
  ⟨by decide, by decide, by decide, by decide, by decide,
    first1 ⟨10, some 0⟩ ⟨0xFFF, some 1⟩ rfl rfl (by decide) (by decide)⟩

theorem witness_VlanEnableReportsTheFirstFailure : (sV.cfg.ifaces[2]? = some if2 ∧ if2.isEth = false)
    ∧ (State.reset.cfg.ifaces[0]? = some if0 ∧ State.reset.ctx.init = false)
    ∧ (0xFFF : Tag) = sV.cfg.tagUnspec ∧ (∃ sl ∈ sV.ctx.slots, sl.bound = some 0 ∧ sl.tag = 10)
    ∧ ∀ sl ∈ sV.ctx.slots, ¬ (sl.bound = some 0 ∧ sl.tag = sV.cfg.tagUnspec) := by decide

theorem witness_VlanDisableFreesTheSlot : (sV.cfg.ifaces[2]? = some if2 ∧ if2.isEth = false)
    ∧ (0xFFF : Tag) = sV.cfg.tagUnspec ∧ (∀ sl ∈ sV.ctx.slots, ¬ (sl.bound = some 0 ∧ sl.tag = 20))
    ∧ sV.cfg.ifaces[0]? = some if0 ∧ if0.isEth = true ∧ (10 : Tag) ≠ sV.cfg.tagUnspec
    ∧ isFirstSlot sV.ctx.slots (fun sl => sl.bound = some 0 ∧ sl.tag = 10) 0 :=
  ⟨by decide, by decide, by decide, by decide, by decide, by decide, first0 ⟨10, some 0⟩ rfl (by decide)⟩

theorem witness_VlanEnableDisableRoundTrip : sV.cfg.wf = true ∧ sV.ctx.sound sV.cfg ∧ sV.cfg.ifaces[1]? = some if1
    ∧ if1.isEth = true ∧ sV.ctx.init = true ∧ (10 : Tag) ≠ sV.cfg.tagUnspec
    ∧ ∃ sl ∈ sV.ctx.slots, sl.bound = some 1 ∧ sl.tag = sV.cfg.tagUnspec := by decide

theorem witness_VlanIsEnabledTellsCountOrBit : sV.cfg.ifaces[0]? = some if0 ∧ sOne.cfg.ifaces[2]? = some if2
    ∧ sOne.ctx.sound sOne.cfg ∧ ∀ sl ∈ sOne.ctx.slots, sl.tag ≠ sOne.cfg.tagUnspec := by decide

theorem witness_VlanLookupFindsTheFirstSlot :
    ((10 : Tag) ≠ sV.cfg.tagUnspec ∧ isFirstSlot sV.ctx.slots (fun x => x.tag = 10) 0 ∧ sV.ctx.slots[0]? = some ⟨10, some 0⟩)
    ∧ (0xFFF : Tag) = sV.cfg.tagUnspec ∧ (∀ x ∈ sV.ctx.slots, x.tag ≠ 20)
    ∧ isFirstSlot sV.ctx.slots (fun x => x.tag = sV.cfg.tagUnspec ∧ x.bound ≠ none) 1
    ∧ sV.ctx.slots[1]? = some ⟨0xFFF, some 1⟩
    ∧ (∀ x ∈ State.reset.ctx.slots, x.tag ≠ 10)
    ∧ ∀ x ∈ State.reset.ctx.slots, ¬ (x.tag = State.reset.cfg.tagUnspec ∧ x.bound ≠ none) :=
  ⟨⟨by decide, first0 ⟨10, some 0⟩ rfl rfl, rfl⟩, by decide, by decide,
    first1 ⟨10, some 0⟩ ⟨0xFFF, some 1⟩ rfl rfl (by decide) (by decide), rfl, by decide, by decide⟩

theorem witness_VlanGetTagReadsTheBoundSlot : sV.cfg.ifaces[1]? = some if1
    ∧ isFirstSlot sV.ctx.slots (fun x => x.bound = some 1) 1 ∧ sV.ctx.slots[1]? = some ⟨0xFFF, some 1⟩
    ∧ sV.cfg.ifaces[2]? = some if2 ∧ ∀ x ∈ sV.ctx.slots, x.bound ≠ some 2 :=
  ⟨by decide, first1 ⟨10, some 0⟩ ⟨0xFFF, some 1⟩ rfl rfl (by decide) (by decide), rfl, by decide, by decide⟩

/-- RX1's frame on interface 1 (VLAN not active) and a VLAN frame on interface 0, each ready, with its header. -/
theorem witness_rx_ready : (st Launch.cfgA (frame [gRx1])).ready 0 if0 1 (frame [gRx1])
    ∧ (st Launch.cfgA (frame [gRx1])).rxHeader 0 (frame [gRx1]) gRx1 14 0x0800
    ∧ (st Launch.cfgA (frame [gVlan])).ready 0 if0 1 (frame [gVlan])
    ∧ (st Launch.cfgA (frame [gVlan])).rxHeader 0 (frame [gVlan]) gVlan 18 0x86DD
    ∧ Launch.cfgA.typed 0x0800 1 false ∧ Launch.cfgA.typed 0x0806 1 true ∧ Launch.cfgA.typed 0x86DD 2 false :=
  ⟨by decide, by decide, by decide, by decide, by decide, by decide, by decide⟩

theorem witness_RxFiltersAndDelivers :
    (st Launch.cfgA (frame [gOther])).ready 0 if0 1 (frame [gOther])
    ∧ (st Launch.cfgA (frame [gOther])).rxHeader 0 (frame [gOther]) gOther 14 0x0800
    ∧ groupBit (addr6At gOther.buf gOther.off) = false ∧ addr6At gOther.buf gOther.off ≠ if0.linkAddr
    ∧ addr6At gRx1.buf gRx1.off = if0.linkAddr ∧ groupBit macB = true
    ∧ ipDeclaredLen Launch.cfgA (rxStripped 14 1 gRx1 (frame [gRx1])) = some 20 := by decide

/-- Declared length 20 against 20 bytes (no trim), and against 46 (trim). -/
theorem witness_RxTrimsToTheDeclaredLength :
    ipDeclaredLen Launch.cfgA (rxStripped 14 1 gRx1 (frame [gRx1])) = some 20
    ∧ (rxStripped 14 1 gRx1 (frame [gRx1])).len ≤ 20 ∧ (frame [gRx1]).wf = true
    ∧ ipDeclaredLen Launch.cfgA (rxStripped 14 1 gRx1 (frame [gRx1, whole (z 26)])) = some 20
    ∧ 20 < (rxStripped 14 1 gRx1 (frame [gRx1, whole (z 26)])).len ∧ (frame [gRx1, whole (z 26)]).wf = true
    ∧ (st Launch.cfgA (frame [gRx1, whole (z 26)])).ready 0 if0 1 (frame [gRx1, whole (z 26)])
    ∧ (st Launch.cfgA (frame [gRx1, whole (z 26)])).rxHeader 0 (frame [gRx1, whole (z 26)]) gRx1 14 0x0800 := by decide

/-- A frame whose IPv4 header declares length 0 (93_implementation_defined.md U26), and a second fragment. -/
def pZero : Packet := frame [whole (mac1.toList ++ macA.toList ++ [8, 0] ++ ip4 0 [0xC0, 0xA8, 1, 1]), whole (z 26)]

theorem witness_RxTrimsToTheDeclaredLength_zero : ∀ g ∈ pZero.frags.head?,
    (st Launch.cfgA pZero).ready 0 if0 1 pZero ∧ (st Launch.cfgA pZero).rxHeader 0 pZero g 14 0x0800
    ∧ addr6At g.buf g.off = if0.linkAddr ∧ ipDeclaredLen Launch.cfgA (rxStripped 14 1 g pZero) = some 0
    ∧ 0 < (rxStripped 14 1 g pZero).len ∧ pZero.wf = true := by
  intro g hg; cases hg; decide

/-- Declared length 0: the first fragment is kept with length 0 and the second released (43_frame_receiver.md R159). -/
theorem test_rx_zero_length : let t := after 0x20 (st Launch.cfgA pZero)
    bounds t = [(34, 14, 0)] ∧ t.log = [.fragRelease 1 1] ∧ t.res.verdict = some 1 := by decide

theorem witness_RxDropsMalformedAndUnknownFrames :
    (st Launch.cfgA (frame [])).ready 0 if0 1 (frame []) ∧ (frame []).frags = []
    ∧ (∃ g ∈ (frame [⟨z 16, 0, 13⟩]).frags.head?, g.len < 14)
    ∧ (st Launch.cfgA (frame [gVlanShort])).vlanActive 0 = true
    ∧ be16 gVlanShort.buf (gVlanShort.off + 12) = Launch.cfgA.etypeVlan ∧ gVlanShort.len < 18
    ∧ (st Launch.cfgA (frame [gUnknown])).ready 0 if0 1 (frame [gUnknown])
    ∧ (st Launch.cfgA (frame [gUnknown])).rxHeader 0 (frame [gUnknown]) gUnknown 14 0x88CC
    ∧ (0x88CC : Half) ≠ Launch.cfgA.etypeIpv4 ∧ (0x88CC : Half) ≠ Launch.cfgA.etypeArp
    ∧ (0x88CC : Half) ≠ Launch.cfgA.etypeIpv6
    ∧ (st Launch.cfgA (frame [gShort])).ready 0 if0 1 (frame [gShort])
    ∧ (st Launch.cfgA (frame [gShort])).rxHeader 0 (frame [gShort]) gShort 14 0x0800
    ∧ addr6At gShort.buf gShort.off = if0.linkAddr
    ∧ ipDeclaredLen Launch.cfgA (rxStripped 14 1 gShort (frame [gShort])) = none := by decide

/-- The frame of vectors RX18 to RX20, cut after four bytes of its ARP body. -/
def gArp : Frag := whole (macB.toList ++ macA.toList ++ [8, 6, 0, 1, 8, 0])

/-- CFG-A with `ARP_FRAME_WITHOUT_ARP = forward` (95_test_vectors.md). -/
def cfgFwd : Launch := { Launch.cfgA with arpFrames := .forward }
/-- That frame cut before the bytes the IPv4 total length stands in. -/
def gArpCut : Frag := whole (macB.toList ++ macA.toList ++ [8, 6, 0, 1, 8])
/-- One whose bytes there say 2, with more after them. -/
def gArpLong : Frag := whole (macB.toList ++ macA.toList ++ [8, 6, 0, 1, 0, 2, 6, 4])

/-- The frame that goes on as an IPv4-family frame: no declared length, one that is no shorter, and one that trims. -/
theorem witness_RxHandsArpFramesToArp_forward : cfgFwd.arpEnabled = false ∧ cfgFwd.arpFrames = .forward
    ∧ (st cfgFwd (frame [gArpCut])).ready 0 if0 1 (frame [gArpCut])
    ∧ (st cfgFwd (frame [gArpCut])).rxHeader 0 (frame [gArpCut]) gArpCut 14 0x0806
    ∧ ipDeclaredLen cfgFwd (rxStripped 14 1 gArpCut (frame [gArpCut])) = none
    ∧ ipDeclaredLen cfgFwd (rxStripped 14 1 gArp (frame [gArp])) = some 0x0800
    ∧ (st cfgFwd (frame [gArpLong])).rxHeader 0 (frame [gArpLong]) gArpLong 14 0x0806
    ∧ ipDeclaredLen cfgFwd (rxStripped 14 1 gArpLong (frame [gArpLong])) = some 2
    ∧ 2 < (rxStripped 14 1 gArpLong (frame [gArpLong])).len :=
  ⟨by decide, by decide, by decide, by decide, by decide, by decide, by decide, by decide, by decide⟩

theorem witness_RxHandsArpFramesToArp :
    (st cfgArp (frame [gArp])).ready 0 if0 1 (frame [gArp]) ∧ (st cfgArp (frame [gArp])).rxHeader 0 (frame [gArp]) gArp 14 0x0806
    ∧ cfgArp.typed 0x0806 1 true ∧ groupBit (addr6At gArp.buf gArp.off) = true ∧ cfgArp.arpEnabled = true
    ∧ ({ st cfgArp (frame [gArp]) with arpInputs := [⟨.cont, []⟩] } : State).arpInputs = [⟨.cont, []⟩]
    ∧ Launch.cfgA.arpEnabled = false ∧ Launch.cfgA.arpFrames = .drop := by decide

theorem witness_RxWritesNoBufferByte : let s := st Launch.cfgA (frame [gRx1])
    s.ops.opPkt = some 1 ∧ (∃ t, exec (.rx 0) s = .next t ∧ t.log ≠ s.log ++ [.arpInput 1]
      ∧ ∃ q, t.mem.packet? 1 = some q ∧ 0 < q.frags.length) ∧ s.mem.packet? 1 = some (frame [gRx1]) :=
  ⟨rfl, ⟨_, rfl, by decide, _, rfl, by decide⟩, rfl⟩

/-- TX: interface 1 with 14 bytes of headroom, where VLAN processing is not active. -/
theorem witness_TxWritesTheHeaderInEveryFragment : let p := tx6 14 (some macB) (some macA)
    let s := st Launch.cfgA p
    s.ready 1 if1 1 p ∧ s.txDirect p ∧ p.llDst = some macA
    ∧ s.txTagged 1 { p with llSrc := txSource if1 p } 0x0FFF ∧ p.wf = true ∧ p.headroom (s.headerReserve 1) :=
  ⟨by decide, by decide, rfl, by unfold State.txTagged; rw [if_neg (by decide)]; rfl, by decide, by decide⟩

/-- TX: interface 0 with 18 bytes of headroom, where the owner's slot gives the tag (vector TX5), and one with a tag of
its own (vector TX7). -/
theorem witness_TxWritesTheHeaderInEveryFragment_vlan : let p := tx6 18 (some mac1) (some macA)
    let s := st Launch.cfgA p
    s.ready 0 if0 1 p ∧ s.txDirect p ∧ s.txTagged 0 { p with llSrc := txSource if0 p } 0xA00A
    ∧ s.txTagged 0 { p with vlanTci := 0x0014, llSrc := txSource if0 p } 0xA014 ∧ p.wf = true
    ∧ p.headroom (s.headerReserve 0) := by
  refine ⟨by decide, by decide, ?_, ?_, by decide, by decide⟩ <;> unfold State.txTagged <;> rw [if_pos (by decide)]
  · refine ⟨by decide, by decide, ?_⟩
    rw [if_pos (by decide)]
    exact ⟨0, 0, ⟨10, some 0⟩, by decide, first0 ⟨10, some 0⟩ rfl rfl, rfl, by decide⟩
  · refine ⟨by decide, by decide, ?_⟩
    rw [if_neg (by decide)]
    decide

/-- An IPv6 packet whose first fragment is one header's prefix: its destination cannot be read. -/
def p6Short : Packet := { tx6 14 none none with frags := [⟨z 44, 14, 30⟩] }
/-- An IPv4 packet whose destination cannot be read. -/
def p4Short : Packet := { tx4 [] with frags := [⟨z 30, 14, 16⟩] }
/-- Vector TX1's packet. -/
def p6 : Packet := tx6 14 none none
/-- IPv4 packets to a host, to the subnet broadcast address, and to a multicast address. -/
def p4 : Packet := tx4 [0xC0, 0xA8, 1, 7]
def p4Bcast : Packet := tx4 [0xC0, 0xA8, 1, 0xFF]
def p4Mcast : Packet := tx4 [0xE0, 0, 0, 0xFB]

theorem witness_TxFillsInTheDestination :
    (st Launch.cfgA p6Short).ready 1 if1 1 p6Short ∧ (st Launch.cfgA p6Short).txDirect p6Short ∧ p6Short.llDst = none
    ∧ p6Short.family = 2 ∧ ipv6Dst Launch.cfgA p6Short = none
    ∧ (st Launch.cfgA p4).ready 1 if1 1 p4 ∧ (st Launch.cfgA p4).txDirect p4 ∧ p4.llDst = none ∧ p4.family = 1
    ∧ p4.wf = true ∧ p4.headroom ((st Launch.cfgA p4).headerReserve 1)
    ∧ (st Launch.cfgA p6).ready 1 if1 1 p6 ∧ (st Launch.cfgA p6).txDirect p6 ∧ p6.llDst = none ∧ p6.wf = true
    ∧ p6.headroom ((st Launch.cfgA p6).headerReserve 1)
    ∧ ipv6Dst Launch.cfgA p6 = some #v[0xFF, 2, 0, 0, 0, 0, 0, 0, 0, 0, 0, 0, 0, 0, 0, 1] := by decide

theorem witness_TxFillsInTheDestination_tci : let p := tx6 14 none none
    (st Launch.cfgA p).txTagged 1 { p with llSrc := txSource if1 p, llDst := some #v[0x33, 0x33, 0, 0, 0, 1] } 0x0FFF := by
  intro p; unfold State.txTagged; rw [if_neg (by decide)]; rfl

theorem witness_TxIpv6MulticastHeader : let p := tx6 14 none none
    let s := st Launch.cfgA p
    s.ready 1 if1 1 p ∧ p.family = 2 ∧ p.llDst = none
    ∧ ipv6Dst s.cfg p = some #v[0xFF, 2, 0, 0, 0, 0, 0, 0, 0, 0, 0, 0, 0, 0, 0, 1] ∧ s.vlanActive 1 = false ∧ p.wf = true
    ∧ p.headroom 14 := by decide

theorem witness_TxIpv4ShortcutSkipsArp :
    (st cfgArp p4Short).ready 1 if1 1 p4Short ∧ cfgArp.arpEnabled = true ∧ p4Short.family = 1 ∧ ipv4Dst cfgArp p4Short = none
    ∧ (st cfgArp p4Bcast).ready 1 if1 1 p4Bcast ∧ ipv4Dst cfgArp p4Bcast = some #v[0xC0, 0xA8, 1, 0xFF]
    ∧ (st cfgArp p4Bcast).txShortcut 1 #v[0xC0, 0xA8, 1, 0xFF] ∧ p4Bcast.wf = true
    ∧ p4Bcast.headroom ((st cfgArp p4Bcast).headerReserve 1)
    ∧ (st cfgArp p4Mcast).txShortcut 1 #v[0xE0, 0, 0, 0xFB] ∧ (st cfgArp p4Mcast).txShortcut 1 #v[0xEF, 0xFF, 0xFF, 0xFF]
    ∧ ¬ (st cfgArp p4Mcast).txShortcut 1 #v[0xDF, 0xFF, 0xFF, 0xFF]
    ∧ ¬ (st cfgArp p4Mcast).txShortcut 1 #v[0xF0, 0, 0, 0] :=
  ⟨by decide, by decide, by decide, by decide, by decide, by decide, by decide, by decide, by decide, by decide, by decide,
    by decide, by decide⟩

theorem witness_TxIpv4ShortcutSkipsArp_tci : let p := tx4 [0xE0, 0, 0, 0xFB]
    (st cfgArp p).txTagged 1
      { p with llSrc := some if1.linkAddr, llDst := some #v[1, 0, 0x5E, 0, 0, 0xFB], llType := .ethernet } 0x0FFF := by
  intro p; unfold State.txTagged; rw [if_neg (by decide)]; rfl

/-- The packet of vectors TX15 to TX18, and what ARP makes of it. -/
def pArp : Packet := tx4 [0xC0, 0xA8, 1, 7]
/-- ARP's answer of vector TX16, under handle 2 (TX17), with reserve `n`. -/
def arpAnswer (n : BitVec 8) : ArpResolveReply :=
  ⟨some 2, [(2, some ⟨1, 0x0FFF, 0, n, none, none, .none, [⟨macA.toList ++ mac1.toList ++ [8, 0] ++ z 20, 14, 20⟩]⟩)]⟩

theorem witness_TxFollowsTheArpAnswer : let s := { st cfgArp pArp with arpResolves := [arpAnswer 14] }
    s.ready 0 if0 1 pArp ∧ s.cfg.arpEnabled = true ∧ pArp.family = 1 ∧ ipv4Dst s.cfg pArp = some #v[0xC0, 0xA8, 1, 7]
    ∧ ¬ s.txShortcut 0 #v[0xC0, 0xA8, 1, 7] ∧ (⟨none, []⟩ : ArpResolveReply).packet = none ∧ (arpAnswer 14).packet = some 2
    ∧ (∃ q, (s.mem.changes (arpAnswer 14).store).packet? 2 = some q
      ∧ ∃ g, q.frags.head? = some g ∧ 12 ≤ q.llReserve.toNat ∧ q.llReserve.toNat ≤ g.off)
    ∧ (∀ q g, (s.mem.changes (arpAnswer 11).store).packet? 2 = some q → q.frags.head? = some g →
        q.llReserve.toNat < 12 ∨ g.off < q.llReserve.toNat)
    ∧ (s.mem.changes [(2, none)]).packet? 2 = none :=
  ⟨by decide, by decide, by decide, by decide, by decide, by decide, by decide, ⟨_, rfl, _, rfl, by decide, by decide⟩,
    fun q g hq hg => by cases hq; cases hg; decide, by decide⟩

theorem witness_TxCompletesWhateverArpAnswers : let s := st cfgArp pArp
    s.ready 0 if0 1 pArp ∧ s.cfg.arpEnabled = true ∧ pArp.family = 1 ∧ ipv4Dst s.cfg pArp = some #v[0xC0, 0xA8, 1, 7]
    ∧ ¬ s.txShortcut 0 #v[0xC0, 0xA8, 1, 7] ∧ s.faulted = false := by decide

/-- Packet `p` on a `VLAN_COUNT = 1` block (vector TX8), whose interface 1 has no slot. -/
def sOneP (p : Packet) : State := { sOne with mem := [(1, p)] }

/-- Its three ways to the header: a destination set, one filled in, and the IPv4 shortcut. -/
theorem witness_TxDropsUntaggedWithoutASlot : let p := tx6 10 none (some macA)
    (sOneP p).ready 1 if1 1 p
    ∧ (sOneP p).txAddressed 1 if1 p p
    ∧ (sOneP p6).txAddressed 1 if1 p6 { p6 with llDst := some #v[0x33, 0x33, 0, 0, 0, 1] }
    ∧ { sOneP p4Mcast with cfg := { sOne.cfg with arpEnabled := true } }.txAddressed 1 if1 p4Mcast
        { p4Mcast with
          llSrc := some if1.linkAddr, llDst := some #v[0x01, 0x00, 0x5E, 0, 0, 0xFB], llType := .ethernet }
    ∧ (sOneP p).vlanActive 1 = true ∧ tciVid p.vlanTci = sOne.cfg.tagUnspec
    ∧ (∀ j, ownerOf sOne.cfg p 1 = some j → ∀ sl ∈ sOne.ctx.slots, sl.bound ≠ some j)
    ∧ ownerOf { sOne.cfg with owner := .always none } p 1 = none :=
  ⟨by decide, .inl ⟨.inl rfl, macA, rfl, .inl rfl⟩,
    .inl ⟨.inl rfl, _, rfl, .inr (.inr ⟨rfl, rfl, #v[0xFF, 2, 0, 0, 0, 0, 0, 0, 0, 0, 0, 0, 0, 0, 0, 1], by decide, by decide⟩)⟩,
    .inr ⟨rfl, rfl, #v[0xE0, 0, 0, 0xFB], by decide, by decide, by decide⟩,
    by decide, by decide, fun j hj => by obtain rfl : 1 = j := Option.some.inj hj; decide, rfl⟩

/-- One byte of headroom short, plain (vector TX9), a destination set. -/
theorem witness_TxWithoutHeadroomFaultsBeforeWriting : let p := tx6 13 none (some macA)
    let s := st Launch.cfgA p
    s.ready 1 if1 1 p ∧ s.txAddressed 1 if1 p p ∧ s.txTagged 1 p 0x0FFF ∧ ¬ p.headroom (s.headerReserve 1)
    ∧ s.faulted = false ∧ ∃ t, exec (.tx 1) s = .next t ∧ t.faulted = true ∧ t.faultCause = 1 :=
  ⟨by decide, .inl ⟨.inl rfl, macA, rfl, .inl rfl⟩, by unfold State.txTagged; rw [if_neg (by decide)]; rfl, by decide, rfl,
    ⟨_, rfl, rfl, rfl⟩⟩

/-- The same with the destination filled in, for IPv6 and for IPv4 while ARP is absent, and with the IPv4 shortcut. -/
theorem witness_TxWithoutHeadroomFaultsBeforeWriting_forms :
    let p := tx6 13 none none
    let p' : Packet := { tx4 [0xE0, 0, 0, 0xFB] with frags := [⟨z 13 ++ ip4 0x14 [0xE0, 0, 0, 0xFB], 13, 20⟩] }
    let q : Packet := { p' with
      llSrc := some if1.linkAddr, llDst := some #v[0x01, 0x00, 0x5E, 0, 0, 0xFB], llType := .ethernet }
    (st Launch.cfgA p).ready 1 if1 1 p
    ∧ (st Launch.cfgA p).txAddressed 1 if1 p { p with llDst := some #v[0x33, 0x33, 0, 0, 0, 1] }
    ∧ (st Launch.cfgA p').ready 1 if1 1 p' ∧ (st Launch.cfgA p').txAddressed 1 if1 p' { p' with llDst := some macB }
    ∧ (st cfgArp p').ready 1 if1 1 p' ∧ (st cfgArp p').txAddressed 1 if1 p' q ∧ (st cfgArp p').txTagged 1 q 0x0FFF
    ∧ ¬ p.headroom 14 ∧ ¬ p'.headroom ((st cfgArp p').headerReserve 1) :=
  ⟨by decide,
    .inl ⟨.inl rfl, _, rfl, .inr (.inr ⟨rfl, rfl, #v[0xFF, 2, 0, 0, 0, 0, 0, 0, 0, 0, 0, 0, 0, 0, 0, 1], by decide, by decide⟩)⟩,
    by decide, .inl ⟨.inr ⟨rfl, rfl⟩, macB, rfl, .inr (.inl ⟨rfl, rfl, rfl⟩)⟩,
    by decide, .inr ⟨rfl, rfl, #v[0xE0, 0, 0, 0xFB], by decide, by decide, by decide⟩,
    by unfold State.txTagged; rw [if_neg (by decide)]; rfl, by decide, by decide⟩

theorem witness_TxOfAnotherFamilyFaults :
    (st Launch.cfgA (frame [])).ready 0 if0 1 (frame []) ∧ (frame []).family ≠ 1 ∧ (frame []).family ≠ 2
    ∧ (3 : BitVec 2) ≠ 1 ∧ (3 : BitVec 2) ≠ 2 := by decide

theorem witness_TxChangesOnlyHeaderBytes : let p := tx6 14 none none
    let s := st Launch.cfgA p
    s.ops.opPkt = some 1 ∧ (∃ t, exec (.tx 1) s = .next t ∧ t.faulted = false
      ∧ (∀ es, t.log ≠ s.log ++ .arpResolve 1 :: es) ∧ ∃ q, t.mem.packet? 1 = some q)
    ∧ s.mem.packet? 1 = some p ∧ p.frags[0]? = some ⟨z 14 ++ ip6 ff021, 14, 40⟩ :=
  ⟨rfl, ⟨_, rfl, rfl, fun _ h => Event.noConfusion (List.cons.inj h).1, _, rfl⟩, rfl, rfl⟩

theorem witness_WireImageIsHeaderThenData : let p := tx6 14 none none
    let s := st Launch.cfgA p
    s.ready 1 if1 1 p ∧ p.wf = true ∧ (∃ t, exec (.tx 1) s = .next t ∧ t.log = s.log ++ [.txQueue 1 1] ∧ t.faulted = false
      ∧ ∃ q, t.mem.packet? 1 = some q ∧ q.llDst = some #v[0x33, 0x33, 0, 0, 0, 1])
    ∧ p.frags[0]? = some ⟨z 14 ++ ip6 ff021, 14, 40⟩ :=
  ⟨by decide, by decide, ⟨_, rfl, rfl, rfl, _, rfl, by decide⟩, rfl⟩

/-- HDR_BUILD on interface 1 with 13 and with 14 bytes of headroom (vectors HB5, HB1). -/
theorem witness_HdrBuildWritesOneHeader : let p := frame [⟨z 54, 13, 40⟩, ⟨z 54, 14, 40⟩]
    let s := st Launch.cfgA p
    s.ready 1 if1 1 p ∧ s.ops.opFrag = some 0 ∧ p.frags[0]? = some ⟨z 54, 13, 40⟩ ∧ p.frags[1]? = some ⟨z 54, 14, 40⟩
    ∧ ({ opsV with opFrag := some 1 } : OperandRegs).opFrag = some 1
    ∧ s.ops.opSrcV = some (some mac1).isSome ∧ s.ops.opSrc = some mac1 ∧ s.ops.opDstV = some (some macA).isSome
    ∧ s.ops.opDst = some macA ∧ s.ops.opType = some 0x0800
    ∧ ({ opsV with opSrcV := some false } : OperandRegs).opSrcV = some (none : Option Addr6).isSome
    ∧ 13 < s.headerReserve 1 ∧ s.headerReserve 1 ≤ 14 ∧ (⟨z 54, 14, 40⟩ : Frag).wf = true := by decide

theorem witness_HdrBuildSelfCopyChangesNothing : let g : Frag := ⟨macA.toList ++ mac1.toList ++ z 42, 14, 40⟩
    let s := st Launch.cfgA (frame [g])
    s.ready 1 if1 1 (frame [g]) ∧ s.ops.opFrag = some 0 ∧ (frame [g]).frags[0]? = some g ∧ g.wf = true
    ∧ s.headerReserve 1 ≤ g.off ∧ s.ops.opType.isSome = true
    ∧ addr6At g.buf (g.off - s.headerReserve 1) = macA ∧ s.ops.opSrcV = some true ∧ s.ops.opSrc.isSome = true
    ∧ ({ opsV with opSrcV := some false } : OperandRegs).opSrcV = some false
    ∧ ({ opsV with opDstV := some false } : OperandRegs).opDstV = some false
    ∧ addr6At g.buf (g.off - s.headerReserve 1 + 6) = mac1 ∧ s.ops.opDstV = some true ∧ s.ops.opDst.isSome = true := by decide

theorem witness_HdrReserveIsTheHeaderLengthOfTx : let s := st Launch.cfgA (tx6 18 none none)
    s.cfg.ifaces[0]? = some if0 ∧ s.faulted = false ∧ s.ops.opPkt = some 1
    ∧ ∃ t, exec (.tx 0) s = .next t ∧ t.log = s.log ++ [.txQueue 0 1] ∧ t.faulted = false ∧ ∃ q, t.mem.packet? 1 = some q :=
  ⟨by decide, rfl, rfl, ⟨_, rfl, rfl, rfl, _, rfl⟩⟩

theorem witness_L2EnableClearsTheArpCacheOnDisable : sV.cfg.ifaces[0]? = some if0 ∧ if0.isEth = true
    ∧ cfgArp.arpEnabled = true ∧ Launch.cfgA.arpEnabled = false := by decide

end Sys2Proof.Tests
end

section
/-! PROOFS. The state of the block (10_state.md): what a command and a step can do to the context, the result registers,
the fault state, the log and the packet store; and the statements about them. -/

namespace Sys2Proof.Machine

/-! ### What a command does to one part of the state -/

section Exec

variable {i : Instr} {s t : State}

/-- What `exec_ind` shows of some next state holds of the one `exec` answers. -/
theorem of_exec_next {P : State → Prop} (h : exec i s = .next t) (hP : ∃ t, exec i s = .next t ∧ P t) : P t := by
  obtain ⟨t', e, ht⟩ := hP
  rw [h] at e
  cases e
  exact ht

theorem exec_cfg (h : exec i s = .next t) : t.cfg = s.cfg := by
  apply of_exec_next h
  refine exec_ind i s
    (status := fun _ => rfl) (fatal := fun _ => rfl) (bool := fun _ _ => rfl) (addr := fun _ _ => rfl)
    (iface := fun _ _ => rfl) (tag := fun _ _ => rfl) (count := fun _ _ => rfl) (init := fun _ _ _ _ _ _ => rfl)
    (enable := ?_) (disable := ?_) (clear := fun _ _ => rfl)
    (build := fun _ _ _ _ _ _ _ _ _ _ _ _ _ => rfl) (rx := ?_) (tx := ?_)
  · intros; simp
  · intros; simp
  · intro n f h p _ _ _
    obtain ⟨_, _, _, _, _, _, _, e⟩ := rxFrame_frame n f h p s
    rw [e]
  · intro n f h p _ _ _
    obtain ⟨_, _, _, _, _, ⟨_, _, _, e⟩ | ⟨_, _, _, _, e⟩⟩ := txPacket_frame n f h p s <;> rw [e]

/-- What a command can do to the context: nothing, or one of the three writes of VLAN management (10_state.md R30), under
the checks that lead there. -/
theorem exec_ctx_cases (h : exec i s = .next t) :
    t.ctx = s.ctx
    ∨ (∃ n f, i = .vlanInit n ∧ s.cfg.ifaces[n]? = some f ∧ firstBound s.ctx.slots n = none
        ∧ t.ctx = s.ctx.initBind s.cfg.initFree s.cfg.tagUnspec s.cfg.numIfaces n)
    ∨ (∃ n tag f k, i = .vlanEnable n tag ∧ s.cfg.ifaces[n]? = some f ∧ tag ≠ s.cfg.tagUnspec
        ∧ freeBound s.cfg.tagUnspec s.ctx.slots n = some k ∧ t.ctx = s.ctx.enable s.cfg.vlanCount k n tag)
    ∨ ∃ n tag f k, i = .vlanDisable n tag ∧ s.cfg.ifaces[n]? = some f ∧ tag ≠ s.cfg.tagUnspec
        ∧ findPair s.cfg.tagUnspec s.ctx.slots n tag = some k ∧ t.ctx = s.ctx.disable s.cfg.tagUnspec k n := by
  apply of_exec_next h
  refine exec_ind i s
    (status := fun _ => .inl rfl) (fatal := fun _ => .inl rfl) (bool := fun _ _ => .inl rfl)
    (addr := fun _ _ => .inl rfl) (iface := fun _ _ => .inl rfl) (tag := fun _ _ => .inl rfl)
    (count := fun _ _ => .inl rfl) (clear := fun _ _ => .inl rfl)
    (build := fun _ _ _ _ _ _ _ _ _ _ _ _ _ => .inl rfl)
    (init := fun n f hi hn hf _ => .inr (.inl ⟨n, f, hi, hf, hn, rfl⟩))
    (enable := fun n tag f k hi hf _ ht _ hk => .inr (.inr (.inl ⟨n, tag, f, k, hi, hf, ht, hk, by simp⟩)))
    (disable := fun n tag f k hi hf ht hk => .inr (.inr (.inr ⟨n, tag, f, k, hi, hf, ht, hk, by simp⟩)))
    (rx := ?_) (tx := ?_)
  · intro n f h p _ _ _
    obtain ⟨_, _, _, _, _, _, _, e⟩ := rxFrame_frame n f h p s
    rw [e]
    exact .inl rfl
  · intro n f h p _ _ _
    obtain ⟨_, _, _, _, _, ⟨_, _, _, e⟩ | ⟨_, _, _, _, e⟩⟩ := txPacket_frame n f h p s <;> rw [e] <;> exact .inl rfl

/-- A command emits at the end of the log alone (10_state.md R41). -/
theorem exec_log_prefix (h : exec i s = .next t) : s.log <+: t.log := by
  apply of_exec_next h
  refine exec_ind i s
    (status := fun _ => List.prefix_rfl) (fatal := fun _ => List.prefix_rfl) (bool := fun _ _ => List.prefix_rfl)
    (addr := fun _ _ => List.prefix_rfl) (iface := fun _ _ => List.prefix_rfl) (tag := fun _ _ => List.prefix_rfl)
    (count := fun _ _ => List.prefix_rfl) (init := fun _ _ _ _ _ _ => List.prefix_rfl)
    (enable := ?_) (disable := ?_) (clear := fun _ _ => List.prefix_append _ _)
    (build := fun _ _ _ _ _ _ _ _ _ _ _ _ _ => List.prefix_rfl) (rx := ?_) (tx := ?_)
  · intros; simp
  · intros; simp
  · intro n f h p _ _ _
    obtain ⟨_, _, _, _, _, _, _, e⟩ := rxFrame_frame n f h p s
    rw [e]
    exact List.prefix_append _ _
  · intro n f h p _ _ _
    obtain ⟨_, _, _, _, _, ⟨_, _, _, e⟩ | ⟨_, _, _, _, e⟩⟩ := txPacket_frame n f h p s <;> rw [e] <;>
      exact List.prefix_append _ _

/-- A command keeps the packet store canonical: what it writes back are packet records. -/
theorem exec_mem_wf (h : exec i s = .next t) (hm : s.mem.wf = true) : t.mem.wf = true := by
  apply of_exec_next h
  refine exec_ind i s
    (status := fun _ => hm) (fatal := fun _ => hm) (bool := fun _ _ => hm) (addr := fun _ _ => hm)
    (iface := fun _ _ => hm) (tag := fun _ _ => hm) (count := fun _ _ => hm) (init := fun _ _ _ _ _ _ => hm)
    (enable := ?_) (disable := ?_) (clear := fun _ _ => hm) (build := ?_)
    (rx := fun n f h _ _ _ hp => rxFrame_mem_wf n f h hm (Memory.wf_of_packet? hm hp))
    (tx := fun n f h _ _ _ hp => txPacket_mem_wf n f h hm (Memory.wf_of_packet? hm hp))
  · intros; simpa using hm
  · intros; simpa using hm
  · intro n h p k f src dst ty _ _ hp hf _
    exact Memory.wf_put hm (wf_set_headerWrite (Memory.wf_of_packet? hm hp) hf _ _ _ _ _ _)

end Exec

/-! ### Legal codes -/

theorem Status.code_legal (c : Status) : c.code ≤ 6 ∨ c.code = 15 := by cases c <;> decide

theorem verdictCode_ne_reserved (v : Verdict) : verdictCode v ≠ 3 := by cases v <;> decide

theorem Reason.code_le (r : Reason) : r.code ≤ 6 := by cases r <;> decide

theorem Cause.code_legal (c : Cause) : c.code = 1 ∨ c.code = 2 := by cases c <;> decide

theorem ResultRegs.legal_reset : ResultRegs.reset.legal := by simp [ResultRegs.legal, ResultRegs.reset]

theorem ResultRegs.legal_setStatus {r : ResultRegs} (h : r.legal) (c : Status) :
    ResultRegs.legal { r with status := some c.code } := by
  obtain ⟨-, hv, hr, hi⟩ := h
  exact ⟨fun _ e => by cases e; exact c.code_legal, hv, hr, hi⟩

theorem ResultRegs.legal_setVerdict {r : ResultRegs} (h : r.legal) (v : Verdict) (c : Reason) :
    ResultRegs.legal { r with verdict := some (verdictCode v), reason := some c.code } := by
  obtain ⟨hs, -, -, hi⟩ := h
  exact ⟨hs, fun _ e => by cases e; exact verdictCode_ne_reserved v, fun _ e => by cases e; exact c.code_le, hi⟩

theorem ResultRegs.legal_setIface {r : ResultRegs} (h : r.legal) (o : Option Nat) :
    ResultRegs.legal { r with ifaceV := some o.isSome, iface := some (BitVec.ofNat 8 (o.getD 0)) } := by
  obtain ⟨hs, hv, hr, -⟩ := h
  refine ⟨hs, hv, hr, fun e => ?_⟩
  cases o with
  | none => rfl
  | some n => cases e

/-- The codes of a state are legal: the result registers while it has not faulted, and the cause. -/
def State.codesLegal (s : State) : Prop := (s.running → s.res.legal) ∧ s.causeLegal

theorem State.codesLegal_of_running {s : State} (hf : s.faulted = false) (hc : s.faultCause = 0) (h : s.res.legal) :
    s.codesLegal := ⟨fun _ => h, .inl ⟨hf, hc⟩⟩

theorem State.codesLegal_of_faulted {s : State} (hf : s.faulted = true) {c : Cause} (hc : s.faultCause = c.code) :
    s.codesLegal := ⟨fun e => absurd (hf.symm.trans e) (by decide), .inr ⟨hf, hc ▸ c.code_legal⟩⟩

/-- A command accepted with legal codes ends with legal codes (10_state.md R42, R45 to R47). -/
theorem exec_codesLegal {i : Instr} {s t : State} (h : exec i s = .next t) (hf : s.faulted = false)
    (hs : s.codesLegal) : t.codesLegal := by
  obtain ⟨hr, ⟨-, hc⟩ | ⟨hf', -⟩⟩ := hs
  case inr => exact absurd (hf.symm.trans hf') (by decide)
  have hr := hr hf
  have ok := ResultRegs.legal_setStatus hr .ok
  apply of_exec_next h
  refine exec_ind i s
    (status := fun c => State.codesLegal_of_running hf hc (ResultRegs.legal_setStatus hr c))
    (fatal := fun _ => State.codesLegal_of_faulted rfl rfl)
    (bool := fun _ _ => State.codesLegal_of_running hf hc ok)
    (addr := fun _ _ => State.codesLegal_of_running hf hc ok)
    (iface := fun _ r => State.codesLegal_of_running hf hc (ResultRegs.legal_setIface ok r))
    (tag := fun _ _ => State.codesLegal_of_running hf hc ok)
    (count := fun _ _ => State.codesLegal_of_running hf hc ok)
    (init := fun _ _ _ _ _ _ => State.codesLegal_of_running hf hc ok)
    (enable := ?_) (disable := ?_)
    (clear := fun _ _ => State.codesLegal_of_running hf hc ok)
    (build := fun _ _ _ _ _ _ _ _ _ _ _ _ _ => State.codesLegal_of_running hf hc ok)
    (rx := ?_) (tx := ?_)
  · intros; exact State.codesLegal_of_running (by simpa using hf) (by simpa using hc) (by simpa using ok)
  · intros; exact State.codesLegal_of_running (by simpa using hf) (by simpa using hc) (by simpa using ok)
  · intro n f h p _ _ _
    obtain ⟨v, r, _, _, _, _, _, e⟩ := rxFrame_frame n f h p s
    rw [e]
    exact State.codesLegal_of_running hf hc (ResultRegs.legal_setVerdict ok v r)
  · intro n f h p _ _ _
    obtain ⟨_, _, _, _, _, ⟨v, r, -, e⟩ | ⟨c, _, _, _, e⟩⟩ := txPacket_frame n f h p s <;> rw [e]
    · exact State.codesLegal_of_running hf hc (ResultRegs.legal_setVerdict ok v r)
    · exact State.codesLegal_of_faulted (c := c) rfl rfl

/-! ### What a step does -/

/-- What a host action that `hostAct` runs can do: operand registers written, packets placed or freed, or reset. -/
theorem hostAct_cases {a : HostAction} {s t : State} (h : State.hostAct a s = .next t) :
    (a = .reset ∧ t = s.applyReset)
    ∨ ∃ (o : OperandRegs) (m : Memory) (ho : List Handle), t = { s with ops := o, mem := m, handedOver := ho }
        ∧ (s.mem.wf = true → m.wf = true) := by
  cases a
  case reset => cases h; exact .inl ⟨rfl, rfl⟩
  case putPacket k p =>
    simp only [State.hostAct] at h
    split at h
    · rename_i hp
      cases h
      exact .inr ⟨s.ops, _, _, rfl, fun hm => Memory.wf_put hm hp⟩
    · cases h
  case freePacket k => cases h; exact .inr ⟨s.ops, _, _, rfl, Memory.wf_free k⟩
  all_goals cases h; exact .inr ⟨_, s.mem, s.handedOver, rfl, id⟩

theorem step_of_host_nil {s : State} (h : s.host = []) : step s = .next s := by simp [step, h]

/-- A step that takes a host action other than a write of `CMD`. -/
theorem step_of_hostAct {a : HostAction} {rest : List HostAction} {s : State} (h : s.host = a :: rest)
    (ha : ∀ w, a ≠ .writeCmd w := by simp) : step s = State.hostAct a { s with host := rest } := by
  obtain ⟨h', -⟩ | ⟨w, _, h', -⟩ | ⟨b, _, h', -, e⟩ := step_cases s <;> rw [h] at h'
  · cases h'
  · cases h'
    exact absurd rfl (ha w)
  · cases h'
    exact e

/-- Every step that has a next state: reset; a command; or one that leaves the configuration, the context, the fault state
and the log, and of the result registers writes at most the status of an illegal command. -/
theorem step_next_cases {s s' : State} (h : step s = .next s') :
    (∃ rest, s.host = .reset :: rest ∧ s' = State.applyReset { s with host := rest })
    ∨ (∃ i w rest, s.faulted = false ∧ exec i (s.acceptCmd w rest) = .next s')
    ∨ ∃ (w : Option CmdWord) (o : OperandRegs) (r : ResultRegs) (m : Memory) (host : List HostAction) (ho : List Handle),
        s' = { s with cmd := w, ops := o, res := r, mem := m, host := host, handedOver := ho }
        ∧ (r = s.res ∨ r = { s.res with status := some Status.illegalCommand.code }) ∧ (s.mem.wf = true → m.wf = true) := by
  obtain ⟨-, e⟩ | ⟨w, rest, -, ⟨-, e⟩ | ⟨-, _, -, e⟩ | ⟨hf, i, -, e⟩⟩ | ⟨a, rest, ha, -, e⟩ := step_cases s <;> rw [e] at h
  · cases h
    exact .inr (.inr ⟨_, _, _, _, _, _, rfl, .inl rfl, id⟩)
  · cases h
  · cases h
    exact .inr (.inr ⟨some w, s.ops, _, s.mem, rest, s.handedOver, rfl, .inr rfl, id⟩)
  · exact .inr (.inl ⟨i, w, rest, hf, h⟩)
  · obtain ⟨rfl, rfl⟩ | ⟨o, m, ho, rfl, hm⟩ := hostAct_cases h
    · exact .inl ⟨rest, ha, rfl⟩
    · exact .inr (.inr ⟨s.cmd, o, s.res, m, rest, ho, rfl, .inl rfl, hm⟩)

/-! ### The invariant (10_state.md R32, R42, R45 to R47) -/

/-- A command keeps the context sound (42_vlan_table.md R130). -/
theorem exec_ctx_sound {i : Instr} {s t : State} (h : exec i s = .next t) (hs : s.ctx.sound s.cfg) :
    t.ctx.sound t.cfg := by
  have lt : ∀ {n : Nat} {f : Iface}, s.cfg.ifaces[n]? = some f → n < s.cfg.numIfaces := fun hf =>
    (List.getElem?_eq_some_iff.1 hf).1
  rw [exec_cfg h]
  obtain e | ⟨n, f, -, hf, hn, e⟩ | ⟨n, tag, f, k, -, hf, ht, hk, e⟩ | ⟨n, tag, f, k, -, hf, ht, hk, e⟩ :=
    exec_ctx_cases h <;> rw [e]
  · exact hs
  · exact Context.sound_initBind hs (lt hf) hn
  · exact Context.sound_enable hs (lt hf) ht hk
  · exact Context.sound_disable hs (lt hf) ht hk

theorem exec_keeps_inv {i : Instr} {s t : State} (h : exec i s = .next t) (hf : s.faulted = false) (hs : s.Inv) :
    t.Inv := by
  obtain ⟨hcfg, hctx, hres, hcause, hmem⟩ := hs
  obtain ⟨hres', hcause'⟩ := exec_codesLegal h hf ⟨hres, hcause⟩
  exact ⟨exec_cfg h ▸ hcfg, exec_ctx_sound h hctx, hres', hcause', exec_mem_wf h hmem⟩

/-- Reset meets the invariant whatever the block's state was, by the configuration and the packet store it leaves. -/
theorem State.applyReset_inv {s : State} (hcfg : s.cfg.wf = true) (hmem : s.mem.wf = true) : s.applyReset.Inv :=
  ⟨hcfg, Context.sound_reset s.cfg, fun _ => ResultRegs.legal_reset, .inl ⟨rfl, rfl⟩, hmem⟩

/-! ### Reset and launch (10_state.md R25, R43) -/

theorem State.applyReset_hasResetValues (s : State) : s.applyReset.hasResetValues := by
  refine ⟨fun k sl h => ?_, List.length_replicate, rfl, fun i b h => ?_, List.length_replicate, rfl, rfl, rfl, rfl, rfl,
    rfl, rfl⟩
  · obtain rfl := List.eq_of_mem_replicate (List.mem_of_getElem? h)
    exact ⟨rfl, rfl⟩
  · exact List.eq_of_mem_replicate (List.mem_of_getElem? h)

/-! ### The host's actions (10_state.md R23, R38, R40) -/

/-- The two parts `OPIP` is held in are the address written (10_state.md R23; log 5). -/
theorem ip6_append_parts (w : Ip6) :
    ((#v[w[0], w[1], w[2], w[3]] : Ip4) ++
      (#v[w[4], w[5], w[6], w[7], w[8], w[9], w[10], w[11], w[12], w[13], w[14], w[15]] : Vector Byte 12) : Ip6) = w := by
  refine Vector.ext fun k hk => ?_
  rw [Vector.getElem_append]
  split
  · interval_cases k <;> rfl
  · interval_cases k <;> rfl

theorem State.mem_takeBack (s : State) (h a : Handle) :
    a ∈ (s.takeBack h).handedOver ↔ a ∈ s.handedOver ∧ a ≠ h := by
  simp

/-! ### `INIT` and the bindings of the slots (10_state.md R32, R35) -/

@[simp] theorem Context.initBind_init (x : Context) (m : InitFreeSlot) (u : Tag) (n i : Nat) :
    (x.initBind m u n i).init = true := by
  unfold Context.initBind
  split <;> rfl

@[simp] theorem Context.enable_init (x : Context) (m k i : Nat) (t : Tag) : (x.enable m k i t).init = x.init := rfl

@[simp] theorem Context.disable_init (x : Context) (u : Tag) (k i : Nat) : (x.disable u k i).init = x.init := rfl

/-- `INIT` after a command: set by VLAN_INIT, as it was after any other (10_state.md R35). -/
theorem exec_init_cases {i : Instr} {s t : State} (h : exec i s = .next t) :
    t.ctx.init = s.ctx.init ∨ (i.op = .vlanInit ∧ t.ctx.init = true) := by
  obtain e | ⟨n, f, rfl, -, -, e⟩ | ⟨_, _, _, _, -, -, -, -, e⟩ | ⟨_, _, _, _, -, -, -, -, e⟩ := exec_ctx_cases h <;> rw [e]
  · exact .inl rfl
  · exact .inr ⟨rfl, by simp⟩
  · exact .inl rfl
  · exact .inl rfl

/-- Every bound slot of `x` is bound to the same interface in `y` (10_state.md R32). -/
def Context.keepsBound (x y : Context) : Prop :=
  ∀ (k i : Nat) (sl : Slot), x.slots[k]? = some sl → sl.bound = some i →
    ∃ sl' : Slot, y.slots[k]? = some sl' ∧ sl'.bound = some i

theorem Context.keepsBound_of_slots_eq {x y : Context} (h : y.slots = x.slots) : x.keepsBound y :=
  fun _ _ sl hk hb => ⟨sl, h ▸ hk, hb⟩

/-- A write of a tag binds no slot and unbinds none. -/
theorem Context.keepsBound_of_setSlotTag {x y : Context} {k : Nat} {t : Tag} (h : y.slots = setSlotTag x.slots k t) :
    x.keepsBound y := by
  intro j i sl hj hb
  rw [h, setSlotTag, List.getElem?_modify, hj]
  exact ⟨_, rfl, by dsimp only; split <;> exact hb⟩

/-- Where `INIT_FREE_SLOT = unbound`, VLAN_INIT binds a slot that was unbound. -/
theorem Context.keepsBound_initBind (x : Context) (u : Tag) (n i : Nat) :
    x.keepsBound (x.initBind .unbound u n i) := by
  unfold Context.initBind
  cases hk : initFree .unbound u x.slots with
  | none => exact Context.keepsBound_of_slots_eq rfl
  | some k =>
    obtain ⟨⟨free, hfree, -, hun⟩, -⟩ := (initFree_eq_some _ _ _ _).1 hk
    intro j l sl hj hb
    have ne : k ≠ j := by
      rintro rfl
      rw [hfree] at hj
      cases hj
      exact absurd (hb.symm.trans (hun rfl)) (by simp)
    refine ⟨sl, ?_, hb⟩
    dsimp only
    rw [setSlotBound, List.getElem?_modify_ne _ _ ne, hj]

theorem exec_keepsBound {i : Instr} {s t : State} (h : exec i s = .next t) (hm : s.cfg.initFree = .unbound) :
    s.ctx.keepsBound t.ctx := by
  obtain e | ⟨_, _, -, -, -, e⟩ | ⟨_, _, _, _, -, -, -, -, e⟩ | ⟨_, _, _, _, -, -, -, -, e⟩ := exec_ctx_cases h <;> rw [e]
  · exact Context.keepsBound_of_slots_eq rfl
  · exact hm ▸ Context.keepsBound_initBind _ _ _ _
  · exact Context.keepsBound_of_setSlotTag rfl
  · exact Context.keepsBound_of_setSlotTag rfl

/-! ### The statements -/

/-- Settles O21: the context, the codes and the store are kept by every command, and by every other step. -/
theorem stepKeepsTheInvariant : Obligations.StepKeepsTheInvariant := by
  intro s s' hs h
  obtain ⟨rest, -, rfl⟩ | ⟨i, w, rest, hf, h⟩ | ⟨w, o, r, m, host, ho, rfl, hr, hm⟩ := step_next_cases h
  · obtain ⟨hcfg, -, -, -, hmem⟩ := hs
    exact State.applyReset_inv hcfg hmem
  · exact exec_keeps_inv h hf hs
  · obtain ⟨hcfg, hctx, hres, hcause, hmem⟩ := hs
    refine ⟨hcfg, hctx, fun hrun => ?_, hcause, hm hmem⟩
    obtain rfl | rfl := hr
    · exact hres hrun
    · exact ResultRegs.legal_setStatus (hres hrun) .illegalCommand

/-- Settles O13: each action is its arm of `hostAct`, and the store is read back by `packet?_put` and `packet?_free`. -/
theorem hostActionsChangeOnlyWhatTheyName : Obligations.HostActionsChangeOnlyWhatTheyName := by
  intro s rest
  refine ⟨fun h => ?_, fun h => ⟨_, step_of_hostAct h, rfl, rfl, rfl, rfl, rfl, rfl, rfl⟩,
    fun a h => step_of_hostAct h, fun v h => step_of_hostAct h,
    fun w h => ⟨_, _, step_of_hostAct h, ip6_append_parts w⟩,
    fun k h => step_of_hostAct h, fun k h => step_of_hostAct h, fun v h => step_of_hostAct h,
    fun b h => step_of_hostAct h, fun a h => step_of_hostAct h, fun b h => step_of_hostAct h,
    fun a h => step_of_hostAct h,
    fun h => ⟨fun p ha hp => ?_, fun p ha hp => ?_, fun ha => ?_⟩⟩
  · exact step_of_host_nil h
  · refine ⟨s.mem.put h p, (s.takeBack h).handedOver, (step_of_hostAct ha).trans ?_, by simp, fun a ne => by simp [ne],
      s.mem_takeBack h⟩
    rw [State.hostAct, if_pos hp]
    rfl
  · refine (step_of_hostAct ha).trans ?_
    rw [State.hostAct, if_neg (by simp [hp])]
  · exact ⟨s.mem.free h, (s.takeBack h).handedOver, step_of_hostAct ha, by simp [Memory.packet?_free],
      fun a ne => by simp [Memory.packet?_free, ne], s.mem_takeBack h⟩

/-- Settles O15: by the register each command writes besides `RES_STATUS`. -/
theorem resultRegistersHaveTheirWriters : Obligations.ResultRegistersHaveTheirWriters := by
  intro i s t h
  apply of_exec_next h
  refine exec_ind i s
    (status := fun _ => ⟨fun _ _ => ⟨_, rfl⟩, by simp⟩)
    (fatal := fun _ => ⟨fun _ e => by simp at e, by simp⟩)
    (bool := fun hi b => ⟨fun _ _ => ⟨_, rfl⟩, fun hn => absurd hi hn, by simp⟩)
    (addr := fun hi a => ⟨fun _ _ => ⟨_, rfl⟩, fun _ => rfl, fun hn => absurd hi hn, by simp⟩)
    (iface := fun hi r => ⟨fun _ _ => ⟨_, rfl⟩, fun _ => rfl, fun _ => rfl, fun hn => absurd hi hn, by simp⟩)
    (tag := fun hi r => ⟨fun _ _ => ⟨_, rfl⟩, fun _ => rfl, fun _ => rfl, fun _ => ⟨rfl, rfl⟩, fun hn => absurd hi hn, by simp⟩)
    (count := fun hi n => ⟨fun _ _ => ⟨_, rfl⟩, fun _ => rfl, fun _ => rfl, fun _ => ⟨rfl, rfl⟩, fun _ => rfl,
      fun hn => absurd hi hn, by simp⟩)
    (init := fun _ _ _ _ _ _ => ⟨fun _ _ => ⟨_, rfl⟩, by simp⟩)
    (enable := fun _ _ _ _ _ _ _ _ _ _ => ⟨fun _ _ => ⟨_, rfl⟩, by simp⟩)
    (disable := fun _ _ _ _ _ _ _ _ => ⟨fun _ _ => ⟨_, rfl⟩, by simp⟩)
    (clear := fun _ _ => ⟨fun _ _ => ⟨_, rfl⟩, by simp⟩)
    (build := fun _ _ _ _ _ _ _ _ _ _ _ _ _ => ⟨fun _ _ => ⟨_, rfl⟩, by simp⟩)
    (rx := ?_) (tx := ?_)
  · intro n f h p hi _ _
    obtain ⟨_, _, _, _, _, _, _, e⟩ := rxFrame_frame n f h p s
    rw [e]
    exact ⟨fun _ _ => ⟨_, rfl⟩, by simp [hi, Instr.op]⟩
  · intro n f h p hi _ _
    obtain ⟨_, _, _, _, _, ⟨_, _, _, e⟩ | ⟨_, _, _, _, e⟩⟩ := txPacket_frame n f h p s <;> rw [e]
    · exact ⟨fun _ _ => ⟨_, rfl⟩, by simp [hi, Instr.op]⟩
    · exact ⟨fun _ hf => by simp at hf, by simp [hi, Instr.op]⟩

/-- Settles O16: the three commands that write the context are the three of VLAN management. -/
theorem onlyVlanManagementChangesTheContext : Obligations.OnlyVlanManagementChangesTheContext := by
  intro i s t h hi
  obtain e | ⟨_, _, rfl, -⟩ | ⟨_, _, _, _, rfl, -⟩ | ⟨_, _, _, _, rfl, -⟩ := exec_ctx_cases h
  · exact e
  all_goals simp [Instr.op] at hi

/-- Settles O17: a command leaves `INIT` or, being VLAN_INIT, sets it. -/
theorem initIsSetByVlanInitAndClearedByReset : Obligations.InitIsSetByVlanInitAndClearedByReset := by
  constructor
  · intro i s t h hs ht
    obtain e | ⟨hi, -⟩ := exec_init_cases h
    · rw [e, hs] at ht
      cases ht
    · exact hi
  · intro s s' h hs
    obtain ⟨rest, hr, -⟩ | ⟨i, w, rest, -, h⟩ | ⟨_, _, _, _, _, _, rfl, -⟩ := step_next_cases h
    · exact .inr ⟨rest, hr⟩
    · obtain e | ⟨-, e⟩ := exec_init_cases h
      · exact .inl (e.trans hs)
      · exact .inl e
    · exact .inl hs

/-- Settles O18: commands append to the log, and no other step but reset writes it. -/
theorem eventLogOnlyGrows : Obligations.EventLogOnlyGrows := by
  have grown : ∀ {i : Instr} {s t : State}, exec i s = .next t → ∃ es, t.log = s.log ++ es := fun h =>
    (exec_log_prefix h).imp fun _ => Eq.symm
  refine ⟨fun _ _ _ h => grown h, fun s s' h => ?_⟩
  obtain ⟨rest, hr, -⟩ | ⟨i, w, rest, -, h⟩ | ⟨_, _, _, _, _, _, rfl, -⟩ := step_next_cases h
  · exact .inr ⟨rest, hr⟩
  · exact .inl (grown (s := s.acceptCmd w rest) h)
  · exact .inl ⟨[], (List.append_nil _).symm⟩

/-- Settles O24: (a) to (c) are parts of soundness, and where `INIT_FREE_SLOT = unbound` no write of the
context but reset's takes a slot from its interface. -/
theorem slotsStayBoundAndDistinct : Obligations.SlotsStayBoundAndDistinct := by
  refine ⟨fun c x hx => ?_, fun s s' hm h => ?_⟩
  · obtain ⟨-, tagged, once, -⟩ := hx
    rw [boundOnce_iff] at once
    refine ⟨fun sl hsl ht => Option.isSome_iff_ne_none.2 (tagged sl hsl ht), fun j k a b ha hb ht hab _ => ?_, once⟩
    obtain ⟨i, hi⟩ := Option.ne_none_iff_exists'.1 (tagged a (List.mem_of_getElem? ha) ht)
    exact once j k i a b ha hb hi (hab ▸ hi)
  · obtain ⟨rest, hr, -⟩ | ⟨i, w, rest, -, h⟩ | ⟨_, _, _, _, _, _, rfl, -⟩ := step_next_cases h
    · exact .inl ⟨rest, hr⟩
    · exact .inr (exec_keepsBound (s := s.acceptCmd w rest) h hm)
    · exact .inr (Context.keepsBound_of_slots_eq rfl)

/-- Settles O11: the launch state is a reset state too. -/
theorem resetGivesEveryElementItsValue : Obligations.ResetGivesEveryElementItsValue :=
  ⟨fun s rest h => ⟨State.applyReset { s with host := rest }, step_of_hostAct h, State.applyReset_hasResetValues _⟩,
    fun c => State.resetWith_eq_applyReset c ▸ State.applyReset_hasResetValues (State.resetWith c)⟩

/-- Settles O12: every result register of the launch state holds no value, and BCAST_ADDR writes two of them. -/
theorem unwrittenResultReadsAreRefused : Obligations.UnwrittenResultReadsAreRefused := by
  refine ⟨fun c r hr => ?_, fun s => ⟨_, rfl, rfl, rfl⟩⟩
  simp only [List.mem_cons, List.not_mem_nil, or_false] at hr
  obtain rfl | rfl | rfl | rfl | rfl | rfl | rfl | rfl | rfl := hr <;> rfl

/-- Settles O22: the launch state is a reset state with no packet placed. -/
theorem resetMeetsTheInvariant : Obligations.ResetMeetsTheInvariant := fun c hc =>
  State.resetWith_eq_applyReset c ▸ State.applyReset_inv (s := State.resetWith c) hc (State.reset_mem_wf c)

end Sys2Proof.Machine
end

section
/-! PROOFS. Memory (20_memory.md): the commands that only read (R67), and RX and HDR_BUILD touch no packet but their own
(R62). -/

namespace Sys2Proof.Machine

/-! ### Commands that only read (20_memory.md R67) -/

/-- `F` writes result registers alone unless it faults, and a second run changes nothing. -/
def OnlyReads (F : State → State) : Prop :=
  ∀ s, ((F s).faulted = false → F s = { s with res := (F s).res }) ∧ F (F s) = F s

/-- A write of result registers whose values are not taken from result registers. -/
theorem onlyReads_res {w : State → ResultRegs} (hw : ∀ s, w { s with res := w s } = w s) :
    OnlyReads fun s => { s with res := w s } :=
  fun s => ⟨fun _ => rfl, by simp only [hw]⟩

/-- Such a write after the check of the interface (30_encoding.md R88 item 3). -/
theorem onlyReads_onIface (n : Nat) {w : State → ResultRegs} (hw : ∀ s, w { s with res := w s } = w s) :
    OnlyReads fun s => s.onIface n fun _ => { s with res := w s } := by
  intro s
  dsimp only
  cases hf : s.cfg.ifaces[n]? with
  | none =>
    rw [State.onIface_none _ hf, State.onIface_none (s := s.illegal) _ hf]
    exact ⟨fun _ => rfl, rfl⟩
  | some f =>
    rw [State.onIface_some _ hf, State.onIface_some (s := { s with res := w s }) _ hf]
    exact onlyReads_res hw s

/-- Such a write after the read of an operand register; without the operand, the fault (60_exceptions.md R223). -/
theorem onlyReads_onOperand {α : Type} (o : OperandRegs → Option α) {w : α → State → ResultRegs}
    (hw : ∀ a s, w a { s with res := w a s } = w a s) :
    OnlyReads fun s => s.onOperand (o s.ops) fun a => { s with res := w a s } := by
  intro s
  cases ho : o s.ops with
  | none => exact ⟨fun hf => by simp [ho] at hf, by simp [ho, State.raiseFatal]⟩
  | some a => simpa [ho] using onlyReads_res (hw a) s

/-- The nine commands of 20_memory.md R67. -/
theorem readingCommand_onlyReads {i : Instr} (hi : i.op ∈ [Op.clsBcast, .clsMcast, .mapIpv6, .mapIpv4, .bcastAddr,
    .vlanIsEnabled, .vlanLookup, .vlanGetTag, .hdrReserve]) :
    ∃ F : State → State, (∀ s, exec i s = .next (F s)) ∧ OnlyReads F := by
  cases i with
  | clsBcast => exact ⟨_, fun _ => rfl, onlyReads_onOperand (·.opA) fun _ _ => rfl⟩
  | clsMcast => exact ⟨_, fun _ => rfl, onlyReads_onOperand (·.opA) fun _ _ => rfl⟩
  | mapIpv6 => exact ⟨_, fun _ => rfl, onlyReads_onOperand (·.ip6?) fun _ _ => rfl⟩
  | mapIpv4 => exact ⟨_, fun _ => rfl, onlyReads_onOperand (·.ip4?) fun _ _ => rfl⟩
  | bcastAddr => exact ⟨_, fun _ => rfl, onlyReads_res fun _ => rfl⟩
  | vlanIsEnabled n => exact ⟨_, fun _ => rfl, onlyReads_onIface n fun _ => rfl⟩
  | vlanLookup t => exact ⟨_, fun _ => rfl, onlyReads_res fun _ => rfl⟩
  | vlanGetTag n => exact ⟨_, fun _ => rfl, onlyReads_onIface n fun _ => rfl⟩
  | hdrReserve n => exact ⟨_, fun _ => rfl, onlyReads_onIface n fun _ => rfl⟩
  | _ => simp [Instr.op] at hi

/-! ### Commands that see one packet (20_memory.md R62) -/

/-- What R62 asks of one command run on `s`, with `t`, and on a state that differs from `s` in packets other than `h`,
with `t'`: the two results differ in such packets alone, and the first run left those as they were unless it asked
ARP. -/
structure PacketLocal (h : Handle) (s t t' : State) : Prop where
  eq : t' = { t with mem := t'.mem }
  packet : t'.mem.packet? h = t.mem.packet? h
  frame : t.log = s.log ++ [.arpInput h] ∨ ∀ a, a ≠ h → t.mem.packet? a = s.mem.packet? a

/-- What a collaborator's changes leave under a handle depends on what stood there alone. -/
theorem Memory.packet?_changes_congr {m m' : Memory} {h : Handle} (cs : List StoreChange)
    (e : m'.packet? h = m.packet? h) : (m'.changes cs).packet? h = (m.changes cs).packet? h := by
  induction cs generalizing m m' with
  | nil => exact e
  | cons c cs ih =>
    refine ih ?_
    unfold Memory.change
    split
    · simp only [Memory.packet?_free, e]
    · split
      · simp only [Memory.packet?_put, e]
      · exact e

/-- What ARP answers, and what it does to the store, does not depend on the store (log 9). -/
theorem State.askArpInput_mem (h : Handle) (s : State) :
    ∃ (v : Verdict) (u : State) (cs : List StoreChange), u.log = s.log ++ [.arpInput h]
      ∧ ∀ m, State.askArpInput h { s with mem := m } = (v, { u with mem := m.changes cs }) := by
  unfold State.askArpInput
  cases e : s.arpInputs with
  | nil => exact ⟨(Config.freeArpInput s.draws).verdict, { s.emit (.arpInput h) with draws := s.draws + 1 },
      (Config.freeArpInput s.draws).store, rfl, fun m => by simp [State.emit, e]⟩
  | cons r rest => exact ⟨r.verdict, { s.emit (.arpInput h) with arpInputs := rest }, r.store, rfl,
      fun m => by simp [State.emit, e]⟩

section TwoRuns

variable {h : Handle} {s t t' : State} {m : Memory}

/-- A command that writes no packet. -/
theorem PacketLocal.of_mem_eq (hm : m.packet? h = s.mem.packet? h) (e : t' = { t with mem := t'.mem })
    (ht : t.mem = s.mem) (ht' : t'.mem = m) : PacketLocal h s t t' :=
  ⟨e, by rw [ht, ht', hm], .inr fun _ _ => by rw [ht]⟩

/-- A command that writes its packet and no other. -/
theorem PacketLocal.of_mem_put (q : Packet) (e : t' = { t with mem := t'.mem }) (ht : t.mem = s.mem.put h q)
    (ht' : t'.mem = m.put h q) : PacketLocal h s t t' :=
  ⟨e, by simp [ht, ht'], .inr fun _ ne => by simp [ht, ne]⟩

/-! The guards of 30_encoding.md R88 see no packet but the one `OPPKT` names. -/

theorem PacketLocal.onOperand {α : Type} (hm : m.packet? h = s.mem.packet? h) (o : Option α) {k k' : α → State}
    (hk : ∀ a, PacketLocal h s (k a) (k' a)) :
    PacketLocal h s (s.onOperand o k) (State.onOperand o { s with mem := m } k') := by
  cases o with
  | none => exact .of_mem_eq hm rfl rfl rfl
  | some a => exact hk a

theorem PacketLocal.onOptAddr (hm : m.packet? h = s.mem.packet? h) (v : Option Bool) (a : Option Addr6)
    {k k' : Option Addr6 → State} (hk : ∀ x, PacketLocal h s (k x) (k' x)) :
    PacketLocal h s (s.onOptAddr v a k) (State.onOptAddr v a { s with mem := m } k') := by
  refine .onOperand hm v fun valid => ?_
  cases valid with
  | false => exact hk none
  | true => exact .onOperand hm a fun x => hk (some x)

theorem PacketLocal.ifOwned (hm : m.packet? h = s.mem.packet? h) {k k' : State} (hk : PacketLocal h s k k') :
    PacketLocal h s (s.ifOwned h k) (State.ifOwned h { s with mem := m } k') := by
  unfold State.ifOwned
  split
  · exact .of_mem_eq hm rfl rfl rfl
  · exact hk

theorem PacketLocal.onPacket (hm : m.packet? h = s.mem.packet? h) (ho : s.ops.opPkt = some h) (n : Nat)
    {k k' : Iface → Handle → Packet → State} (hk : ∀ f p, PacketLocal h s (k f h p) (k' f h p)) :
    PacketLocal h s (s.onPacket n k) (State.onPacket n { s with mem := m } k') := by
  have illegal : PacketLocal h s s.illegal (State.illegal { s with mem := m }) := .of_mem_eq hm rfl rfl rfl
  unfold State.onPacket State.onEth State.onIface
  cases s.cfg.ifaces[n]? with
  | none => exact illegal
  | some f =>
    cases he : f.isEth with
    | false => simpa [he] using illegal
    | true =>
      simp only [he, if_true, ho, State.onOperand_some, hm]
      cases s.mem.packet? h with
      | none => exact illegal
      | some p => exact hk f p

/-! RX and HDR_BUILD past their guards. -/

/-- Steps 7 and 8 of RX write the packet a second time (43_frame_receiver.md R158 to R160). -/
theorem PacketLocal.rxDeliver (s : State) (m : Memory) (q : Packet) :
    PacketLocal h s (rxDeliver h q ((s.setStatus .ok).putPacket h q))
      (rxDeliver h q ((State.setStatus .ok { s with mem := m }).putPacket h q)) := by
  unfold Machine.rxDeliver
  simp only [State.putPacket_cfg, State.setStatus_cfg]
  cases ipDeclaredLen s.cfg q with
  | none => exact .of_mem_put q rfl rfl rfl
  | some l =>
    exact .of_mem_put (trim l q).1 rfl (Memory.put_put _ _ _ _) (Memory.put_put _ _ _ _)

/-- Step 6 of RX: the one step that may let another packet change, by ARP's hand (43_frame_receiver.md R157). -/
theorem PacketLocal.rxArp (s : State) (m : Memory) (q : Packet) :
    PacketLocal h s (rxArp h q ((s.setStatus .ok).putPacket h q))
      (rxArp h q ((State.setStatus .ok { s with mem := m }).putPacket h q)) := by
  cases he : s.cfg.arpEnabled with
  | true =>
    obtain ⟨v, u, cs, hlog, ask⟩ := State.askArpInput_mem h (s.setStatus .ok)
    have ask₁ : ((s.setStatus .ok).putPacket h q).askArpInput h
        = (v, { u with mem := (s.mem.put h q).changes cs }) := ask _
    have ask₂ : ((State.setStatus .ok { s with mem := m }).putPacket h q).askArpInput h
        = (v, { u with mem := (m.put h q).changes cs }) := ask _
    simp only [Machine.rxArp, State.putPacket_cfg, State.setStatus_cfg, he, if_true, ask₁, ask₂]
    exact ⟨rfl, Memory.packet?_changes_congr cs (by simp), .inl hlog⟩
  | false =>
    simp only [Machine.rxArp, State.putPacket_cfg, State.setStatus_cfg, he, Bool.false_eq_true, if_false]
    cases s.cfg.arpFrames with
    | drop => exact .of_mem_put q rfl rfl rfl
    | forward => exact .rxDeliver s m q

theorem PacketLocal.rxFrame (hm : m.packet? h = s.mem.packet? h) (n : Nat) (f : Iface) (p : Packet) :
    PacketLocal h s (rxFrame n f h p s) (rxFrame n f h p { s with mem := m }) := by
  have hv : (State.setStatus .ok { s with mem := m }).vlanActive n = (s.setStatus .ok).vlanActive n := rfl
  unfold Machine.rxFrame
  simp only [hv, State.setStatus_cfg]
  cases parseHeader s.cfg ((s.setStatus .ok).vlanActive n) p with
  | none => exact .of_mem_eq hm rfl rfl rfl
  | some parsed =>
    obtain ⟨ty, len, p⟩ := parsed
    dsimp only
    cases classify s.cfg ty with
    | none => exact .of_mem_put p rfl rfl rfl
    | some typed =>
      obtain ⟨fam, arp⟩ := typed
      dsimp only
      split
      · cases arp with
        | true => exact .rxArp s m _
        | false => exact .rxDeliver s m _
      · exact .of_mem_put _ rfl rfl rfl

theorem execRx_packetLocal (hm : m.packet? h = s.mem.packet? h) (ho : s.ops.opPkt = some h) (n : Nat)
    (e : exec (.rx n) s = .next t) (e' : exec (.rx n) { s with mem := m } = .next t') : PacketLocal h s t t' := by
  cases e
  cases e'
  exact .onPacket hm ho n fun f p => .ifOwned hm (.rxFrame hm n f p)

theorem execHdrBuild_packetLocal (hm : m.packet? h = s.mem.packet? h) (ho : s.ops.opPkt = some h) (n : Nat)
    (e : exec (.hdrBuild n) s = .next t) (e' : exec (.hdrBuild n) { s with mem := m } = .next t') :
    PacketLocal h s t t' := by
  cases e
  cases e'
  refine .onPacket hm ho n fun _ p => .onOperand hm _ fun k => ?_
  cases p.frags[k.toNat]? with
  | none => exact .of_mem_eq hm rfl rfl rfl
  | some g =>
    refine .ifOwned hm (.onOptAddr hm _ _ fun src => .onOptAddr hm _ _ fun dst => .onOperand hm _ fun ty => ?_)
    have hv : State.vlanActive { s with mem := m } n = s.vlanActive n := rfl
    simp only [hv]
    split
    · exact .of_mem_eq hm rfl rfl rfl
    · exact .of_mem_put _ rfl rfl rfl

end TwoRuns

/-! ### The statements -/

/-- Settles O19: each of the nine writes result registers alone, with values no result register decides. -/
theorem readingCommandsChangeOnlyResultsAndRepeat : Obligations.ReadingCommandsChangeOnlyResultsAndRepeat := by
  intro i s t hi h
  obtain ⟨F, hF, reads⟩ := readingCommand_onlyReads hi
  obtain rfl : F s = t := Host.Outcome.next.inj ((hF s).symm.trans h)
  obtain ⟨onlyRes, again⟩ := reads s
  exact ⟨fun _ => onlyRes, (hF _).trans (congrArg _ again)⟩

/-- Settles O20: the two runs take the same branch at every step, and write packet `h` alone until ARP is asked. -/
theorem rxAndHdrBuildSeeOnlyTheirPacket : Obligations.RxAndHdrBuildSeeOnlyTheirPacket := by
  intro s t t' n h m ho hm i hi e e'
  have key : PacketLocal h s t t' := by
    simp only [List.mem_cons, List.not_mem_nil, or_false] at hi
    obtain rfl | rfl := hi
    · exact execRx_packetLocal hm ho n e e'
    · exact execHdrBuild_packetLocal hm ho n e e'
  obtain ⟨eq, packet, frame⟩ := key
  rw [eq]
  exact ⟨rfl, rfl, rfl, rfl, packet, frame⟩

end Sys2Proof.Machine
end

section
/-! PROOFS. The encoding (30_encoding.md): rows, fields and operands of a word; the guards of a command; and the statements
about them. -/

namespace Sys2Proof

/-! ### Rows, masks and fields -/

theorem wordOpc_toNat (w : CmdWord) : (wordOpc w).toNat = w.toNat % 256 := by
  simp [wordOpc]

theorem Op.mask_covers_opcode (o : Op) : o.mask &&& 0xFF = 0xFF := by cases o <;> rfl

theorem Op.matchWord_is_opcode (o : Op) : o.matchWord >>> 8 = 0 := by cases o <;> rfl

/-- A word legal for a row has, in a field the row's mask covers, the row's value. -/
theorem extractLsb'_of_legal {w mask m : CmdWord} (h : w &&& mask = m) {a n : Nat}
    (covered : mask.extractLsb' a n = BitVec.allOnes n) : w.extractLsb' a n = m.extractLsb' a n := by
  rw [← h, BitVec.extractLsb'_and, covered, BitVec.and_allOnes]

section Legal

variable {o : Op} {w : CmdWord} (h : w &&& o.mask = o.matchWord)
include h

/-- A word legal for a row has the row's opcode (30_encoding.md R84). -/
theorem Op.wordOpc_of_legal : wordOpc o.matchWord = wordOpc w :=
  (extractLsb'_of_legal h (by cases o <;> rfl)).symm

theorem Op.rsv_of_legal : w.extractLsb' 29 3 = 0 := by
  rw [extractLsb'_of_legal h (by cases o <;> rfl)]
  cases o <;> rfl

theorem Op.wordIfx_of_legal (covered : o.mask.extractLsb' 8 8 = BitVec.allOnes 8) : wordIfx w = 0 := by
  rw [wordIfx, extractLsb'_of_legal h covered]
  cases o <;> rfl

theorem Op.wordTag_of_legal (covered : o.mask.extractLsb' 16 12 = BitVec.allOnes 12) : wordTag w = 0 := by
  rw [wordTag, extractLsb'_of_legal h covered]
  cases o <;> rfl

theorem Op.wordF_of_legal (covered : o.mask.getLsbD 28 = true) : wordF w = false := by
  have bit : (w &&& o.mask).getLsbD 28 = wordF w := by rw [BitVec.getLsbD_and, covered, Bool.and_true, wordF]
  rw [← bit, h]
  cases o <;> rfl

end Legal

/-- A word with `RSV = 0` is assembled from its fields (30_encoding.md R81, R90). -/
theorem assemble_fields {opc w : CmdWord} (h : opc >>> 8 = 0) (ho : wordOpc opc = wordOpc w)
    (rsv : w.extractLsb' 29 3 = 0) : assemble opc (wordIfx w) (wordTag w) (wordF w) = w := by
  refine BitVec.eq_of_getLsbD_eq fun k hk => ?_
  rw [assemble_getLsbD h]
  split_ifs with h8 h16 h28
  · have := congrArg (fun b => b.getLsbD k) ho
    simpa [wordOpc, h8, -BitVec.getLsbD_eq_getElem] using this
  · have : (wordIfx w).testBit (k - 8) = (w.extractLsb' 8 8).getLsbD (k - 8) := rfl
    rw [this, BitVec.getLsbD_extractLsb', Nat.add_sub_cancel' (by omega)]
    simp [show k - 8 < 8 by omega]
  · rw [wordTag, BitVec.getLsbD_extractLsb', Nat.add_sub_cancel' (by omega)]
    simp [show k - 16 < 12 by omega]
  · by_cases e : k = 28
    · simp [e, wordF]
    · have := congrArg (fun b => b.getLsbD (k - 29)) rsv
      simpa [e, show k - 29 < 3 by omega, show 29 + (k - 29) = k by omega, -BitVec.getLsbD_eq_getElem] using this.symm

/-! ### Decoder and encoder -/

/-- A word decodes to a command of the row it is legal for, and to no other. -/
theorem decode_eq_ok_iff_legal {w : CmdWord} {i : Instr} :
    decode w = .ok i ↔ ∃ o : Op, w &&& o.mask = o.matchWord ∧ i = o.build w := by
  rw [decode_eq_ok]
  exact exists_congr fun o => ⟨fun ⟨_, h⟩ => h, fun h => ⟨Op.wordOpc_of_legal h.1, h⟩⟩

theorem decode_eq_reservedOpcode {w : CmdWord} : decode w = .error .reservedOpcode ↔ Op.select w = none := by
  unfold decode
  cases Op.select w with
  | none => simp
  | some o => dsimp only; split <;> simp

theorem encode_legal : ∀ i : Instr, encode i &&& i.op.mask = i.op.matchWord
  | .clsBcast => Laws.EncodeLegal.clsBcast
  | .clsMcast => Laws.EncodeLegal.clsMcast
  | .mapIpv6 => Laws.EncodeLegal.mapIpv6
  | .mapIpv4 => Laws.EncodeLegal.mapIpv4
  | .bcastAddr => Laws.EncodeLegal.bcastAddr
  | .vlanInit n => Laws.EncodeLegal.vlanInit n
  | .vlanEnable n t => Laws.EncodeLegal.vlanEnable n t
  | .vlanDisable n t => Laws.EncodeLegal.vlanDisable n t
  | .vlanIsEnabled n => Laws.EncodeLegal.vlanIsEnabled n
  | .vlanLookup t => Laws.EncodeLegal.vlanLookup t
  | .vlanGetTag n => Laws.EncodeLegal.vlanGetTag n
  | .rx n => Laws.EncodeLegal.rx n
  | .tx n => Laws.EncodeLegal.tx n
  | .hdrBuild n => Laws.EncodeLegal.hdrBuild n
  | .hdrReserve n => Laws.EncodeLegal.hdrReserve n
  | .l2Enable n f => Laws.EncodeLegal.l2Enable n f

theorem Instr.wellFormed_iff {i : Instr} : i.wellFormed = true ↔ ∀ n, i.ifx? = some n → n < 256 := by
  unfold Instr.wellFormed
  cases i.ifx? <;> simp

/-- The operands read back from the word of a command are the command's. -/
theorem build_encode {i : Instr} (wf : i.wellFormed = true) : i.op.build (encode i) = i := by
  have fits := Instr.wellFormed_iff.1 wf
  cases i
  case clsBcast | clsMcast | mapIpv6 | mapIpv4 | bcastAddr => rfl
  case vlanLookup t => simp [Instr.op, Op.build, encode, wordTag_assemble]
  all_goals simpa [Instr.op, Op.build, encode, wordIfx_assemble, wordTag_assemble, wordF_assemble, Instr.ifx?] using fits

/-- The row's command with a legal word's operands has that word. -/
theorem encode_build {o : Op} {w : CmdWord} (h : w &&& o.mask = o.matchWord) : encode (o.build w) = w := by
  have fields := assemble_fields o.matchWord_is_opcode (Op.wordOpc_of_legal h) (Op.rsv_of_legal h)
  have ifx := Op.wordIfx_of_legal h
  have tag := Op.wordTag_of_legal h
  have f := Op.wordF_of_legal h
  cases o
  case vlanEnable | vlanDisable => rwa [f rfl] at fields
  case vlanLookup => rwa [ifx rfl, f rfl] at fields
  case l2Enable => rwa [tag rfl] at fields
  case clsBcast | clsMcast | mapIpv6 | mapIpv4 | bcastAddr => rwa [ifx rfl, tag rfl, f rfl] at fields
  all_goals rwa [tag rfl, f rfl] at fields

/-! ### The operands of a decoded command -/

theorem wordIfx_eq (w : CmdWord) : wordIfx w = w.toNat / 2 ^ 8 % 2 ^ 8 := by
  simp [wordIfx, Nat.shiftRight_eq_div_pow]

theorem wordTag_toNat (w : CmdWord) : (wordTag w).toNat = w.toNat / 2 ^ 16 % 2 ^ 12 := by
  simp [wordTag, Nat.shiftRight_eq_div_pow]

theorem wordF_eq_true (w : CmdWord) : wordF w = true ↔ w.toNat / 2 ^ 28 % 2 = 1 := by
  rw [wordF, BitVec.getLsbD, Nat.testBit_eq_decide_div_mod_eq, decide_eq_true_iff]

theorem Op.ifx_of_build {o : Op} {w : CmdWord} {n : Nat} (h : (o.build w).ifx? = some n) : n = wordIfx w := by
  cases o <;> cases h <;> rfl

/-! ### The opcodes of the map -/

theorem Op.all_opcodes : Op.all.map (fun o => (wordOpc o.matchWord).toNat) =
    [0x01, 0x02, 0x03, 0x04, 0x05, 0x10, 0x11, 0x12, 0x13, 0x14, 0x15, 0x20, 0x21, 0x22, 0x23, 0x30] := rfl

theorem Op.select_eq_none_iff_not_mem (w : CmdWord) :
    Op.select w = none ↔ w.toNat % 256 ∉ Op.all.map fun o => (wordOpc o.matchWord).toNat := by
  rw [Op.select_eq_none, ← wordOpc_toNat]
  simp [Op.mem_all, BitVec.toNat_inj]

/-! ### The statements about words -/

/-- Settles O1: the word of a command is legal for the command's row, and the row's fields of it are the operands. -/
theorem decodeOfEncodeIsTheCommand : Obligations.DecodeOfEncodeIsTheCommand := fun i wf =>
  decode_eq_ok_iff_legal.2 ⟨i.op, encode_legal i, (build_encode wf).symm⟩

/-- Settles O2: a legal word is assembled from its fields, and those its row's mask covers are 0. -/
theorem encodeOfDecodeIsTheWord : Obligations.EncodeOfDecodeIsTheWord := by
  intro w i h
  obtain ⟨o, legal, rfl⟩ := decode_eq_ok_iff_legal.1 h
  refine ⟨encode_build legal, Instr.wellFormed_iff.2 fun n hn => ?_⟩
  rw [Op.ifx_of_build hn]
  exact BitVec.isLt _

/-- Settles O3: every mask covers the opcode, so a word legal for a row has the row's opcode, and no two rows share one. -/
theorem decodeFollowsTheOpcodeMap : Obligations.DecodeFollowsTheOpcodeMap := by
  refine fun w => ⟨fun o _ => ⟨?_, fun legal => ?_⟩, ?_, Op.mask_covers_opcode, Op.eq_of_opc, fun o o' h h' => ?_⟩
  · rintro ⟨i, hi, rfl⟩
    obtain ⟨o, legal, rfl⟩ := decode_eq_ok_iff_legal.1 hi
    rwa [Op.op_build]
  · exact ⟨o.build w, decode_eq_ok_iff_legal.2 ⟨o, legal, rfl⟩, Op.op_build o w⟩
  · rintro ⟨i, hi⟩
    obtain ⟨o, legal, -⟩ := decode_eq_ok_iff_legal.1 hi
    exact ⟨o, Op.wordOpc_of_legal legal⟩
  · exact Op.eq_of_opc o o' ((Op.wordOpc_of_legal h).trans (Op.wordOpc_of_legal h').symm)

/-- Settles O4: the decoder refuses a word for its opcode when no row has it, and the rows' opcodes are sixteen numbers. -/
theorem reservedOpcodesAreExactlyTheUnmappedOnes : Obligations.ReservedOpcodesAreExactlyTheUnmappedOnes := by
  intro w
  rw [decode_eq_reservedOpcode, Op.select_eq_none_iff_not_mem, Op.all_opcodes]
  simp only [List.mem_cons, List.not_mem_nil, or_false]
  omega

/-- Settles O5: the operands are what `Op.build` takes from the word. -/
theorem decodedOperandsAreTheWordsFields : Obligations.DecodedOperandsAreTheWordsFields := by
  intro w i h
  obtain ⟨o, -, rfl⟩ := decode_eq_ok_iff_legal.1 h
  refine ⟨fun n hn => ?_, fun n t ht => ?_, fun t ht => ?_, fun n f hf => ?_⟩
  · rw [Op.ifx_of_build hn, wordIfx_eq]
  · have : t = wordTag w := by obtain ht | ht := ht <;> cases o <;> cases ht <;> rfl
    rw [this, wordTag_toNat]
  · have : t = wordTag w := by cases o <;> cases ht; rfl
    rw [this, wordTag_toNat]
  · have : f = wordF w := by cases o <;> cases hf; rfl
    rw [this, wordF_eq_true]

/-- Settles O6: the decoder evaluated on each word. -/
theorem writtenOutWordsDecode : Obligations.WrittenOutWordsDecode := by
  unfold Obligations.WrittenOutWordsDecode
  decide

end Sys2Proof

namespace Sys2Proof.Machine

section Guards

variable {s : State} {n : Nat} {f : Iface} {h : Handle} {p : Packet}

/-! ### Steps with a write of `CMD` -/

section WriteCmd

variable {w : CmdWord} {rest : List HostAction} (hw : s.host = .writeCmd w :: rest)
include hw

theorem step_writeCmd_of_faulted (hf : s.faulted = true) : step s = .fault .notAccepted := by simp [step, hw, hf]

theorem step_writeCmd_of_ok {i : Instr} (hf : s.faulted = false) (hi : decode w = .ok i) :
    step s = exec i (s.acceptCmd w rest) := by simp [step, hw, hf, hi]

theorem step_writeCmd_of_error {r : DecodeReject} (hf : s.faulted = false) (hr : decode w = .error r) :
    step s = .next (s.acceptCmd w rest).illegal := by simp [step, hw, hf, hr]

end WriteCmd

/-- Items 1 and 2 of 30_encoding.md R88: the opcode is in no row, or the word is not legal for the row that has it. -/
theorem decode_eq_error {w : CmdWord} (h : (∀ o : Op, wordOpc o.matchWord ≠ wordOpc w)
    ∨ ∃ o : Op, wordOpc o.matchWord = wordOpc w ∧ w &&& o.mask ≠ o.matchWord) : ∃ r, decode w = .error r := by
  cases e : decode w with
  | error r => exact ⟨r, rfl⟩
  | ok i =>
    obtain ⟨o, opc, legal, -⟩ := (decode_eq_ok w i).1 e
    obtain unmapped | ⟨o', opc', illegal⟩ := h
    · exact absurd opc (unmapped o)
    · rw [Op.eq_of_opc o' o (opc'.trans opc.symm)] at illegal
      exact absurd legal illegal

/-! ### The guard each command begins with (30_encoding.md R88 items 3 to 5) -/

theorem exec_onIface {i : Instr} (hi : i.ifx? = some n) (s : State) : ∃ k, exec i s = .next (s.onIface n k) := by
  cases i <;> cases hi <;> exact ⟨_, rfl⟩

theorem exec_onEth {b : Bool} {i : Instr} (hi : i ∈ [Instr.rx n, .tx n, .hdrBuild n, .l2Enable n b]) (s : State) :
    ∃ k, exec i s = .next (s.onEth n k) := by
  simp only [List.mem_cons, List.not_mem_nil, or_false] at hi
  obtain rfl | rfl | rfl | rfl := hi <;> exact ⟨_, rfl⟩

theorem exec_onPacket {i : Instr} (hi : i ∈ [Instr.rx n, .tx n, .hdrBuild n]) (s : State) :
    ∃ k, exec i s = .next (s.onPacket n k) := by
  simp only [List.mem_cons, List.not_mem_nil, or_false] at hi
  obtain rfl | rfl | rfl := hi <;> exact ⟨_, rfl⟩

/-! ### Guards that stop a command -/

theorem State.onPacket_noPacket (k : Iface → Handle → Packet → State) (hf : s.cfg.ifaces[n]? = some f)
    (he : f.isEth = true) (ho : s.ops.opPkt = some h) (hp : s.mem.packet? h = none) : s.onPacket n k = s.illegal := by
  simp [State.onPacket, State.onEth_some _ hf he, ho, hp]

theorem State.onPacket_unwritten (k : Iface → Handle → Packet → State) (hf : s.cfg.ifaces[n]? = some f)
    (he : f.isEth = true) (ho : s.ops.opPkt = none) : s.onPacket n k = s.raiseFatal .hostDuty := by
  simp [State.onPacket, State.onEth_some _ hf he, ho]

theorem OperandRegs.ip6?_eq_none {o : OperandRegs} (h : o.opIpLo = none ∨ o.opIpHi = none) : o.ip6? = none := by
  obtain h | h := h <;> simp [OperandRegs.ip6?, h]

/-- A read faults for want of its operand, or because whatever follows it does. -/
theorem State.onOperand_fault {α : Type} {o : Option α} {k : α → State}
    (h : o = none ∨ ∀ a, k a = s.raiseFatal .hostDuty) : s.onOperand o k = s.raiseFatal .hostDuty := by
  obtain ⟨-, e⟩ | ⟨a, rfl, e⟩ := State.onOperand_cases o s k
  · exact e
  · exact e.trans ((h.resolve_left nofun) a)

theorem State.onOptAddr_fault {v : Option Bool} {a : Option Addr6} {k : Option Addr6 → State}
    (h : v = none ∨ (v = some true ∧ a = none) ∨ ∀ x, k x = s.raiseFatal .hostDuty) :
    s.onOptAddr v a k = s.raiseFatal .hostDuty := by
  obtain rfl | ⟨rfl, rfl⟩ | h := h
  · rfl
  · rfl
  · obtain e | ⟨x, e⟩ := State.onOptAddr_cases v a s k
    · exact e
    · exact e.trans (h x)

theorem State.ifOwned_fault {k : State} (hk : k = s.raiseFatal .hostDuty) : s.ifOwned h k = s.raiseFatal .hostDuty := by
  obtain ⟨-, e⟩ | ⟨-, e⟩ := State.ifOwned_cases h s k
  · exact e
  · exact e.trans hk

section HdrBuild

variable (hf : s.cfg.ifaces[n]? = some f) (he : f.isEth = true) (ho : s.ops.opPkt = some h)
  (hp : s.mem.packet? h = some p)
include hf he ho hp

/-- Item 6 of 30_encoding.md R88: `OPFRAG` names no fragment of the packet. -/
theorem exec_hdrBuild_noFrag {k : Byte} (hk : s.ops.opFrag = some k) (hn : p.frags.length ≤ k.toNat) :
    exec (.hdrBuild n) s = .next s.illegal := by
  simp [exec, execHdrBuild, State.onPacket_some _ hf he ho hp, hk, hn]

/-- The operands HDR_BUILD reads after its packet: `OPFRAG` first, every other before the headroom test (log 26). -/
theorem exec_hdrBuild_unwritten
    (hu : s.ops.opFrag = none ∨ ∃ k, s.ops.opFrag = some k ∧ k.toNat < p.frags.length
      ∧ (s.ops.opSrcV = none ∨ (s.ops.opSrcV = some true ∧ s.ops.opSrc = none) ∨ s.ops.opDstV = none
        ∨ (s.ops.opDstV = some true ∧ s.ops.opDst = none) ∨ s.ops.opType = none)) :
    exec (.hdrBuild n) s = .next (s.raiseFatal .hostDuty) := by
  simp only [exec, execHdrBuild, State.onPacket_some _ hf he ho hp]
  obtain hfrag | ⟨k, hfrag, hk, unwritten⟩ := hu
  · rw [hfrag, State.onOperand_none]
  · rw [hfrag, State.onOperand_some, List.getElem?_eq_getElem hk]
    refine congrArg _ (State.ifOwned_fault (State.onOptAddr_fault ?_))
    refine unwritten.imp_right (Or.imp_right fun unwritten => fun src => State.onOptAddr_fault ?_)
    exact unwritten.imp_right (Or.imp_right fun unwritten => fun dst => State.onOperand_fault (.inl unwritten))

end HdrBuild

end Guards

/-! ### The statements about commands -/

/-- Settles O8: each command begins with a guard, and each illegal case or unwritten operand is where a guard stops it. -/
theorem illegalCommandChangesOnlyStatus : Obligations.IllegalCommandChangesOnlyStatus := by
  refine fun s => ⟨fun w rest hw hrun bad => ?_, fun i n hi hn => ?_, fun n f b hf he i hi => ?_,
    fun n f h hf he ho hp i hi => ?_, fun n f h p k hf he ho hp hk hn => exec_hdrBuild_noFrag hf he ho hp hk hn,
    fun ha i hi => ?_, fun hlo => ?_, fun hip => ?_, fun n f hf he ho i hi => ?_,
    fun n f h p hf he ho hp hu => exec_hdrBuild_unwritten hf he ho hp hu⟩
  · obtain ⟨r, hr⟩ := decode_eq_error bad
    exact step_writeCmd_of_error hw hrun hr
  · obtain ⟨k, e⟩ := exec_onIface hi s
    rw [e, State.onIface_none k (List.getElem?_eq_none hn)]
    rfl
  · obtain ⟨k, e⟩ := exec_onEth hi s
    rw [e, State.onEth_notEth k hf he]
    rfl
  · obtain ⟨k, e⟩ := exec_onPacket hi s
    rw [e, State.onPacket_noPacket k hf he ho hp]
    rfl
  · simp only [List.mem_cons, List.not_mem_nil, or_false] at hi
    obtain rfl | rfl := hi <;> exact congrArg _ (State.onOperand_fault (.inl ha))
  · exact congrArg _ (State.onOperand_fault (.inl hlo))
  · exact congrArg _ (State.onOperand_fault (.inl (OperandRegs.ip6?_eq_none hip)))
  · obtain ⟨k, e⟩ := exec_onPacket hi s
    rw [e, State.onPacket_unwritten k hf he ho]
    rfl

/-- Settles O7: the three outcomes of `step` on a write of `CMD`. -/
theorem writeOfCmdRunsTheDecodedCommand : Obligations.WriteOfCmdRunsTheDecodedCommand := fun _ _ _ hw =>
  ⟨step_writeCmd_of_faulted hw, fun hrun _ hi => step_writeCmd_of_ok hw hrun hi,
    fun hrun _ hr => step_writeCmd_of_error hw hrun hr⟩

end Sys2Proof.Machine
end

section
/-! PROOFS. AddressClassifier (40_address_classifier.md): IsBcast and IsMcast as statements about the bytes of the
address, and the two commands that report them. -/

namespace Sys2Proof.Machine

/-! ### The two functions (R100, R101) -/

theorem isBcast_eq_decide (a : Addr6) : isBcast a = decide (∀ (k : Nat) (_ : k < 6), a[k] = 0xFF) := by
  rw [Bool.eq_iff_iff, decide_eq_true_iff]
  simp only [isBcast, Bool.and_eq_true, beq_iff_eq, and_assoc]
  constructor
  · rintro ⟨h0, h1, h2, h3, h4, h5⟩ k hk
    interval_cases k <;> assumption
  · exact fun h => ⟨h 0 _, h 1 _, h 2 _, h 3 _, h 4 _, h 5 _⟩

/-- The group bit is the least significant bit of byte 0 (00_scope.md R11). -/
theorem groupBit_eq_decide (a : Addr6) : groupBit a = decide (a[0].toNat % 2 = 1) := Nat.testBit_zero _

theorem isMcast_eq_decide (a : Addr6) :
    isMcast a = (decide (a[0].toNat % 2 = 1) && !decide (∀ (k : Nat) (_ : k < 6), a[k] = 0xFF)) := by
  rw [← groupBit_eq_decide, ← isBcast_eq_decide, isMcast]

theorem not_isBcast_and_isMcast (a : Addr6) : ¬ (isBcast a = true ∧ isMcast a = true) := by
  rintro ⟨bcast, mcast⟩
  simp [isMcast, bcast] at mcast

/-- A unicast address is one whose group bit is 0: the all-ones address has it set too. -/
theorem unicast_iff (a : Addr6) : (isBcast a = false ∧ isMcast a = false) ↔ a[0].toNat % 2 = 0 := by
  rw [← Bool.or_eq_false_iff, isBcast_or_isMcast, groupBit_eq_decide, decide_eq_false_iff_not]
  exact Nat.mod_two_ne_one

/-! ### The two commands (R102, R103) -/

section Commands

variable {s : State} {a : Addr6} (ha : s.ops.opA = some a)
include ha

theorem exec_clsBcast : exec .clsBcast s = .next ((s.setBool (isBcast a)).setStatus .ok) := by
  rw [exec, execClsBcast, ha, State.onOperand_some]

theorem exec_clsMcast : exec .clsMcast s = .next ((s.setBool (isMcast a)).setStatus .ok) := by
  rw [exec, execClsMcast, ha, State.onOperand_some]

end Commands

/-! ### The statements about the classifier -/

/-- Settles O26: CLS_MCAST reports IsMcast, which is the group bit without broadcast. -/
theorem clsMcastTellsTheGroupBit : Obligations.ClsMcastTellsTheGroupBit := by
  refine ⟨fun s a ha => ?_, unicast_iff⟩
  rw [exec_clsMcast ha, isMcast_eq_decide]
  rfl

/-- Settles O25: CLS_BCAST reports IsBcast, which asks each of the six bytes to be 0xFF. -/
theorem clsBcastTellsAllOnes : Obligations.ClsBcastTellsAllOnes := by
  intro s a ha
  rw [exec_clsBcast ha, isBcast_eq_decide]
  rfl

/-- Settles O27: IsMcast excludes broadcast by its definition. -/
theorem broadcastAndMulticastExclude : Obligations.BroadcastAndMulticastExclude :=
  ⟨not_isBcast_and_isMcast, by decide, by decide⟩

end Sys2Proof.Machine
end

section
/-! PROOFS. MulticastMapper (41_multicast_mapper.md): which bytes of `OPIP` the two mappings take, and the three commands
that report an address. -/

namespace Sys2Proof.Machine

/-! ### The bytes of `OPIP` (10_state.md R23) -/

/-- `OPIP[4..16)` is the upper operand, when both are written. -/
theorem OperandRegs.ip6?_upper {o : OperandRegs} {l : Ip4} {u : Vector Byte 12} (hl : o.opIpLo = some l)
    (hu : o.opIpHi = some u) : ∃ w, o.ip6? = some w ∧ ∀ (k : Nat) (_ : k < 12), w[4 + k] = u[k] := by
  refine ⟨_, by rw [ip6?, hl, hu], fun k hk => ?_⟩
  interval_cases k <;> rfl

/-! ### The two mappings (R110, R111) -/

theorem ipv6McastToLink_of_upper {w : Ip6} {u : Vector Byte 12} (hw : ∀ (k : Nat) (_ : k < 12), w[4 + k] = u[k]) :
    ipv6McastToLink w = (#v[0x33, 0x33, u[8], u[9], u[10], u[11]] : Addr6) := by
  simp [ipv6McastToLink, ← hw]

/-- Clearing the top bit of a byte leaves its low seven bits. -/
theorem toNat_and_0x7F (b : Byte) : (b &&& 0x7F).toNat = b.toNat % 128 :=
  (BitVec.toNat_and b 0x7F).trans (Nat.and_two_pow_sub_one_eq_mod b.toNat 7)

/-! ### The three commands (R115 to R117) -/

theorem exec_mapIpv6 {s : State} {w : Ip6} (hw : s.ops.ip6? = some w) :
    exec .mapIpv6 s = .next ((s.setAddr (ipv6McastToLink w)).setStatus .ok) := by
  rw [exec, execMapIpv6, hw, State.onOperand_some]

theorem exec_mapIpv4 {s : State} {v : Ip4} (hv : s.ops.ip4? = some v) :
    exec .mapIpv4 s = .next ((s.setAddr (ipv4McastToLink v)).setStatus .ok) := by
  rw [exec, execMapIpv4, hv, State.onOperand_some]

theorem exec_bcastAddr (s : State) : exec .bcastAddr s = .next ((s.setAddr bcastAddr).setStatus .ok) := rfl

/-! ### The statements about the mapper -/

/-- Settles O29: the fourth byte of the mapped address is `v[1]` with its top bit cleared. -/
theorem mapIpv4TakesTheLow23Bits : Obligations.MapIpv4TakesTheLow23Bits := fun _ v hv =>
  ⟨v[1] &&& 0x7F, toNat_and_0x7F v[1], exec_mapIpv4 hv⟩

/-- Settles O28: the last four bytes of `OPIP` are the last of its upper twelve. -/
theorem mapIpv6TakesTheLastFourBytes : Obligations.MapIpv6TakesTheLastFourBytes := by
  intro s l u hl hu
  obtain ⟨w, hw, upper⟩ := OperandRegs.ip6?_upper hl hu
  rw [exec_mapIpv6 hw, ipv6McastToLink_of_upper upper]
  rfl

/-- Settles O30: BCAST_ADDR reads no operand, so no state stops it. -/
theorem bcastAddrIsAllOnes : Obligations.BcastAddrIsAllOnes := exec_bcastAddr

end Sys2Proof.Machine
end

section
/-! PROOFS. VlanTable (42_vlan_table.md): what each command does, one lemma per case of its rule; the count from reset;
and the statements about the table. -/

namespace Sys2Proof.Machine

/-! ### Searches and writes of one slot (R120, R133, R135) -/

section Slots

variable {ss : List Slot} {k i j : Nat} {t u : Tag} {sl : Slot}

theorem find?_of_isFirstSlot {p : Slot → Bool} {P : Slot → Prop} (hp : ∀ x, p x = true ↔ P x)
    (hk : isFirstSlot ss P k) (hsl : ss[k]? = some sl) : ss.find? p = some sl :=
  (find?_eq_some_iff ss p sl).2 ⟨k, by simpa only [hp] using hk, hsl⟩

theorem firstBound_isSome : (firstBound ss i).isSome = true ↔ ∃ sl ∈ ss, sl.bound = some i := by
  simp [firstBound]

theorem lookupByTag_of_tagged (ht : t ≠ u) (hk : isFirstSlot ss (fun x => x.tag = t) k) (hsl : ss[k]? = some sl) :
    lookupByTag u ss t = sl.bound := by
  have tagMatches : ∀ x : Slot, (x.tag != u && x.tag == t) = true ↔ x.tag = t := by
    intro x
    simp only [Bool.and_eq_true, bne_iff_ne, beq_iff_eq]
    exact ⟨And.right, fun e => ⟨e ▸ ht, e⟩⟩
  rw [lookupByTag, find?_of_isFirstSlot tagMatches hk hsl]

/-- With no match the free slots decide, `TAG_UNSPEC` matching no slot. -/
theorem lookupByTag_of_noMatch (h : t = u ∨ ∀ x ∈ ss, x.tag ≠ t) :
    lookupByTag u ss t = (ss.find? fun x => x.tag == u && x.bound.isSome).bind Slot.bound := by
  have noMatch : (ss.find? fun x => x.tag != u && x.tag == t) = none := by
    refine List.find?_eq_none.2 fun x hx => ?_
    simp only [Bool.and_eq_true, bne_iff_ne, beq_iff_eq]
    rintro ⟨hu, rfl⟩
    exact h.elim hu fun h => h x hx rfl
  rw [lookupByTag, noMatch]
  cases ss.find? fun x => x.tag == u && x.bound.isSome <;> rfl

theorem lookupByTag_of_free (h : t = u ∨ ∀ x ∈ ss, x.tag ≠ t)
    (hk : isFirstSlot ss (fun x => x.tag = u ∧ x.bound ≠ none) k) (hsl : ss[k]? = some sl) :
    lookupByTag u ss t = sl.bound := by
  rw [lookupByTag_of_noMatch h, find?_of_isFirstSlot (fun x => ?_) hk hsl]
  · rfl
  · simp [Option.isSome_iff_ne_none]

theorem lookupByTag_eq_none (h : t = u ∨ ∀ x ∈ ss, x.tag ≠ t) (hn : ∀ x ∈ ss, ¬ (x.tag = u ∧ x.bound ≠ none)) :
    lookupByTag u ss t = none := by
  rw [lookupByTag_of_noMatch h, List.find?_eq_none.2 fun x hx => ?_]
  · rfl
  · simpa [Option.isSome_iff_ne_none] using hn x hx

theorem getTag_of_firstBound (hk : isFirstSlot ss (fun x => x.bound = some i) k) (hsl : ss[k]? = some sl) :
    getTag u ss i = sl.tag := by
  rw [getTag, find?_of_isFirstSlot (fun _ => beq_iff_eq) hk hsl]

theorem getTag_of_unbound (hn : ∀ x ∈ ss, x.bound ≠ some i) : getTag u ss i = u := by
  rw [getTag, List.find?_eq_none.2 fun x hx => by simpa using hn x hx]

theorem setSlotTag_of_bound (hsl : ss[k]? = some sl) (hb : sl.bound = some i) :
    setSlotTag ss k t = ss.set k ⟨t, some i⟩ := by
  rw [setSlotTag_eq hsl, hb]

theorem setSlotBound_of_tag (hsl : ss[k]? = some sl) (ht : sl.tag = u) :
    setSlotBound ss k i = ss.set k ⟨u, some i⟩ := by
  rw [setSlotBound_eq hsl, ht]

/-- Taking the one slot of `j` for another interface leaves `j` without a slot (R122). -/
theorem unbound_of_set (once : ∀ (a b : Nat) (x y : Slot), ss[a]? = some x → ss[b]? = some y → x.bound = some j →
    y.bound = some j → a = b) (hsl : ss[k]? = some sl) (hb : sl.bound = some j) (ne : j ≠ i) :
    ∀ x ∈ ss.set k ⟨t, some i⟩, x.bound ≠ some j := by
  intro x hx hxb
  obtain ⟨a, ha⟩ := List.mem_iff_getElem?.1 hx
  obtain ⟨-, rfl⟩ | ⟨hak, ha⟩ := getElem?_set_cases ha
  · exact ne (Option.some.inj hxb).symm
  · exact hak (once a k x sl ha hsl hxb hb)

end Slots

/-! ### VLAN_INIT (R121, R122) -/

theorem Context.initBind_of_noFree {x : Context} {m : InitFreeSlot} {u : Tag} (n i : Nat)
    (hn : ∀ sl ∈ x.slots, ¬ (sl.tag = u ∧ (m = .unbound → sl.bound = none))) :
    x.initBind m u n i = { x with init := true } := by
  rw [Context.initBind, (initFree_eq_none m u x.slots).2 hn]

theorem Context.initBind_of_free {x : Context} {m : InitFreeSlot} {u : Tag} {k : Nat} (n i : Nat)
    (hk : isFirstSlot x.slots (fun sl => sl.tag = u ∧ (m = .unbound → sl.bound = none)) k) :
    x.initBind m u n i =
      { x with
        slots := x.slots.set k ⟨u, some i⟩
        ifBitset := if x.init = true then x.ifBitset else List.replicate n false
        init := true } := by
  rw [Context.initBind, (initFree_eq_some m u x.slots k).2 hk]
  obtain ⟨⟨sl, hsl, htag, -⟩, -⟩ := hk
  simp only [setSlotBound_of_tag hsl htag]

/-- Where `INIT_FREE_SLOT = unbound`, VLAN_INIT leaves every bound slot as it is (R122). -/
theorem Context.initBind_unbound_getElem? {x : Context} {u : Tag} {k j : Nat} {sl : Slot} (n i : Nat)
    (hsl : x.slots[k]? = some sl) (hb : sl.bound = some j) : (x.initBind .unbound u n i).slots[k]? = some sl := by
  cases hfree : initFree .unbound u x.slots with
  | none => rw [Context.initBind, hfree]; exact hsl
  | some l =>
    have first := (initFree_eq_some _ _ _ _).1 hfree
    have ne : l ≠ k := by
      obtain ⟨⟨free, hl, -, hun⟩, -⟩ := first
      rintro rfl
      obtain rfl := Option.some.inj (hl.symm.trans hsl)
      exact absurd (hb.symm.trans (hun rfl)) (by simp)
    rw [Context.initBind_of_free n i first]
    exact (List.getElem?_set_ne ne).trans hsl

section Commands

variable {s : State} {i : Nat} {f : Iface} {t : Tag} (hf : s.cfg.ifaces[i]? = some f)
include hf

theorem exec_vlanInit_noEffect (h : f.vlanCap = false ∨ ∃ sl ∈ s.ctx.slots, sl.bound = some i) :
    exec (.vlanInit i) s = .next (s.setStatus .ok) := by
  rw [← firstBound_isSome] at h
  rw [exec, execVlanInit, State.onIface_some _ hf]
  obtain h | h := h <;> simp [h]

theorem exec_vlanInit_binds (hcap : f.vlanCap = true) (hn : ∀ sl ∈ s.ctx.slots, sl.bound ≠ some i) :
    exec (.vlanInit i) s = .next ((s.setStatus .ok).setCtx
      (s.ctx.initBind s.cfg.initFree s.cfg.tagUnspec s.cfg.numIfaces i)) := by
  rw [exec, execVlanInit, State.onIface_some _ hf]
  simp [hcap, (firstBound_eq_none _ _).2 hn]

/-! ### VLAN_ENABLE (R123, R124) -/

theorem exec_vlanEnable_invalidLayer (he : f.isEth = false) :
    exec (.vlanEnable i t) s = .next (s.setStatus .invalidLayer) := by
  rw [exec, execVlanEnable, State.onIface_some _ hf]
  simp [he]

theorem exec_vlanEnable_notInitialized (he : f.isEth = true) (hi : s.ctx.init = false) :
    exec (.vlanEnable i t) s = .next (s.setStatus .notInitialized) := by
  rw [exec, execVlanEnable, State.onIface_some _ hf]
  simp [he, hi]

theorem exec_vlanEnable_invalidTag (he : f.isEth = true) (hi : s.ctx.init = true) :
    exec (.vlanEnable i s.cfg.tagUnspec) s = .next (s.setStatus .invalidTag) := by
  rw [exec, execVlanEnable, State.onIface_some _ hf]
  simp [he, hi]

theorem exec_vlanEnable_alreadyExists (he : f.isEth = true) (hi : s.ctx.init = true) (ht : t ≠ s.cfg.tagUnspec)
    (hp : ∃ sl ∈ s.ctx.slots, sl.bound = some i ∧ sl.tag = t) :
    exec (.vlanEnable i t) s = .next (s.setStatus .alreadyExists) := by
  obtain ⟨sl, hsl, pair⟩ := hp
  have found : (findPair s.cfg.tagUnspec s.ctx.slots i t).isSome = true :=
    Option.isSome_iff_ne_none.2 fun absent => (findPair_eq_none ht _ _).1 absent sl hsl pair
  rw [exec, execVlanEnable, State.onIface_some _ hf]
  simp [he, hi, ht, found]

theorem exec_vlanEnable_noCapacity (he : f.isEth = true) (hi : s.ctx.init = true) (ht : t ≠ s.cfg.tagUnspec)
    (hp : ∀ sl ∈ s.ctx.slots, ¬ (sl.bound = some i ∧ sl.tag = t))
    (hn : ∀ sl ∈ s.ctx.slots, ¬ (sl.bound = some i ∧ sl.tag = s.cfg.tagUnspec)) :
    exec (.vlanEnable i t) s = .next (s.setStatus .noCapacity) := by
  rw [exec, execVlanEnable, State.onIface_some _ hf]
  simp [he, hi, ht, (findPair_eq_none ht _ _).2 hp, (freeBound_eq_none _ _ _).2 hn]

theorem exec_vlanEnable_ok {k : Nat} (he : f.isEth = true) (hi : s.ctx.init = true) (ht : t ≠ s.cfg.tagUnspec)
    (hp : ∀ sl ∈ s.ctx.slots, ¬ (sl.bound = some i ∧ sl.tag = t))
    (hk : isFirstSlot s.ctx.slots (fun sl => sl.bound = some i ∧ sl.tag = s.cfg.tagUnspec) k) :
    exec (.vlanEnable i t) s =
      .next (((s.setCtx (s.ctx.enable s.cfg.vlanCount k i t)).vlanHook f i t true).setStatus .ok) := by
  rw [exec, execVlanEnable, State.onIface_some _ hf]
  simp [he, hi, ht, (findPair_eq_none ht _ _).2 hp, (freeBound_eq_some _ _ _ _).2 hk]

/-! ### VLAN_DISABLE (R127, R128) -/

theorem exec_vlanDisable_invalidLayer (he : f.isEth = false) :
    exec (.vlanDisable i t) s = .next (s.setStatus .invalidLayer) := by
  rw [exec, execVlanDisable, State.onIface_some _ hf]
  simp [he]

theorem exec_vlanDisable_invalidTag (he : f.isEth = true) :
    exec (.vlanDisable i s.cfg.tagUnspec) s = .next (s.setStatus .invalidTag) := by
  rw [exec, execVlanDisable, State.onIface_some _ hf]
  simp [he]

theorem exec_vlanDisable_notFound (he : f.isEth = true) (ht : t ≠ s.cfg.tagUnspec)
    (hp : ∀ sl ∈ s.ctx.slots, ¬ (sl.bound = some i ∧ sl.tag = t)) :
    exec (.vlanDisable i t) s = .next (s.setStatus .notFound) := by
  rw [exec, execVlanDisable, State.onIface_some _ hf]
  simp [he, ht, (findPair_eq_none ht _ _).2 hp]

theorem exec_vlanDisable_ok {k : Nat} (he : f.isEth = true) (ht : t ≠ s.cfg.tagUnspec)
    (hk : isFirstSlot s.ctx.slots (fun sl => sl.bound = some i ∧ sl.tag = t) k) :
    exec (.vlanDisable i t) s =
      .next (((s.setCtx (s.ctx.disable s.cfg.tagUnspec k i)).vlanHook f i t false).setStatus .ok) := by
  rw [exec, execVlanDisable, State.onIface_some _ hf]
  simp [he, ht, (findPair_eq_some ht _ _ _).2 hk]

/-! ### The commands that only read the table (R132, R134, R136) -/

theorem exec_vlanIsEnabled : exec (.vlanIsEnabled i) s = .next ((s.setBool (s.vlanActive i)).setStatus .ok) := by
  rw [exec, execVlanIsEnabled, State.onIface_some _ hf]

theorem exec_vlanGetTag :
    exec (.vlanGetTag i) s = .next ((s.setTag (getTag s.cfg.tagUnspec s.ctx.slots i)).setStatus .ok) := by
  rw [exec, execVlanGetTag, State.onIface_some _ hf]

end Commands

theorem exec_vlanLookup (s : State) (t : Tag) :
    exec (.vlanLookup t) s = .next ((s.setIface (lookupByTag s.cfg.tagUnspec s.ctx.slots t)).setStatus .ok) := rfl

theorem exec_vlanLookup_of_some {s : State} {t : Tag} {j : Nat} (h : lookupByTag s.cfg.tagUnspec s.ctx.slots t = some j) :
    ∃ b : Byte, b.toNat = j % 256 ∧ exec (.vlanLookup t) s =
      .next { s with res := { s.res with ifaceV := some true, iface := some b, status := some 0 } } :=
  ⟨BitVec.ofNat 8 j, BitVec.toNat_ofNat j 8, by rw [exec_vlanLookup, h]; rfl⟩

/-- The driver hook writes at most one event at the end of the log (R125). -/
theorem State.vlanHook_eq (f : Iface) (i : Nat) (t : Tag) (en : Bool) (s : State) :
    s.vlanHook f i t en =
      { s with log := s.log ++ if f.hasVlanHook = true then [.vlanSetup i t en] else [] } := by
  unfold State.vlanHook
  split
  · rfl
  · rw [List.append_nil]

/-! ### The count (R130, R131) -/

theorem Context.enabledCount_eq_vlanCount_iff {c : Launch} {x : Context} (hs : x.sound c) :
    x.enabledCount = c.vlanCount ↔ ∀ sl ∈ x.slots, sl.tag ≠ c.tagUnspec := by
  obtain ⟨⟨len, -⟩, -, -, -, count, -⟩ := hs
  rw [count, ← len, taggedSlots, List.countP_eq_length]
  simp only [bne_iff_ne]

theorem step_cfg {s s' : State} (h : step s = .next s') : s'.cfg = s.cfg := by
  obtain ⟨rest, -, rfl⟩ | ⟨i, w, rest, -, h⟩ | ⟨_, _, _, _, _, _, rfl, -⟩ := step_next_cases h
  · rfl
  · exact exec_cfg (s := s.acceptCmd w rest) h
  · rfl

/-- What every step keeps holds at the end of a run that it held at the start of. -/
theorem run_keeps {M : Host.Core} {P : M.State → Prop} (keep : ∀ s s', P s → M.step s = .next s' → P s') {n : Nat}
    {s t : M.State} (hs : P s) (h : M.run n s = .next t) : P t := by
  induction n generalizing s with
  | zero => cases h; exact hs
  | succ n ih =>
    unfold Host.Core.run at h
    split at h
    · rename_i s' e
      exact ih (keep s s' hs e) h
    · cases h
    · cases h

/-- Every run keeps the invariant and the configuration. -/
theorem run_keeps_inv {c : Launch} {n : Nat} {s t : State} (hs : s.Inv ∧ s.cfg = c)
    (h : Sys2Proof.core.run n s = .next t) : t.Inv ∧ t.cfg = c :=
  run_keeps (M := Sys2Proof.core) (P := fun s : State => s.Inv ∧ s.cfg = c)
    (fun s s' ⟨inv, cfg⟩ e => ⟨stepKeepsTheInvariant s s' inv e, (step_cfg e).trans cfg⟩) hs h

/-- A launched block meets the invariant whatever the host will do and ARP will answer. -/
theorem launch_inv {c : Launch} {m : Memory} (hc : c.wf = true) (hm : m.wf = true) (hs : List HostAction)
    (ai : List ArpInputReply) (ar : List ArpResolveReply) :
    State.Inv { State.resetWith c with host := hs, mem := m, arpInputs := ai, arpResolves := ar } := by
  obtain ⟨-, ctx, res, cause, -⟩ := resetMeetsTheInvariant c hc
  exact ⟨hc, ctx, res, cause, hm⟩

/-! ### The round trip (R129) -/

/-- In a block launched with `c` and initialised, slot `k` holds the tag `t` and is the one slot of interface `i`. -/
structure State.HoldsTag (c : Launch) (i k : Nat) (t : Tag) (s : State) : Prop where
  cfg : s.cfg = c
  init : s.ctx.init = true
  slot : s.ctx.slots[k]? = some ⟨t, some i⟩
  only : ∀ (j : Nat) (sl : Slot), s.ctx.slots[j]? = some sl → sl.bound = some i → j = k

namespace State.HoldsTag

variable {c : Launch} {i k : Nat} {t t' : Tag} {s s' : State} {f : Iface}

/-- A search among the slots of the interface finds that slot. -/
theorem isFirstSlot (h : s.HoldsTag c i k t) {P : Slot → Prop} (bound : ∀ x, P x → x.bound = some i)
    (hP : P ⟨t, some i⟩) : isFirstSlot s.ctx.slots P k :=
  ⟨⟨_, h.slot, hP⟩, fun j hj sl hsl hp => hj.ne (h.only j sl hsl (bound sl hp))⟩

theorem tag_eq_of_bound (h : s.HoldsTag c i k t) {sl : Slot} (hsl : sl ∈ s.ctx.slots) (hb : sl.bound = some i) :
    sl.tag = t := by
  obtain ⟨j, hj⟩ := List.mem_iff_getElem?.1 hsl
  obtain rfl := h.only j sl hj hb
  obtain rfl := Option.some.inj (hj.symm.trans h.slot)
  rfl

/-- A command that writes another tag to that slot and leaves the other slots and `INIT`. -/
theorem of_setSlotTag (h : s.HoldsTag c i k t) (hcfg : s'.cfg = s.cfg) (hinit : s'.ctx.init = s.ctx.init)
    (hslots : s'.ctx.slots = setSlotTag s.ctx.slots k t') : s'.HoldsTag c i k t' := by
  rw [setSlotTag_of_bound h.slot rfl] at hslots
  have len : k < s.ctx.slots.length := (List.getElem?_eq_some_iff.1 h.slot).1
  refine ⟨hcfg.trans h.cfg, hinit.trans h.init, by rw [hslots, List.getElem?_set_self len], fun j sl hj hb => ?_⟩
  rw [hslots] at hj
  obtain ⟨rfl, -⟩ | ⟨-, hj⟩ := getElem?_set_cases hj
  · rfl
  · exact h.only j sl hj hb

/-- A command that writes result registers alone. -/
theorem of_res (h : s.HoldsTag c i k t) (r : ResultRegs) : HoldsTag c i k t { s with res := r } :=
  ⟨h.cfg, h.init, h.slot, h.only⟩

theorem iface (h : s.HoldsTag c i k t) (hf : c.ifaces[i]? = some f) : s.cfg.ifaces[i]? = some f := h.cfg ▸ hf

theorem vlanEnable (h : s.HoldsTag c i k c.tagUnspec) (hf : c.ifaces[i]? = some f) (he : f.isEth = true)
    (ht : t ≠ c.tagUnspec) :
    ∃ s', exec (.vlanEnable i t) s = .next s' ∧ s'.res.status = some 0 ∧ s'.HoldsTag c i k t := by
  have hp : ∀ sl ∈ s.ctx.slots, ¬ (sl.bound = some i ∧ sl.tag = t) := fun sl hsl ⟨hb, e⟩ =>
    ht (e.symm.trans (h.tag_eq_of_bound hsl hb))
  have hk := h.isFirstSlot (P := fun sl => sl.bound = some i ∧ sl.tag = s.cfg.tagUnspec) (fun _ => And.left)
    ⟨rfl, by rw [h.cfg]⟩
  exact ⟨_, exec_vlanEnable_ok (h.iface hf) he h.init (h.cfg ▸ ht) hp hk, rfl,
    h.of_setSlotTag (by simp) (by simp) (by simp [Context.enable])⟩

theorem vlanEnable_again (h : s.HoldsTag c i k t) (hf : c.ifaces[i]? = some f) (he : f.isEth = true)
    (ht : t ≠ c.tagUnspec) :
    ∃ s', exec (.vlanEnable i t) s = .next s' ∧ s'.res.status = some 4 ∧ s'.HoldsTag c i k t :=
  ⟨_, exec_vlanEnable_alreadyExists (h.iface hf) he h.init (h.cfg ▸ ht) ⟨_, List.mem_of_getElem? h.slot, rfl, rfl⟩, rfl,
    h.of_res _⟩

theorem vlanDisable (h : s.HoldsTag c i k t) (hf : c.ifaces[i]? = some f) (he : f.isEth = true)
    (ht : t ≠ c.tagUnspec) :
    ∃ s', exec (.vlanDisable i t) s = .next s' ∧ s'.res.status = some 0 ∧ s'.HoldsTag c i k c.tagUnspec := by
  have hk := h.isFirstSlot (P := fun sl => sl.bound = some i ∧ sl.tag = t) (fun _ => And.left) ⟨rfl, rfl⟩
  exact ⟨_, exec_vlanDisable_ok (h.iface hf) he (h.cfg ▸ ht) hk, rfl,
    h.of_setSlotTag (by simp) (by simp) (by simp [Context.disable, h.cfg])⟩

theorem vlanGetTag (h : s.HoldsTag c i k t) (hf : c.ifaces[i]? = some f) :
    ∃ s', exec (.vlanGetTag i) s = .next s' ∧ s'.res.tag = some t ∧ s'.HoldsTag c i k t := by
  have hk := h.isFirstSlot (P := fun sl => sl.bound = some i) (fun _ => id) rfl
  refine ⟨_, exec_vlanGetTag (h.iface hf), ?_, h.of_res _⟩
  rw [getTag_of_firstBound hk h.slot]
  rfl

end State.HoldsTag

/-- An interface bound to a free slot of a sound context holds `TAG_UNSPEC` there. -/
theorem exists_holdsTag_of_free {s : State} {i : Nat} (sound : s.ctx.sound s.cfg) (hi : s.ctx.init = true)
    (free : ∃ sl ∈ s.ctx.slots, sl.bound = some i ∧ sl.tag = s.cfg.tagUnspec) :
    ∃ k, s.HoldsTag s.cfg i k s.cfg.tagUnspec := by
  obtain ⟨-, -, once, -⟩ := sound
  obtain ⟨⟨_, _⟩, hsl, rfl, rfl⟩ := free
  obtain ⟨k, hk⟩ := List.mem_iff_getElem?.1 hsl
  exact ⟨k, rfl, hi, hk, fun j sl hj hb => (boundOnce_iff s.ctx).1 once j k i sl _ hj hk hb rfl⟩

/-! ### The statements about the table -/

/-- Settles O23: every run from launch keeps the invariant, and a sound context counts its tagged slots. -/
theorem enabledCountIsConsistentFromReset : Obligations.EnabledCountIsConsistentFromReset := by
  intro c hs m ai ar n s hc hm h
  obtain ⟨⟨-, sound, -⟩, rfl⟩ := run_keeps_inv ⟨launch_inv hc hm hs ai ar, rfl⟩ h
  have full := Context.enabledCount_eq_vlanCount_iff sound
  obtain ⟨-, -, -, -, count, bits, bit⟩ := sound
  exact ⟨count, bits, bit, full⟩

/-- Settles O31: by whether VLAN_INIT takes effect, and whether it finds a free slot. -/
theorem vlanInitBindsTheFirstFreeSlot : Obligations.VlanInitBindsTheFirstFreeSlot := by
  refine fun s i f hf => ⟨exec_vlanInit_noEffect hf, fun hcap hn full => ?_, fun k hcap hn hk => ?_⟩
  · rw [exec_vlanInit_binds hf hcap hn, Context.initBind_of_noFree _ _ full]
    rfl
  · rw [exec_vlanInit_binds hf hcap hn, Context.initBind_of_free _ _ hk]
    rfl

/-- Settles O33: a sound context has no second slot for the interface that lost its slot. -/
theorem unspecOnlyInitRebinds : Obligations.UnspecOnlyInitRebinds := by
  constructor
  · intro s t i j k f g sl tag hm sound hf hcap hn hk hsl hb ne hg he htag h
    obtain ⟨-, -, once, -⟩ := sound
    have free : isFirstSlot s.ctx.slots
        (fun x => x.tag = s.cfg.tagUnspec ∧ (s.cfg.initFree = .unbound → x.bound = none)) k := by
      simpa [hm] using hk
    rw [exec_vlanInit_binds hf hcap hn, Context.initBind_of_free _ _ free] at h
    cases h
    have lost := unbound_of_set (t := s.cfg.tagUnspec)
      (fun a b x y => (boundOnce_iff s.ctx).1 once a b j x y) hsl hb ne
    have hk : k < s.ctx.slots.length := (List.getElem?_eq_some_iff.1 hsl).1
    exact ⟨List.getElem?_set_self hk, lost, exec_vlanEnable_noCapacity hg he rfl htag
      (fun x hx hp => lost x hx hp.1) (fun x hx hp => lost x hx hp.1)⟩
  · intro s t i j k sl hm h hsl hb
    obtain e | ⟨n, f, -, -, -, e⟩ | ⟨_, _, _, _, hi, -⟩ | ⟨_, _, _, _, hi, -⟩ := exec_ctx_cases h
    · rw [e, hsl]
    · rw [e, hm, Context.initBind_unbound_getElem? _ _ hsl hb]
    · cases hi
    · cases hi

/-- Settles O34: the first free slot of the interface is bound to it already, so the write of its tag gives the pair. -/
theorem vlanEnableTakesTheFreeSlot : Obligations.VlanEnableTakesTheFreeSlot := by
  intro s i k t f hf he hi ht hp hk
  rw [exec_vlanEnable_ok hf he hi ht hp hk, State.vlanHook_eq]
  obtain ⟨⟨sl, hsl, hb, -⟩, -⟩ := hk
  simp only [Context.enable, setSlotTag_of_bound hsl hb]
  rfl

/-- Settles O35: condition by condition, in R123's order. -/
theorem vlanEnableReportsTheFirstFailure : Obligations.VlanEnableReportsTheFirstFailure := by
  intro s i t f hf fails
  split_ifs with he hi ht hp
  · exact exec_vlanEnable_invalidLayer hf he
  · exact exec_vlanEnable_notInitialized hf (eq_true_of_ne_false he) hi
  · subst ht
    exact exec_vlanEnable_invalidTag hf (eq_true_of_ne_false he) (eq_true_of_ne_false hi)
  · exact exec_vlanEnable_alreadyExists hf (eq_true_of_ne_false he) (eq_true_of_ne_false hi) ht hp
  · have hn := (((fails.resolve_left he).resolve_left hi).resolve_left ht).resolve_left hp
    exact exec_vlanEnable_noCapacity hf (eq_true_of_ne_false he) (eq_true_of_ne_false hi) ht
      (fun sl hsl pair => hp ⟨sl, hsl, pair⟩) hn

/-- Settles O36: the three failures in R127's order, else the slot found is bound to the interface already. -/
theorem vlanDisableFreesTheSlot : Obligations.VlanDisableFreesTheSlot := by
  refine fun s i t f hf => ⟨fun fails => ?_, fun k he ht hk => ?_⟩
  · split_ifs with he ht
    · exact exec_vlanDisable_invalidLayer hf he
    · subst ht
      exact exec_vlanDisable_invalidTag hf (eq_true_of_ne_false he)
    · exact exec_vlanDisable_notFound hf (eq_true_of_ne_false he) ht ((fails.resolve_left he).resolve_left ht)
  · have clamp : (if 0 < s.ctx.enabledCount then s.ctx.enabledCount - 1 else 0) = s.ctx.enabledCount - 1 := by
      split <;> omega
    rw [exec_vlanDisable_ok hf he ht hk, State.vlanHook_eq]
    obtain ⟨⟨sl, hsl, hb, -⟩, -⟩ := hk
    simp only [Context.disable, setSlotTag_of_bound hsl hb, clamp]
    rfl

/-- Settles O37: the one slot of the interface holds `TAG_UNSPEC`, then the tag, then `TAG_UNSPEC` again. -/
theorem vlanEnableDisableRoundTrip : Obligations.VlanEnableDisableRoundTrip := by
  intro s i t f _ sound hf he hi ht free
  obtain ⟨k, h⟩ := exists_holdsTag_of_free sound hi free
  obtain ⟨s1, e1, r1, h1⟩ := h.vlanEnable hf he ht
  obtain ⟨s2, e2, r2, h2⟩ := h1.vlanGetTag hf
  obtain ⟨s3, e3, r3, h3⟩ := h2.vlanEnable_again hf he ht
  obtain ⟨s4, e4, r4, h4⟩ := h3.vlanDisable hf he ht
  obtain ⟨s5, e5, r5, h5⟩ := h4.vlanGetTag hf
  obtain ⟨s6, e6, r6, -⟩ := h5.vlanEnable hf he ht
  exact ⟨s1, s2, s3, s4, s5, s6, e1, r1, e2, r2, e3, r3, e4, r4, e5, r5, e6, r6⟩

/-- Settles O38: VlanActive, which is true of a full sound table by its count. -/
theorem vlanIsEnabledTellsCountOrBit : Obligations.VlanIsEnabledTellsCountOrBit := by
  intro s i f hf
  rw [exec_vlanIsEnabled hf]
  refine ⟨rfl, fun sound full => ?_⟩
  have active : s.vlanActive i = true := by
    simp [State.vlanActive, (Context.enabledCount_eq_vlanCount_iff sound).2 full]
  rw [active]
  rfl

/-- Settles O39: the three results of LookupByTag. -/
theorem vlanLookupFindsTheFirstSlot : Obligations.VlanLookupFindsTheFirstSlot := by
  refine fun s t => ⟨fun k j sl ht hk hsl hb => ?_, fun k j sl ht hk hsl hb => ?_, fun ht hn => ?_⟩
  · exact exec_vlanLookup_of_some ((lookupByTag_of_tagged ht hk hsl).trans hb)
  · exact exec_vlanLookup_of_some ((lookupByTag_of_free ht hk hsl).trans hb)
  · rw [exec_vlanLookup, lookupByTag_eq_none ht hn]
    rfl

/-- Settles O40: GetTag of a bound and of an unbound interface. -/
theorem vlanGetTagReadsTheBoundSlot : Obligations.VlanGetTagReadsTheBoundSlot := by
  refine fun s i f hf => ⟨fun k sl hk hsl => ?_, fun hn => ?_⟩
  · rw [exec_vlanGetTag hf, getTag_of_firstBound hk hsl]
    rfl
  · rw [exec_vlanGetTag hf, getTag_of_unbound hn]
    rfl

end Sys2Proof.Machine
end

section
/-! PROOFS. FrameReceiver (43_frame_receiver.md): RX drops, hands to ARP or delivers; what it leaves unchanged. -/

namespace Sys2Proof.Machine

@[simp] theorem State.putPacket_putPacket (h : Handle) (p q : Packet) (s : State) :
    (s.putPacket h p).putPacket h q = s.putPacket h q := by
  simp [State.putPacket]

@[simp] theorem State.vlanActive_setStatus (c : Status) (s : State) (i : Nat) :
    (s.setStatus c).vlanActive i = s.vlanActive i := rfl

/-! ### A frame RX cannot read -/

theorem exec_rx_of_ready {s : State} {i : Nat} {f : Iface} {h : Handle} {p : Packet} (hr : s.ready i f h p) :
    exec (.rx i) s = .next (rxFrame i f h p s) := by
  obtain ⟨hf, he, ho, hp, hn⟩ := hr
  simp only [exec, execRx, State.onPacket_some _ hf he ho hp, State.ifOwned_of_not_mem _ hn]

/-- No header inside the first fragment (43_frame_receiver.md R151). -/
theorem parseHeader_eq_none {c : Launch} {active : Bool} {p : Packet}
    (hp : p.frags = [] ∨ ∃ g ∈ p.frags.head?, g.len < 14
      ∨ (active = true ∧ be16 g.buf (g.off + 12) = c.etypeVlan ∧ g.len < 18)) :
    parseHeader c active p = none := by
  unfold parseHeader
  obtain hnil | ⟨g, hg, short⟩ := hp
  · rw [hnil]
  · obtain ⟨fs, hfs⟩ := List.head?_eq_some_iff.1 hg
    rw [hfs]
    obtain h14 | ⟨ha, hv, h18⟩ := short
    · simp [h14]
    · simp [ha, hv, h18]

theorem classify_eq_none {c : Launch} {ty : Half} (h4 : ty ≠ c.etypeIpv4) (ha : ty ≠ c.etypeArp)
    (h6 : ty ≠ c.etypeIpv6) : classify c ty = none := by
  simp [classify, h4, ha, h6]

theorem exec_rx_of_parseHeader_eq_none {s : State} {i : Nat} {f : Iface} {h : Handle} {p : Packet} (hr : s.ready i f h p)
    (hp : parseHeader s.cfg (s.vlanActive i) p = none) : exec (.rx i) s = .next ((s.setStatus .ok).drop .malformed) := by
  simp only [exec_rx_of_ready hr, rxFrame, State.setStatus_cfg, State.vlanActive_setStatus, hp]

theorem exec_rx_of_classify_eq_none {s : State} {i : Nat} {f : Iface} {h : Handle} {p q : Packet} {ty : Half} {n : Nat}
    (hr : s.ready i f h p) (hp : parseHeader s.cfg (s.vlanActive i) p = some (ty, n, q))
    (hc : classify s.cfg ty = none) :
    exec (.rx i) s = .next (((s.setStatus .ok).putPacket h q).drop .unknownType) := by
  simp only [exec_rx_of_ready hr, rxFrame, State.setStatus_cfg, State.vlanActive_setStatus, hp, hc]

/-! ### Steps 6 to 8 on a packet already written back (43_frame_receiver.md R157 to R160) -/

section Stored

variable {s : State} {h : Handle} {q : Packet}

theorem rxDeliver_stored_of_none (hl : ipDeclaredLen s.cfg q = none) :
    rxDeliver h q ((s.setStatus .ok).putPacket h q) =
      { s with
        mem := s.mem.put h q
        res := { s.res with status := some 0, verdict := some 2, reason := some 1 } } := by
  unfold rxDeliver
  rw [State.putPacket_cfg, State.setStatus_cfg, hl]
  rfl

theorem rxDeliver_stored_of_some {l : Nat} (hl : ipDeclaredLen s.cfg q = some l) (hq : q.frags ≠ []) :
    ∃ p' : Packet, rxDeliver h q ((s.setStatus .ok).putPacket h q) =
        { s with
          mem := s.mem.put h p'
          log := s.log ++ trimEvents h q p'
          res := { s.res with status := some 0, verdict := some 1, reason := some 0 } }
      ∧ trimmedTo l q p' := by
  obtain ⟨p', ht, e⟩ := rxDeliver_of_some (h := h) (s := (s.setStatus .ok).putPacket h q) hl hq
  rw [State.putPacket_putPacket] at e
  exact ⟨p', e, ht⟩

/-- ARP present: its answer is the verdict, and the packet is its own from then on. -/
theorem rxArp_stored_of_enabled (he : s.cfg.arpEnabled = true) (hn : h ∉ s.handedOver) :
    ∃ (r : ArpInputReply) (rest : List ArpInputReply) (d : Nat),
      rxArp h q ((s.setStatus .ok).putPacket h q) =
        { s with
          mem := (s.mem.put h q).changes r.store
          log := s.log ++ [.arpInput h]
          arpInputs := rest
          draws := d
          handedOver := h :: s.handedOver
          res := { s.res with status := some 0, verdict := some (verdictCode r.verdict), reason := some 0 } }
      ∧ (s.arpInputs = r :: rest ∧ d = s.draws ∨ s.arpInputs = []) := by
  obtain ⟨r, rest, d, ask, source⟩ := State.askArpInput_eq h ((s.setStatus .ok).putPacket h q)
  refine ⟨r, rest, d, ?_, source.imp id And.left⟩
  unfold rxArp
  rw [State.putPacket_cfg, State.setStatus_cfg, he, if_pos rfl, ask]
  simp [State.handOver, State.setVerdict, hn, Status.code, Reason.code]

theorem rxArp_stored_of_drop (he : s.cfg.arpEnabled = false) (hd : s.cfg.arpFrames = .drop) :
    rxArp h q ((s.setStatus .ok).putPacket h q) =
      { s with
        mem := s.mem.put h q
        res := { s.res with status := some 0, verdict := some 2, reason := some 6 } } := by
  simp only [rxArp, State.putPacket_cfg, State.setStatus_cfg, he, hd]
  rfl

theorem rxArp_stored_of_forward (he : s.cfg.arpEnabled = false) (hd : s.cfg.arpFrames = .forward) :
    rxArp h q ((s.setStatus .ok).putPacket h q) = rxDeliver h q ((s.setStatus .ok).putPacket h q) := by
  simp [rxArp, he, hd]

end Stored

/-! ### An accepted frame -/

section Accepted

variable {s : State} {i : Nat} {f : Iface} {h : Handle} {p : Packet} {g : Frag} {n : Nat} {ty : Half} {fam : BitVec 2}
  (hr : s.ready i f h p) (hh : s.rxHeader i p g n ty)
  (hacc : groupBit (addr6At g.buf g.off) = true ∨ addr6At g.buf g.off = f.linkAddr)

include hr hh hacc

/-- An IP frame is stripped and goes to step 7 (43_frame_receiver.md R156, R158). -/
theorem exec_rx_ip (ht : s.cfg.typed ty fam false) :
    exec (.rx i) s =
      .next (rxDeliver h (rxStripped n fam g p) ((s.setStatus .ok).putPacket h (rxStripped n fam g p))) := by
  simp only [exec_rx_of_typed hr hh ht, if_pos hacc, Bool.false_eq_true, if_false]

/-- An ARP frame is stripped and goes to step 6 (43_frame_receiver.md R156, R157). -/
theorem exec_rx_arp (ht : s.cfg.typed ty fam true) :
    exec (.rx i) s =
      .next (rxArp h (rxStripped n fam g p) ((s.setStatus .ok).putPacket h (rxStripped n fam g p))) := by
  simp only [exec_rx_of_typed hr hh ht, if_pos hacc, if_true]

end Accepted

/-- A trim keeps the first fragment where it starts. -/
theorem trimmedTo.head {l : Nat} {p p' : Packet} {g : Frag} (ht : trimmedTo l p p') (hg : p.frags.head? = some g) :
    ∃ g' : Frag, p'.frags.head? = some g' ∧ g'.off = g.off ∧ g'.buf = g.buf := by
  obtain ⟨-, nonempty, -, -, -, kept, -⟩ := ht
  obtain ⟨g', hg'⟩ : ∃ g', p'.frags[0]? = some g' := ⟨_, List.getElem?_eq_getElem nonempty⟩
  obtain ⟨b, hb, hbuf, hoff, -⟩ := kept 0 g' hg'
  obtain rfl : b = g := by simpa [← List.head?_eq_getElem?, hg] using hb.symm
  exact ⟨g', by rw [List.head?_eq_getElem?, hg'], hoff, hbuf⟩

/-! ### The buffers under a packet RX works on (20_memory.md R67) -/

/-- `q` has the priority of `p`, and its fragments lie over the first of `p`'s buffers, every byte the same. -/
structure Packet.SameBytes (q p : Packet) : Prop where
  priority : q.priority = p.priority
  bufs : q.frags.map Frag.buf <+: p.frags.map Frag.buf

namespace Packet.SameBytes

variable {p q r : Packet}

theorem refl (p : Packet) : SameBytes p p := ⟨rfl, List.prefix_rfl⟩

theorem trans (h : SameBytes r q) (h' : SameBytes q p) : SameBytes r p :=
  ⟨h.priority.trans h'.priority, h.bufs.trans h'.bufs⟩

theorem length_le (h : SameBytes q p) : q.frags.length ≤ p.frags.length := by
  simpa using h.bufs.length_le

theorem byte?_eq {m m' : Memory} {a : Handle} {k : Nat} (h : SameBytes q p) (hp : m.packet? a = some p)
    (hq : m'.packet? a = some q) (hk : k < q.frags.length) (j : Nat) : m'.byte? a k j = m.byte? a k j := by
  have hk' : k < p.frags.length := Nat.lt_of_lt_of_le hk h.length_le
  have hbuf := h.bufs.getElem (i := k) (by simpa using hk)
  rw [List.getElem_map, List.getElem_map] at hbuf
  simp [Memory.byte?, hp, hq, hk, hk', hbuf]

end Packet.SameBytes

theorem parseHeader_sameBytes {c : Launch} {active : Bool} {p q : Packet} {ty : Half} {n : Nat}
    (h : parseHeader c active p = some (ty, n, q)) : q.SameBytes p := by
  obtain ⟨-, -, -, -, -, rfl⟩ := parseHeader_eq_some h
  exact ⟨rfl, List.prefix_rfl⟩

theorem strip_sameBytes (n : Nat) (p : Packet) : (strip n p).SameBytes p := by
  unfold strip
  split
  · exact ⟨rfl, List.prefix_rfl⟩
  · rename_i hfs
    exact ⟨rfl, by simp [hfs]⟩

theorem trim_sameBytes (l : Nat) (p : Packet) : (trim l p).1.SameBytes p := by
  unfold trim
  split
  · refine ⟨rfl, List.prefix_iff_getElem?.2 fun k hk => ?_⟩
    obtain ⟨-, -, -, -, kept, -⟩ := trimFrags_spec l 0 0 p.frags (Nat.zero_le _)
    simp only [List.length_map] at hk
    obtain ⟨b, hb, hbuf, -⟩ := kept k _ (List.getElem?_eq_getElem hk)
    simp [hb, hbuf]
  · exact .refl p

/-! ### What RX leaves unchanged -/

/-- What RX of packet `h` from `s` to `t` leaves unchanged where it has not asked ARP. -/
structure RxKeeps (h : Handle) (s t : State) : Prop where
  other : ∀ a, a ≠ h → t.mem.packet? a = s.mem.packet? a
  handedOver : t.handedOver = s.handedOver
  arpInputs : t.arpInputs = s.arpInputs
  packet : ∀ p q : Packet, s.mem.packet? h = some p → t.mem.packet? h = some q → q.SameBytes p

namespace RxKeeps

variable {h : Handle} {p q : Packet} {s t : State}

theorem of_mem_eq (hm : t.mem = s.mem) (ho : t.handedOver = s.handedOver) (ha : t.arpInputs = s.arpInputs) :
    RxKeeps h s t where
  other _ _ := by rw [hm]
  handedOver := ho
  arpInputs := ha
  packet p q hp hq := by
    obtain rfl : p = q := Option.some.inj (hp.symm.trans (hm ▸ hq))
    exact .refl p

theorem of_mem_put (hp : s.mem.packet? h = some p) (hq : q.SameBytes p) (hm : t.mem = s.mem.put h q)
    (ho : t.handedOver = s.handedOver) (ha : t.arpInputs = s.arpInputs) : RxKeeps h s t where
  other a ne := by rw [hm, Memory.packet?_put_ne _ _ ne]
  handedOver := ho
  arpInputs := ha
  packet p₀ q₀ hp₀ hq₀ := by
    obtain rfl : p = p₀ := Option.some.inj (hp.symm.trans hp₀)
    obtain rfl : q = q₀ := by simpa [hm] using hq₀
    exact hq

theorem rxDeliver (hp : s.mem.packet? h = some p) (hq : q.SameBytes p) :
    RxKeeps h s (rxDeliver h q ((s.setStatus .ok).putPacket h q)) := by
  unfold Machine.rxDeliver
  split
  · exact .of_mem_put hp hq rfl rfl rfl
  · rename_i l _
    exact .of_mem_put hp ((trim_sameBytes l q).trans hq) (Memory.put_put _ _ _ _) rfl rfl

end RxKeeps

/-- Step 6 asks ARP where there is one (43_frame_receiver.md R157). -/
theorem rxArp_asks_or_keeps {h : Handle} {p q : Packet} {s : State} (hp : s.mem.packet? h = some p)
    (hq : q.SameBytes p) :
    (rxArp h q ((s.setStatus .ok).putPacket h q)).log = s.log ++ [.arpInput h]
      ∨ RxKeeps h s (rxArp h q ((s.setStatus .ok).putPacket h q)) := by
  unfold rxArp
  split
  · obtain ⟨r, rest, d, ask, -⟩ := State.askArpInput_eq h ((s.setStatus .ok).putPacket h q)
    exact .inl (by rw [ask]; rfl)
  · split
    · exact .inr (.of_mem_put hp hq rfl rfl rfl)
    · exact .inr (.rxDeliver hp hq)

/-- RX past its checks: whichever step ends it, the packet it leaves is over the same buffers. -/
theorem rxFrame_asks_or_keeps (i : Nat) (f : Iface) {h : Handle} {p : Packet} {s : State}
    (hp : s.mem.packet? h = some p) :
    (rxFrame i f h p s).log = s.log ++ [.arpInput h] ∨ RxKeeps h s (rxFrame i f h p s) := by
  simp only [rxFrame, State.setStatus_cfg, State.vlanActive_setStatus]
  cases parsed : parseHeader s.cfg (s.vlanActive i) p with
  | none => exact .inr (.of_mem_eq rfl rfl rfl)
  | some header =>
    obtain ⟨ty, n, q⟩ := header
    have hq := parseHeader_sameBytes parsed
    dsimp only
    cases classify s.cfg ty with
    | none => exact .inr (.of_mem_put hp hq rfl rfl rfl)
    | some typed =>
      obtain ⟨fam, arp⟩ := typed
      have recorded : (recordLinkAddrs { q with family := fam }).SameBytes p := ⟨hq.priority, hq.bufs⟩
      have stripped := (strip_sameBytes n _).trans recorded
      dsimp only
      split
      · cases arp with
        | true => exact rxArp_asks_or_keeps hp stripped
        | false => exact .inr (.rxDeliver hp stripped)
      · exact .inr (.of_mem_put hp recorded rfl rfl rfl)

theorem exec_rx_asks_or_keeps {s t : State} {i : Nat} {h : Handle} (ho : s.ops.opPkt = some h)
    (e : exec (.rx i) s = .next t) : t.log = s.log ++ [.arpInput h] ∨ RxKeeps h s t := by
  obtain ⟨u, hu, cases⟩ := execRx_cases i s
  obtain rfl : u = t := Host.Outcome.next.inj (hu.symm.trans e)
  obtain rfl | rfl | ⟨f, k, p, rfl, -, -, hk, hp, -⟩ := cases
  · exact .inr (.of_mem_eq rfl rfl rfl)
  · exact .inr (.of_mem_eq rfl rfl rfl)
  · obtain rfl : h = k := Option.some.inj (ho.symm.trans hk)
    exact rxFrame_asks_or_keeps i f hp

/-- RX writes none of these, whether it asks ARP or not. -/
theorem exec_rx_frame {s t : State} {i : Nat} (e : exec (.rx i) s = .next t) :
    t.ctx = s.ctx ∧ t.ops = s.ops ∧ t.cfg = s.cfg ∧ t.arpResolves = s.arpResolves := by
  obtain ⟨u, hu, cases⟩ := execRx_cases i s
  obtain rfl : u = t := Host.Outcome.next.inj (hu.symm.trans e)
  obtain rfl | rfl | ⟨f, h, p, rfl, -⟩ := cases
  · exact ⟨rfl, rfl, rfl, rfl⟩
  · exact ⟨rfl, rfl, rfl, rfl⟩
  · obtain ⟨_, _, _, _, _, _, _, e⟩ := rxFrame_frame i f h p s
    rw [e]
    exact ⟨rfl, rfl, rfl, rfl⟩

/-! ### The statements -/

/-- Settles O42: an accepted IP frame comes to Trim with at least the fragment its header was in. -/
theorem rxTrimsToTheDeclaredLength : Obligations.RxTrimsToTheDeclaredLength := by
  intro s i f h p g n ty fam l hr hh ht hacc hl
  rw [exec_rx_ip hr hh hacc ht]
  obtain ⟨p', e, trimmed⟩ := rxDeliver_stored_of_some (h := h) hl (List.cons_ne_nil _ _)
  exact ⟨p', congrArg _ e, trimmed⟩

/-- Settles O41: the filter's two answers; the packet delivered is the trimmed one, whose first fragment starts past the
header. -/
theorem rxFiltersAndDelivers : Obligations.RxFiltersAndDelivers := by
  intro s i f h p g n ty fam arp hr hh ht
  refine ⟨fun unicast other => ?_, fun l hacc harp hl => ?_⟩
  · rw [exec_rx_of_typed hr hh ht, if_neg (not_or.2 ⟨ne_true_of_eq_false unicast, other⟩)]
    rfl
  · subst harp
    obtain ⟨p', e, trimmed⟩ := rxTrimsToTheDeclaredLength s i f h p g n ty fam l hr hh ht hacc hl
    have fragsAlone := trimmed.1
    exact ⟨p'.frags, _, fragsAlone ▸ e, trimmed.head rfl⟩

/-- Settles O43: ParseHeader fails, Classify fails, or the declared length is not there. -/
theorem rxDropsMalformedAndUnknownFrames : Obligations.RxDropsMalformedAndUnknownFrames := by
  intro s i f h p hr
  refine ⟨fun hp => ?_, fun g n ty hh h4 ha h6 => ?_, fun g n ty fam hh ht hacc hl => ?_⟩
  · rw [exec_rx_of_parseHeader_eq_none hr (parseHeader_eq_none hp)]
    rfl
  · rw [exec_rx_of_classify_eq_none hr (parseHeader_of_rxHeader hh) (classify_eq_none h4 ha h6)]
    rfl
  · rw [exec_rx_ip hr hh hacc ht, rxDeliver_stored_of_none hl]

/-- Settles O44: ARP's answer, listed or free; without ARP the two policies. -/
theorem rxHandsArpFramesToArp : Obligations.RxHandsArpFramesToArp := by
  intro s i f h p g n ty fam hr hh ht hacc
  have ⟨_, _, _, _, owned⟩ := hr
  rw [exec_rx_arp hr hh hacc ht]
  refine ⟨fun r rest he hs => ?_, fun he => ?_, fun he hd => ?_, fun he hd => ?_⟩
  · obtain ⟨r', rest', d, e, source⟩ := rxArp_stored_of_enabled (q := rxStripped n fam g p) he owned
    obtain ⟨listed, rfl⟩ | none := source
    · obtain ⟨rfl, rfl⟩ := List.cons.inj (hs.symm.trans listed)
      rw [e]
    · simp [hs] at none
  · obtain ⟨r, rest, d, e, -⟩ := rxArp_stored_of_enabled (q := rxStripped n fam g p) he owned
    exact ⟨_, r.verdict, congrArg _ e, rfl, rfl, rfl, rfl⟩
  · rw [rxArp_stored_of_drop he hd]
  · rw [rxArp_stored_of_forward he hd]
    refine ⟨fun hl => by rw [rxDeliver_stored_of_none hl], fun l hl => ?_⟩
    obtain ⟨p', e, trimmed⟩ := rxDeliver_stored_of_some (h := h) hl (List.cons_ne_nil _ _)
    exact ⟨p', congrArg _ e, trimmed⟩

/-- Settles O45: RX moves the bounds of fragments and cuts the chain, over the same buffers. -/
theorem rxWritesNoBufferByte : Obligations.RxWritesNoBufferByte := by
  intro s t i h ho e
  obtain ⟨ctx, ops, cfg, arpResolves⟩ := exec_rx_frame e
  refine ⟨ctx, ops, cfg, arpResolves, fun unasked => ?_⟩
  have keeps := (exec_rx_asks_or_keeps ho e).resolve_left unasked
  refine ⟨keeps.other, keeps.handedOver, keeps.arpInputs, fun p q hp hq => ?_⟩
  have same := keeps.packet p q hp hq
  exact ⟨same.priority, same.length_le, fun k j hk => same.byte?_eq hp hq hk j⟩

end Sys2Proof.Machine
end

section
/-! PROOFS. FrameSender (44_frame_sender.md): TX from its family test to the queue, the ARP path, and every way a TX can
end, said once; what a TX leaves unchanged and what the driver sends. -/

namespace Sys2Proof.Machine

theorem exec_tx_of_ready {s : State} {i : Nat} {f : Iface} {h : Handle} {p : Packet} (hr : s.ready i f h p) :
    exec (.tx i) s = .next (txPacket i f h p s) := by
  obtain ⟨hf, he, ho, hp, hn⟩ := hr
  simp only [exec, execTx, State.onPacket_some _ hf he ho hp, State.ifOwned_of_not_mem _ hn]

/-! ### TX that ends before label `HDR` (44_frame_sender.md R170, R171, R176) -/

section Early

variable {s : State} {i : Nat} {f : Iface} {h : Handle} {p : Packet}

theorem txPacket_of_otherFamily (h4 : p.family ≠ 1) (h6 : p.family ≠ 2) :
    txPacket i f h p s = (s.setStatus .ok).abandonTx .hostDuty s := by
  unfold txPacket
  exact if_pos ⟨h4, h6⟩

/-- With ARP present, an IPv4 destination that cannot be read. -/
theorem txPacket_of_ipv4Dst_eq_none (he : s.cfg.arpEnabled = true) (hf : p.family = 1) (hd : ipv4Dst s.cfg p = none) :
    txPacket i f h p s = (s.setStatus .ok).drop .malformed := by
  simp [txPacket, hf, he, hd]

/-- No destination set, and an IPv6 packet whose own cannot be read. -/
theorem defaultDst_eq_none {c : Launch} (hf : p.family = 2) (hl : p.llDst = none) (hd : ipv6Dst c p = none) :
    defaultDst c p = none := by
  simp [defaultDst, hl, hf, hd]

/-- The source fixed before the destination is looked for stays recorded. -/
theorem txPacket_of_ipv6Dst_eq_none (hf : p.family = 2) (hl : p.llDst = none) (hd : ipv6Dst s.cfg p = none) :
    txPacket i f h p s = ((s.setStatus .ok).putPacket h { p with llSrc := txSource f p }).drop .malformed := by
  have unread : defaultDst s.cfg { p with llSrc := txSource f p } = none := defaultDst_eq_none hf hl hd
  unfold txPacket
  dsimp only
  rw [if_neg (by simp [hf]), if_neg (by simp [hf]), fixSrc_eq, State.setStatus_cfg, unread]

end Early

/-! ### TX from label `HDR` (44_frame_sender.md R177 to R180) -/

/-- `q` carries what `p` does: link metadata and tag alone may differ. -/
structure Packet.SamePayload (q p : Packet) : Prop where
  family : q.family = p.family
  priority : q.priority = p.priority
  frags : q.frags = p.frags

theorem Packet.SamePayload.forgetLink {q p : Packet} (same : q.SamePayload p) (l : Leftover) :
    (q.forgetLink l).SamePayload p := ⟨same.family, same.priority, same.frags⟩

section Header

variable {s : State} {i : Nat} {f : Iface} {h : Handle} {p q : Packet} {tci : Half}

/-- Settling the addresses writes link metadata alone. -/
theorem State.txAddressed.samePayload (ha : s.txAddressed i f p q) : q.SamePayload p := by
  obtain ⟨-, d, rfl, -⟩ | ⟨-, -, v, -, -, rfl⟩ := ha <;> exact ⟨rfl, rfl, rfl⟩

theorem State.txAddressed.vlanTci (ha : s.txAddressed i f p q) : q.vlanTci = p.vlanTci := by
  obtain ⟨-, d, rfl, -⟩ | ⟨-, -, v, -, -, rfl⟩ := ha <;> rfl

/-- An untagged packet whose owner is unknown or bound to no slot (44_frame_sender.md R177). -/
theorem assignVlan_eq_none {c : Launch} {ss : List Slot} (hu : tciVid q.vlanTci = c.tagUnspec)
    (hn : ∀ j, ownerOf c q i = some j → ∀ sl ∈ ss, sl.bound ≠ some j) : assignVlan c ss i q = none := by
  rw [assignVlan, if_pos hu]
  cases owner : ownerOf c q i with
  | none => rfl
  | some j =>
    have noSlot : (ss.find? fun x => x.bound == some j) = none :=
      List.find?_eq_none.2 fun x hx => by simpa using hn j owner x hx
    simp only [noSlot]

theorem txFrame_of_assignVlan_eq_none (hv : s.vlanActive i = true) (hn : assignVlan s.cfg s.ctx.slots i q = none) :
    txFrame i h s q (s.setStatus .ok) = ((s.setStatus .ok).putPacket h q).drop .noVlanForIface := by
  obtain ⟨-, -, e⟩ | ⟨tci, ha, -⟩ := txFrame_cases i h q s
  · exact e
  · simp [hv, hn] at ha

/-- With its tag assigned a packet comes to the headroom check of R178: a fault, or the header in every fragment. -/
theorem txFrame_of_txTagged (ht : s.txTagged i q tci) :
    (¬ q.headroom (hdrLen (s.vlanActive i)) ∧ txFrame i h s q (s.setStatus .ok) =
        ((s.setStatus .ok).putPacket h (q.forgetLink (Config.freeLeftover s.draws))).abandonTx .headroom s)
      ∨ (q.headroom (hdrLen (s.vlanActive i)) ∧ txFrame i h s q (s.setStatus .ok) = ((s.setStatus .ok).putPacket h
        (writeAllHeaders s.cfg (s.vlanActive i) { q with vlanTci := tci })).enqueue i h) := by
  have assigned := assignVlan_of_txTagged ht
  obtain ⟨hv, hn, -⟩ | ⟨tci', ha, ends⟩ := txFrame_cases i h q s
  · simp [hv, hn] at assigned
  · obtain rfl : tci = tci' := congrArg Packet.vlanTci (Option.some.inj (assigned.symm.trans ha))
    exact ends

/-- The whole of a TX that is sent without ARP, however its addresses were settled. -/
theorem exec_tx_queued (hr : s.ready i f h p) (ha : s.txAddressed i f p q) (ht : s.txTagged i q tci)
    (hw : p.wf = true) (hh : p.headroom (s.headerReserve i)) :
    ∃ p' : Packet,
      exec (.tx i) s = .next
        { s with
          mem := s.mem.put h p'
          log := s.log ++ [.txQueue i h]
          handedOver := h :: s.handedOver
          res := { s.res with status := some 0, verdict := some 0, reason := some 0 } }
      ∧ p' = { q with frags := p'.frags, vlanTci := tci, llReserve := BitVec.ofNat 8 (s.headerReserve i) }
      ∧ headersOver s.cfg.etypeVlan (s.vlanActive i) q.llSrc q.llDst (s.cfg.txType p) tci p p' := by
  have ⟨family, _, frags⟩ := ha.samePayload
  have ⟨_, _, _, _, owned⟩ := hr
  rw [headerReserve_eq] at hh ⊢
  have queued := ((txFrame_of_txTagged (h := h) ht).resolve_left fun short => short.1 (by rwa [Packet.headroom, frags])).2
  rw [exec_tx_of_txAddressed hr ha, queued]
  have headers := writeAllHeaders_spec (c := s.cfg) (q := { q with vlanTci := tci }) hw hh frags
  have type : selectType s.cfg { q with vlanTci := tci } = s.cfg.txType p := by rw [selectType, family]
  refine ⟨writeAllHeaders s.cfg (s.vlanActive i) { q with vlanTci := tci }, ?_, rfl, type ▸ headers⟩
  simp [State.enqueue, State.handOver, State.setVerdict, State.emit, State.putPacket, owned, Status.code, Reason.code,
    verdictCode]

end Header

/-! ### The ARP path (44_frame_sender.md R173, R174) -/

section Arp

/-- The state once ARP has given the listed answer `r` about packet `h`, with `rest` still to come. -/
def State.arpAnswered (s : State) (h : Handle) (r : ArpResolveReply) (rest : List ArpResolveReply) : State :=
  { s.setStatus .ok with log := s.log ++ [.arpResolve h], arpResolves := rest, mem := s.mem.changes r.store }

variable {s : State} {i : Nat} {h h' : Handle} {r : ArpResolveReply} {rest : List ArpResolveReply}

theorem arpHeader_eq_some {q : Packet} {g : Frag} (hg : q.frags.head? = some g) (h12 : 12 ≤ q.llReserve.toNat)
    (hoff : q.llReserve.toNat ≤ g.off) : arpHeader q = some (g, g.off - q.llReserve.toNat) := by
  obtain ⟨fs, hfs⟩ := List.head?_eq_some_iff.1 hg
  simp [arpHeader, hfs, h12, hoff]

theorem arpHeader_eq_none {q : Packet}
    (hn : ∀ g, q.frags.head? = some g → q.llReserve.toNat < 12 ∨ g.off < q.llReserve.toNat) : arpHeader q = none := by
  unfold arpHeader
  split
  · rfl
  · rename_i g fs hfs
    refine if_neg fun inPlace => ?_
    have := hn g (by rw [hfs]; rfl)
    omega

theorem askArpResolve_of_listed (hs : s.arpResolves = r :: rest) :
    (s.setStatus .ok).askArpResolve h = (r.packet, s.arpAnswered h r rest) := by
  simp [State.askArpResolve, State.emit, State.arpAnswered, hs]

theorem txArp_of_noAnswer (hs : s.arpResolves = r :: rest) (hr : r.packet = none) :
    txArp i h s (s.setStatus .ok) = (s.arpAnswered h r rest).drop .arpFailed := by
  simp only [txArp, askArpResolve_of_listed hs, hr]

/-- ARP names a packet: the original is released if it is another, then R174's precondition decides. -/
theorem txArp_of_answer (hs : s.arpResolves = r :: rest) (hr : r.packet = some h') :
    ∃ ho : List Handle, (∀ x, x ∈ ho ↔ x ∈ s.handedOver ∨ (x = h ∧ h' ≠ h)) ∧
      let u : State := { s.arpAnswered h r rest with
        log := s.log ++ [.arpResolve h] ++ (if h' = h then [] else [.release h]), handedOver := ho }
      (∀ (q : Packet) (g : Frag) (base : Nat), u.mem.packet? h' = some q → arpHeader q = some (g, base) →
        txArp i h s (s.setStatus .ok) = (u.putPacket h' { q with
          llDst := some (addr6At g.buf base), llSrc := some (addr6At g.buf (base + 6)), llType := .ethernet }).enqueue i h')
      ∧ ((∀ q, u.mem.packet? h' = some q → arpHeader q = none) →
        txArp i h s (s.setStatus .ok) = u.abandonTx .hostDuty s) := by
  obtain ⟨ho, mem_ho, released⟩ := releaseOther_eq h h' (s.arpAnswered h r rest)
  refine ⟨ho, mem_ho, fun q g base hq hg => ?_, fun hn => ?_⟩ <;>
    simp only [txArp, askArpResolve_of_listed hs, hr, released]
  · simp only [show (s.arpAnswered h r rest).mem.packet? h' = some q from hq, hg]
    rfl
  · cases hq : (s.arpAnswered h r rest).mem.packet? h' with
    | none => rfl
    | some q =>
      simp only [hn q hq]
      rfl

end Arp

/-! ### How a TX can end -/

/-- Every way a TX of interface `i` accepted in state `s` can end, in the state `t`. -/
inductive TxEnds (i : Nat) (s t : State) : Prop
  /-- Illegal, or dropped with its packet as it was. -/
  | untouched (faulted : t.faulted = s.faulted) (log : t.log = s.log) (arp : t.arpResolves = s.arpResolves)
      (mem : t.mem = s.mem)
  /-- Dropped with some link metadata written. -/
  | dropped (h : Handle) (p q : Packet) (opPkt : s.ops.opPkt = some h) (hp : s.mem.packet? h = some p)
      (same : q.SamePayload p) (faulted : t.faulted = s.faulted) (log : t.log = s.log)
      (arp : t.arpResolves = s.arpResolves) (mem : t.mem = s.mem.put h q)
  /-- `Fatal(HOST_DUTY)`, on whatever path. -/
  | hostDuty (faulted : t.faulted = true) (cause : t.faultCause = 2)
  /-- ARP was asked, and the command came to a verdict. -/
  | asked (h : Handle) (es : List Event) (opPkt : s.ops.opPkt = some h) (faulted : t.faulted = s.faulted)
      (log : t.log = s.log ++ .arpResolve h :: es)
  /-- `Fatal(HEADROOM)`. -/
  | noHeadroom (h : Handle) (p q : Packet) (hp : s.mem.packet? h = some p) (same : q.SamePayload p)
      (faulted : t.faulted = true) (log : t.log = s.log) (mem : t.mem = s.mem.put h q)
  /-- Queued with the header in every fragment. -/
  | queued (h : Handle) (p q : Packet) (opPkt : s.ops.opPkt = some h) (hp : s.mem.packet? h = some p)
      (same : q.SamePayload p) (room : p.headroom (hdrLen (s.vlanActive i))) (faulted : t.faulted = s.faulted)
      (log : t.log = s.log ++ [.txQueue i h]) (arp : t.arpResolves = s.arpResolves)
      (mem : t.mem = s.mem.put h (writeAllHeaders s.cfg (s.vlanActive i) q))

section Ends

variable {s : State} {i : Nat} {h : Handle} {p q : Packet}

theorem txFrame_ends (opPkt : s.ops.opPkt = some h) (hp : s.mem.packet? h = some p) (same : q.SamePayload p) :
    TxEnds i s (txFrame i h s q (s.setStatus .ok)) := by
  obtain ⟨-, -, e⟩ | ⟨tci, -, ⟨-, e⟩ | ⟨room, e⟩⟩ := txFrame_cases i h q s <;> rw [e]
  · exact .dropped h p q opPkt hp same rfl rfl rfl rfl
  · exact .noHeadroom h p _ hp (same.forgetLink _) rfl (by simp) rfl
  · exact .queued h p { q with vlanTci := tci } opPkt hp ⟨same.family, same.priority, same.frags⟩
      (by rwa [Packet.headroom, ← same.frags]) rfl rfl rfl rfl

theorem txArp_ends (opPkt : s.ops.opPkt = some h) : TxEnds i s (txArp i h s (s.setStatus .ok)) := by
  obtain ⟨r, rest, d, -, ⟨-, e⟩ | ⟨h', ho, -, -, e | ⟨q, g, base, -, -, e⟩⟩⟩ := txArp_cases i h s <;> rw [e]
  · exact .asked h [] opPkt rfl rfl
  · exact .hostDuty rfl rfl
  · exact .asked h ((if h' = h then [] else [.release h]) ++ [.txQueue i h']) opPkt rfl (by simp [State.putPacket])

theorem txPacket_ends (f : Iface) (opPkt : s.ops.opPkt = some h) (hp : s.mem.packet? h = some p) :
    TxEnds i s (txPacket i f h p s) := by
  obtain ⟨e, -⟩ | e | e | ⟨e, -⟩ | ⟨src, dst, ty, e, -⟩ := txPacket_cases i f h p s <;> rw [e]
  · exact .hostDuty rfl rfl
  · exact .untouched rfl rfl rfl rfl
  · rw [fixSrc_eq]
    exact .dropped h p { p with llSrc := txSource f p } opPkt hp ⟨rfl, rfl, rfl⟩ rfl rfl rfl rfl
  · exact txArp_ends opPkt
  · exact txFrame_ends opPkt hp ⟨rfl, rfl, rfl⟩

theorem exec_tx_ends {t : State} (e : exec (.tx i) s = .next t) : TxEnds i s t := by
  obtain ⟨u, hu, cases⟩ := execTx_cases i s
  obtain rfl : u = t := Host.Outcome.next.inj (hu.symm.trans e)
  obtain rfl | rfl | ⟨f, h, p, rfl, -, -, opPkt, hp, -⟩ := cases
  · exact .untouched rfl rfl rfl rfl
  · exact .hostDuty rfl rfl
  · exact txPacket_ends f opPkt hp

/-- TX writes none of these, however it ends. -/
theorem exec_tx_frame {t : State} (e : exec (.tx i) s = .next t) :
    t.ctx = s.ctx ∧ t.ops = s.ops ∧ t.cfg = s.cfg ∧ t.arpInputs = s.arpInputs := by
  obtain ⟨u, hu, cases⟩ := execTx_cases i s
  obtain rfl : u = t := Host.Outcome.next.inj (hu.symm.trans e)
  obtain rfl | rfl | ⟨f, h, p, rfl, -⟩ := cases
  · exact ⟨rfl, rfl, rfl, rfl⟩
  · exact ⟨rfl, rfl, rfl, rfl⟩
  · obtain ⟨_, _, _, _, _, ⟨_, _, _, e⟩ | ⟨_, _, _, _, e⟩⟩ := txPacket_frame i f h p s <;> rw [e] <;>
      exact ⟨rfl, rfl, rfl, rfl⟩

end Ends

/-! ### The bytes TX leaves (44_frame_sender.md R178, 20_memory.md R66) -/

section Bytes

variable {p q : Packet}

/-- A packet with the same fragments put in place of `p` changes no byte of packet memory. -/
theorem Packet.SamePayload.byte?_put {m : Memory} {h : Handle} (same : q.SamePayload p) (hp : m.packet? h = some p)
    (a : Handle) (k j : Nat) : (m.put h q).byte? a k j = m.byte? a k j := by
  by_cases ha : a = h
  · subst ha
    simp [Memory.byte?, hp, same.frags]
  · simp [ha]

/-- `q` has the family, the priority and the fragments of `p`, and their bytes but the `n` before each one's data. -/
def Packet.AgreesOutside (n : Nat) (q p : Packet) : Prop :=
  q.family = p.family ∧ q.priority = p.priority ∧ q.frags.length = p.frags.length
    ∧ ∀ (k : Nat) (g : Frag), p.frags[k]? = some g → ∃ g' : Frag, q.frags[k]? = some g'
      ∧ g'.off = g.off ∧ g'.len = g.len ∧ g'.buf.length = g.buf.length
      ∧ ∀ j : Nat, j < g.off - n ∨ g.off ≤ j → g'.buf[j]? = g.buf[j]?

theorem Packet.SamePayload.agreesOutside (n : Nat) (same : q.SamePayload p) : q.AgreesOutside n p :=
  ⟨same.family, same.priority, by rw [same.frags],
    fun _ g hk => ⟨g, same.frags ▸ hk, rfl, rfl, rfl, fun _ _ => rfl⟩⟩

theorem writeAllHeaders_agreesOutside (c : Launch) {vl : Bool} (same : q.SamePayload p) (room : p.headroom (hdrLen vl)) :
    (writeAllHeaders c vl q).AgreesOutside (hdrLen vl) p := by
  refine ⟨same.family, same.priority, by simp [writeAllHeaders, same.frags], fun k g hk => ?_⟩
  obtain ⟨hoff, hlen, hbuf⟩ := headerWrite_bounds g c.etypeVlan vl q.llSrc q.llDst (selectType c q) q.vlanTci
  exact ⟨_, by simp [writeAllHeaders, same.frags, hk], hoff, hlen, hbuf,
    fun j hj => headerWrite_outside _ _ _ _ _ _ _ (room g (List.mem_of_getElem? hk)) hj⟩

/-- What a store with one packet put back reads: the others the same, and that one as written. -/
theorem agreesOutside_of_put {m m' : Memory} {h : Handle} {n : Nat} (hp : m.packet? h = some p)
    (agrees : q.AgreesOutside n p) (hm : m' = m.put h q) :
    (∀ a, a ≠ h → m'.packet? a = m.packet? a)
      ∧ ∀ p q : Packet, m.packet? h = some p → m'.packet? h = some q → q.AgreesOutside n p := by
  subst hm
  refine ⟨fun a ne => Memory.packet?_put_ne _ _ ne, fun p₀ q₀ hp₀ hq₀ => ?_⟩
  obtain rfl : p = p₀ := Option.some.inj (hp.symm.trans hp₀)
  obtain rfl : q = q₀ := by simpa using hq₀
  exact agrees

end Bytes

/-! ### What the driver sends (44_frame_sender.md R181) -/

section Wire

variable {g : Frag} {n : Nat}

theorem Frag.wireImage_eq_append (hn : n ≤ g.off) :
    g.wireImage n = (g.buf.drop (g.off - n)).take n ++ g.data := by
  rw [Frag.wireImage, show g.off + g.len - (g.off - n) = n + g.len by omega, List.take_add, List.drop_drop,
    Nat.sub_add_cancel hn, Frag.data]

theorem Frag.length_wireImage (hw : g.wf = true) (hn : n ≤ g.off) : (g.wireImage n).length = n + g.len := by
  have : g.off + g.len ≤ g.buf.length := of_decide_eq_true hw
  rw [Frag.wireImage, List.length_take, List.length_drop]
  omega

/-- Byte `j` of the header sent is byte `off − n + j` of the buffer. -/
theorem Frag.getD_wireImage (hn : n ≤ g.off) {j : Nat} (hj : j < n) :
    (g.wireImage n).getD j 0 = g.buf.getD (g.off - n + j) 0 := by
  rw [List.getD_eq_getElem?_getD, List.getD_eq_getElem?_getD, Frag.wireImage, List.getElem?_take_of_lt (by omega),
    List.getElem?_drop]

theorem Frag.be16_wireImage (hn : n ≤ g.off) {j : Nat} (hj : j + 2 ≤ n) :
    be16 (g.wireImage n) j = be16 g.buf (g.off - n + j) := by
  rw [be16, be16, Frag.getD_wireImage hn (by omega), Frag.getD_wireImage hn (by omega)]
  rfl

theorem Frag.addr6At_wireImage (hn : n ≤ g.off) (h6 : 6 ≤ n) :
    addr6At (g.wireImage n) 0 = addr6At g.buf (g.off - n) := by
  have byte (j : Nat) (hj : j < 6) := Frag.getD_wireImage hn (j := j) (by omega)
  simp only [addr6At, Nat.zero_add, byte 1 (by omega), byte 2 (by omega), byte 3 (by omega), byte 4 (by omega),
    byte 5 (by omega), byte 0 (by omega), Nat.add_zero]

theorem Frag.data_congr {g' : Frag} (hoff : g'.off = g.off) (hlen : g'.len = g.len)
    (hbuf : ∀ j, g.off ≤ j → g'.buf[j]? = g.buf[j]?) : g'.data = g.data := by
  rw [Frag.data, Frag.data, hoff, hlen]
  congr 1
  exact List.ext_getElem? fun j => by simpa using hbuf (g.off + j) (by omega)

/-- A fragment with the header over it goes out as that header and then its data. -/
theorem headerOver.wireImage {tpid ptype tci : Half} {vl : Bool} {src dst : Option Addr6} {g' : Frag}
    (header : headerOver tpid vl src dst ptype tci g g') (hw : g.wf = true) (hn : hdrLen vl ≤ g.off) :
    g'.wireImage (hdrLen vl) = (g'.buf.drop (g.off - hdrLen vl)).take (hdrLen vl) ++ g.data
      ∧ (g'.wireImage (hdrLen vl)).length = hdrLen vl + g.len
      ∧ be16 (g'.wireImage (hdrLen vl)) (hdrLen vl - 2) = ptype
      ∧ ∀ a : Addr6, dst = some a → addr6At (g'.wireImage (hdrLen vl)) 0 = a := by
  obtain ⟨hoff, hlen, hbuf, hdst, -, -, -, htype, houtside⟩ := header
  have hn' : hdrLen vl ≤ g'.off := hoff ▸ hn
  have hw' : g'.wf = true := by rwa [Frag.wf, hoff, hlen, hbuf]
  have h14 : 14 ≤ hdrLen vl := by cases vl <;> decide
  refine ⟨?_, ?_, ?_, fun a ha => ?_⟩
  · rw [Frag.wireImage_eq_append hn', hoff, Frag.data_congr hoff hlen fun j hj => houtside j (.inr hj)]
  · rw [Frag.length_wireImage hw' hn', hlen]
  · rw [Frag.be16_wireImage hn' (by omega), hoff]
    cases vl with
    | false => exact htype
    | true => exact htype.2.2
  · rw [Frag.addr6At_wireImage hn' (by omega), hoff]
    exact hdst a ha

end Wire

/-! ### The statements -/

/-- Settles O46: the destination set is one of the ways addresses are settled. -/
theorem txWritesTheHeaderInEveryFragment : Obligations.TxWritesTheHeaderInEveryFragment := by
  intro s i f h p d tci hr hd hl ht hw hh
  have addressed : s.txAddressed i f p { p with llSrc := txSource f p } :=
    .inl ⟨hd, d, by rw [← hl], .inl hl⟩
  obtain ⟨p', e, fields, headers⟩ := exec_tx_queued hr addressed ht hw hh
  exact ⟨p', e, fields, hl ▸ headers⟩

/-- Settles O47: R176's destinations are the other ways on the path that does not ask ARP. -/
theorem txFillsInTheDestination : Obligations.TxFillsInTheDestination := by
  intro s i f h p hr hd hl
  refine ⟨fun hf hn => ?_, fun d tci filled ht hw hh => ?_⟩
  · rw [exec_tx_of_ready hr, txPacket_of_ipv6Dst_eq_none hf hl hn]
    rfl
  · have addressed : s.txAddressed i f p { p with llSrc := txSource f p, llDst := some d } := by
      refine .inl ⟨hd, d, rfl, .inr ?_⟩
      obtain ⟨hf, e⟩ | ⟨w, hf, hw, e⟩ := filled
      · exact .inl ⟨hl, hf, e⟩
      · exact .inr ⟨hl, hf, w, hw, e⟩
    exact exec_tx_queued hr addressed ht hw hh

/-- Settles O48: the destination O47 fills in, read in the header of each fragment. -/
theorem txIpv6MulticastHeader : Obligations.TxIpv6MulticastHeader := by
  intro s i f h p w hr hf hl hd h0 h12 h13 h14 h15 hv hw hh
  have reserve : s.headerReserve i = 14 := by rw [headerReserve_eq, hv]; rfl
  have untagged : s.txTagged i { p with llSrc := txSource f p, llDst := some #v[0x33, 0x33, 0, 0, 0, 1] } p.vlanTci := by
    simp [State.txTagged, hv]
  obtain ⟨-, filled⟩ := txFillsInTheDestination s i f h p hr (.inl hf) hl
  obtain ⟨q, e, -, hlen, headers⟩ := filled #v[0x33, 0x33, 0, 0, 0, 1] p.vlanTci
    (.inr ⟨w, hf, hd, by rw [if_pos h0, h12, h13, h14, h15]⟩) untagged hw (reserve ▸ hh)
  refine ⟨_, q, e, rfl, by simp, hlen, fun g hg => ?_⟩
  obtain ⟨k, hk, rfl⟩ := List.mem_iff_getElem.1 hg
  obtain ⟨g', hg', hoff, -, -, hdst, -⟩ := headers k _ (List.getElem?_eq_getElem (hlen ▸ hk))
  obtain rfl : q.frags[k] = g' := Option.some.inj ((List.getElem?_eq_getElem hk).symm.trans hg')
  rw [hv] at hdst
  rw [hoff]
  exact hdst _ rfl

/-- Settles O49: the IPv4 shortcut is the last of the ways addresses are settled. -/
theorem txIpv4ShortcutSkipsArp : Obligations.TxIpv4ShortcutSkipsArp := by
  intro s i f h p hr he hf
  refine ⟨fun hn => ?_, fun v d tci hv shortcut hd ht hw hh => ?_⟩
  · rw [exec_tx_of_ready hr, txPacket_of_ipv4Dst_eq_none he hf hn]
    rfl
  · have addressed : s.txAddressed i f p { p with llSrc := some f.linkAddr, llDst := some d, llType := .ethernet } :=
      .inr ⟨he, hf, v, hv, shortcut, by rw [hd]⟩
    have type : s.cfg.txType p = s.cfg.etypeIpv4 := if_pos hf
    exact type ▸ exec_tx_queued hr addressed ht hw hh

/-- Settles O50: the three branches of the ARP path on the answer listed next. -/
theorem txFollowsTheArpAnswer : Obligations.TxFollowsTheArpAnswer := by
  intro s i f h p v r rest hr he hf hv hs hlist
  rw [exec_tx_of_arp hr he hf hv hs]
  refine ⟨fun hn => ?_, fun h' q g hp hq hg h12 hoff => ?_, fun h' hp broken => ?_⟩
  · rw [txArp_of_noAnswer hlist hn]
    rfl
  · obtain ⟨ho, mem_ho, queued, -⟩ := txArp_of_answer (i := i) (h := h) hlist hp
    rw [queued q g _ hq (arpHeader_eq_some hg h12 hoff)]
    refine ⟨_, fun x => ?_, rfl⟩
    rw [State.mem_handOver]
    simp only [State.putPacket, State.emit, mem_ho]
    grind
  · obtain ⟨ho, -, -, fault⟩ := txArp_of_answer (i := i) (h := h) hlist hp
    rw [fault fun q hq => arpHeader_eq_none fun g hg => broken q g hq hg]
    exact ⟨_, rfl, rfl, rfl, rfl⟩

/-- Settles O51: the ends of the ARP path, for an answer listed or free. -/
theorem txCompletesWhateverArpAnswers : Obligations.TxCompletesWhateverArpAnswers := by
  intro s i f h p v hr he hf hv hs running
  rw [exec_tx_of_arp hr he hf hv hs]
  refine ⟨_, rfl, ?_⟩
  obtain ⟨r, rest, d, -, ⟨-, e⟩ | ⟨h', ho, -, mem_ho, e | ⟨q, g, base, -, -, e⟩⟩⟩ := txArp_cases i h s <;> rw [e]
  · exact ⟨rfl, .inr (.inl ⟨running, rfl, rfl, rfl, rfl⟩)⟩
  · exact ⟨rfl, .inl ⟨rfl, rfl⟩⟩
  · refine ⟨rfl, .inr (.inr ⟨running, rfl, rfl, rfl, h', rfl, ?_, ?_⟩)⟩ <;> rw [State.enqueue_mem_handedOver]
    · by_cases same : h' = h
      · exact .inl same.symm
      · exact .inr ((mem_ho h).2 (.inr ⟨rfl, same⟩))
    · exact .inl rfl

/-- Settles O52: AssignVlan finds no slot before the headroom check is reached. -/
theorem txDropsUntaggedWithoutASlot : Obligations.TxDropsUntaggedWithoutASlot := by
  intro s i f h p q hr ha hv hu hn
  rw [exec_tx_of_txAddressed hr ha, txFrame_of_assignVlan_eq_none hv (assignVlan_eq_none (ha.vlanTci ▸ hu) hn)]
  rfl

/-- Settles O53: the headroom check comes before the first header byte, and no other end of a TX has its cause. -/
theorem txWithoutHeadroomFaultsBeforeWriting : Obligations.TxWithoutHeadroomFaultsBeforeWriting := by
  refine ⟨fun s i f h p q tci hr ha ht short => ?_, fun s t i running e faulted cause => ?_⟩
  · have ⟨_, _, _, hp, _⟩ := hr
    have same := ha.samePayload
    rw [headerReserve_eq] at short
    have noRoom := ((txFrame_of_txTagged (h := h) ht).resolve_right fun room =>
      short (by rw [Packet.headroom, ← same.frags]; exact room.1)).2
    rw [exec_tx_of_txAddressed hr ha, noRoom]
    exact ⟨_, rfl, rfl, rfl, rfl, by simp, (same.forgetLink _).byte?_put hp⟩
  · have ⟨ctx, _⟩ := exec_tx_frame e
    have faults : t.faulted ≠ s.faulted := by rw [faulted, running]; decide
    cases exec_tx_ends e with
    | untouched unfaulted => exact absurd unfaulted faults
    | dropped _ _ _ _ _ _ unfaulted => exact absurd unfaulted faults
    | hostDuty _ duty => exact absurd (cause.symm.trans duty) (by decide)
    | asked _ _ _ unfaulted => exact absurd unfaulted faults
    | noHeadroom h p q hp same _ log mem => exact ⟨ctx, log, fun a k j => by rw [mem, same.byte?_put hp]⟩
    | queued _ _ _ _ _ _ _ unfaulted => exact absurd unfaulted faults

/-- Settles O55: a TX that neither faults nor asks ARP leaves the store, or writes its own packet back. -/
theorem txChangesOnlyHeaderBytes : Obligations.TxChangesOnlyHeaderBytes := by
  intro s t i h ho e
  obtain ⟨ctx, ops, cfg, arpInputs⟩ := exec_tx_frame e
  refine ⟨ctx, ops, cfg, arpInputs, fun running unasked => ?_⟩
  rw [headerReserve_eq]
  cases exec_tx_ends e with
  | untouched _ _ arp mem =>
    refine ⟨arp, fun a _ => by rw [mem], fun p q hp hq => ?_⟩
    obtain rfl : p = q := Option.some.inj (hp.symm.trans (mem ▸ hq))
    exact Packet.SamePayload.agreesOutside _ ⟨rfl, rfl, rfl⟩
  | dropped k p q opPkt hp same _ _ arp mem =>
    obtain rfl : h = k := Option.some.inj (ho.symm.trans opPkt)
    exact ⟨arp, agreesOutside_of_put hp (same.agreesOutside _) mem⟩
  | hostDuty faulted => exact absurd (running.symm.trans faulted) (by decide)
  | asked k es opPkt _ log =>
    obtain rfl : h = k := Option.some.inj (ho.symm.trans opPkt)
    exact absurd log (unasked es)
  | noHeadroom _ _ _ _ _ faulted => exact absurd (running.symm.trans faulted) (by decide)
  | queued k p q opPkt hp same room _ _ arp mem =>
    obtain rfl : h = k := Option.some.inj (ho.symm.trans opPkt)
    exact ⟨arp, agreesOutside_of_put hp (writeAllHeaders_agreesOutside s.cfg same room) mem⟩

/-- Settles O56: of all ends of a TX only the queue leaves that log, and its packet has the header over each fragment. -/
theorem wireImageIsHeaderThenData : Obligations.WireImageIsHeaderThenData := by
  intro s t i f h p q hr hw e hlog running hq k g hk
  have ⟨_, _, ho, hp, _⟩ := hr
  have emitted : t.log ≠ s.log := by simp [hlog]
  cases exec_tx_ends e with
  | untouched _ log => exact absurd log emitted
  | dropped _ _ _ _ _ _ _ log => exact absurd log emitted
  | hostDuty faulted => exact absurd (running.symm.trans faulted) (by decide)
  | asked _ es _ _ log => simp [hlog] at log
  | noHeadroom _ _ _ _ _ faulted => exact absurd (running.symm.trans faulted) (by decide)
  | queued k' p' q' opPkt hp' same room _ _ _ mem =>
    obtain rfl : h = k' := Option.some.inj (ho.symm.trans opPkt)
    obtain rfl : p = p' := Option.some.inj (hp.symm.trans hp')
    obtain rfl : writeAllHeaders s.cfg (s.vlanActive i) q' = q := by simpa [mem] using hq
    obtain ⟨-, headers⟩ := writeAllHeaders_spec (c := s.cfg) hw room same.frags
    obtain ⟨g', hg', header⟩ := headers k g hk
    have type : selectType s.cfg q' = s.cfg.txType p := by rw [selectType, same.family]
    have hgw : g.wf = true := List.all_eq_true.1 hw g (List.mem_of_getElem? hk)
    have reserve : (writeAllHeaders s.cfg (s.vlanActive i) q').llReserve.toNat = hdrLen (s.vlanActive i) := by
      cases s.vlanActive i <;> rfl
    rw [headerReserve_eq, reserve]
    rw [type] at header
    exact ⟨g', hg', header.wireImage hgw (room g (List.mem_of_getElem? hk))⟩

/-- Settles O54: the family test comes first. -/
theorem txOfAnotherFamilyFaults : Obligations.TxOfAnotherFamilyFaults := by
  intro s i f h p hr h4 h6
  rw [exec_tx_of_ready hr, txPacket_of_otherFamily h4 h6]
  exact ⟨_, rfl, rfl, rfl, rfl, rfl, by simp, rfl⟩

end Sys2Proof.Machine
end

section
/-! PROOFS. HeaderBuilder (45_header_builder.md): HDR_BUILD with headroom; an address written over itself changes no byte of
the header; and the statements about the command. -/

namespace Sys2Proof.Machine

/-! ### An address already in place (45_header_builder.md R190, R192) -/

/-- The bytes already there written again. -/
theorem writeBytes_eq_self {b v : List Byte} {j : Nat} (h : ∀ k < v.length, b[j + k]? = v[k]?) : writeBytes b j v = b := by
  induction v generalizing j with
  | nil => rfl
  | cons x v ih =>
    obtain ⟨hj, hx⟩ := List.getElem?_eq_some_iff.1 (h 0 (Nat.zero_lt_succ _))
    have same : b.set j x = b := by rw [← hx]; exact List.set_getElem_self hj
    rw [writeBytes, same]
    refine ih fun k hk => ?_
    rw [Nat.add_right_comm]
    exact h (k + 1) (Nat.succ_lt_succ hk)

theorem getElem?_addr6At {b : List Byte} {j k : Nat} (hj : j + 6 ≤ b.length) (hk : k < 6) :
    (addr6At b j).toList[k]? = b[j + k]? := by
  have byte : b[j + k]? = some (b.getD (j + k) 0) := by
    rw [List.getElem?_eq_getElem (by omega), List.getD_eq_getElem _ _ (by omega)]
  rw [byte]
  match k, hk with
  | 0, _ | 1, _ | 2, _ | 3, _ | 4, _ | 5, _ => rfl

theorem Frag.writeAddr_inPlace {g : Frag} {j : Nat} {a : Addr6} (hj : j + 6 ≤ g.buf.length)
    (inPlace : addr6At g.buf j = a) : g.writeAddr j (some a) = g := by
  subst inPlace
  have same : writeBytes g.buf j (addr6At g.buf j).toList = g.buf :=
    writeBytes_eq_self fun k hk => (getElem?_addr6At hj (by simpa using hk)).symm
  rw [Frag.writeAddr, Frag.memWrite, same]

section HeaderWrite

variable {g : Frag} {vl : Bool} {a : Addr6} (tpid : Half) (src dst : Option Addr6) (ptype tci : Half)
  (hw : g.wf = true) (room : hdrLen vl ≤ g.off)
include hw room

/-- Both addresses of the header lie inside the buffer. -/
theorem Frag.addrs_inside : g.off - hdrLen vl + 6 + 6 ≤ g.buf.length := by
  have : g.off + g.len ≤ g.buf.length := of_decide_eq_true hw
  have : 14 ≤ hdrLen vl := by cases vl <;> decide
  omega

theorem headerWrite_dst_inPlace (inPlace : addr6At g.buf (g.off - hdrLen vl) = a) :
    g.headerWrite tpid vl src (some a) ptype tci = g.headerWrite tpid vl src none ptype tci := by
  have inside := Frag.addrs_inside hw room
  rw [Frag.headerWrite, Frag.writeAddr_inPlace (by omega) inPlace]
  rfl

/-- The destination is written first, and leaves the source's bytes. -/
theorem headerWrite_src_inPlace (inPlace : addr6At g.buf (g.off - hdrLen vl + 6) = a) :
    g.headerWrite tpid vl (some a) dst ptype tci = g.headerWrite tpid vl none dst ptype tci := by
  have inside := Frag.addrs_inside hw room
  obtain ⟨-, -, length, -, disjoint, -⟩ := writeAddr_buf g (g.off - hdrLen vl) dst
  rw [Frag.headerWrite, Frag.writeAddr_inPlace (by omega) ((disjoint _ (.inr le_rfl)).trans inPlace)]
  rfl

end HeaderWrite

/-! ### HDR_BUILD with headroom (45_header_builder.md R191) -/

/-- The state with the header written in fragment `g`, number `k`, of packet `p`. -/
def State.withHeader (s : State) (i : Nat) (h : Handle) (p : Packet) (k : Byte) (g : Frag) (src dst : Option Addr6)
    (ty : Half) : State :=
  { s with
    mem := s.mem.put h { p with
      frags := p.frags.set k.toNat (g.headerWrite s.cfg.etypeVlan (s.vlanActive i) src dst ty p.vlanTci) }
    res := { s.res with status := some 0 } }

/-- The operand registers decide the header and are left as they are: the rest of the next state is `withHeader`. -/
theorem exec_hdrBuild_of_headroom {s : State} {o : OperandRegs} {i : Nat} {f : Iface} {h : Handle} {p : Packet} {k : Byte}
    {g : Frag} {src dst : Option Addr6} {ty : Half} (hr : State.ready { s with ops := o } i f h p)
    (hk : o.opFrag = some k) (hg : p.frags[k.toNat]? = some g)
    (hsv : o.opSrcV = some src.isSome) (hs : ∀ a ∈ src, o.opSrc = some a)
    (hdv : o.opDstV = some dst.isSome) (hd : ∀ a ∈ dst, o.opDst = some a) (ht : o.opType = some ty)
    (room : hdrLen (s.vlanActive i) ≤ g.off) :
    exec (.hdrBuild i) { s with ops := o } = .next { s.withHeader i h p k g src dst ty with ops := o } := by
  rw [exec_hdrBuild_of_ready hr hk hg hsv hs hdv hd ht]
  exact congrArg _ (if_neg (Nat.not_lt.2 room))

/-- A flag and an address register, the register written where the flag asks for it, give an address or none. -/
theorem exists_optAddr_of_written {flag : Option Bool} {reg : Option Addr6}
    (written : ∃ b, flag = some b ∧ (b = true → reg.isSome = true)) :
    ∃ addr : Option Addr6, flag = some addr.isSome ∧ ∀ a ∈ addr, reg = some a := by
  obtain ⟨b, rfl, given⟩ := written
  cases b with
  | false => exact ⟨none, rfl, by simp⟩
  | true => exact ⟨reg, by rw [given rfl], fun _ ha => ha⟩

/-! ### The statements -/

/-- Settles O57: the operands read, only the headroom test is left, and what HeaderWrite does is `headerOver`. -/
theorem hdrBuildWritesOneHeader : Obligations.HdrBuildWritesOneHeader := by
  intro s i f h p k g src dst ty hr hk hg hsv hs hdv hd ht
  rw [headerReserve_eq]
  refine ⟨fun short => ?_, fun room hw => ⟨_, ?_, headerWrite_spec _ _ _ _ _ hw room⟩⟩
  · rw [exec_hdrBuild_of_ready hr hk hg hsv hs hdv hd ht, if_pos short]
    rfl
  · exact exec_hdrBuild_of_headroom (o := s.ops) hr hk hg hsv hs hdv hd ht room

/-- Settles O58: both commands write the same header, since an address over itself changes no byte. -/
theorem hdrBuildSelfCopyChangesNothing : Obligations.HdrBuildSelfCopyChangesNothing := by
  intro s i f h p k g a hr hk hg hw room typed
  obtain ⟨ty, ht⟩ := Option.isSome_iff_exists.1 typed
  rw [headerReserve_eq] at room ⊢
  refine ⟨fun inPlace written => ?_, fun inPlace written => ?_⟩
  · obtain ⟨src, hsv, hs⟩ := exists_optAddr_of_written written
    have same : s.withHeader i h p k g src (some a) ty = s.withHeader i h p k g src none ty := by
      rw [State.withHeader, headerWrite_dst_inPlace _ _ _ _ hw room inPlace]
      rfl
    refine ⟨s.withHeader i h p k g src none ty, ?_, exec_hdrBuild_of_headroom hr hk hg hsv hs rfl (by simp) ht room⟩
    rw [← same]
    exact exec_hdrBuild_of_headroom hr hk hg hsv hs rfl (by simp) ht room
  · obtain ⟨dst, hdv, hd⟩ := exists_optAddr_of_written written
    have same : s.withHeader i h p k g (some a) dst ty = s.withHeader i h p k g none dst ty := by
      rw [State.withHeader, headerWrite_src_inPlace _ _ _ _ hw room inPlace]
      rfl
    refine ⟨s.withHeader i h p k g none dst ty, ?_, exec_hdrBuild_of_headroom hr hk hg rfl (by simp) hdv hd ht room⟩
    rw [← same]
    exact exec_hdrBuild_of_headroom hr hk hg rfl (by simp) hdv hd ht room

end Sys2Proof.Machine
end

section
/-! PROOFS. The L2 driver contract (46_l2_interface.md): HDR_RESERVE against the reserve of a queued packet, and L2_ENABLE;
and the statements about them. -/

namespace Sys2Proof.Machine

/-! ### The header length as a byte (46_l2_interface.md R200) -/

theorem ofNat_hdrLen (vl : Bool) : BitVec.ofNat 8 (hdrLen vl) = if vl = true then 18 else 14 := by
  cases vl <;> rfl

section Commands

variable {s : State} {i : Nat} {f : Iface} (hf : s.cfg.ifaces[i]? = some f)
include hf

theorem exec_hdrReserve : exec (.hdrReserve i) s = .next ((s.setCount (s.headerReserve i)).setStatus .ok) := by
  rw [exec, execHdrReserve, State.onIface_some _ hf]

theorem exec_l2Enable (he : f.isEth = true) (en : Bool) : exec (.l2Enable i en) s =
    .next ((if !en && s.cfg.arpEnabled then s.emit (.arpClear i) else s).setStatus .ok) := by
  rw [exec, execL2Enable, State.onEth_some _ hf he]

end Commands

/-! ### The packet TX queues (44_frame_sender.md R178) -/

/-- Of all ends of a TX only the queue without ARP adds just that event, so the packet is the one with its headers. -/
theorem exec_tx_queued_packet {s t : State} {i : Nat} {h : Handle} (ho : s.ops.opPkt = some h)
    (e : exec (.tx i) s = .next t) (hlog : t.log = s.log ++ [.txQueue i h]) (running : t.faulted = false) :
    ∃ q, t.mem.packet? h = some (writeAllHeaders s.cfg (s.vlanActive i) q) := by
  have emitted : t.log ≠ s.log := by simp [hlog]
  cases exec_tx_ends e with
  | untouched _ log => exact absurd log emitted
  | dropped _ _ _ _ _ _ _ log => exact absurd log emitted
  | hostDuty faulted => exact absurd (running.symm.trans faulted) (by decide)
  | asked _ es _ _ log => simp [hlog] at log
  | noHeadroom _ _ _ _ _ faulted => exact absurd (running.symm.trans faulted) (by decide)
  | queued k _ q opPkt _ _ _ _ _ _ mem =>
    obtain rfl : h = k := Option.some.inj (ho.symm.trans opPkt)
    exact ⟨q, by rw [mem, Memory.packet?_put_same]⟩

/-! ### The statements -/

/-- Settles O59: HDR_RESERVE and a queued packet's reserve are the same `hdrLen` of the same VLAN state. -/
theorem hdrReserveIsTheHeaderLengthOfTx : Obligations.HdrReserveIsTheHeaderLengthOfTx := by
  intro s i f hf
  refine ⟨?_, fun t h q _ ho e hlog running hq => ?_⟩
  · rw [exec_hdrReserve hf, headerReserve_eq, State.setCount, ofNat_hdrLen]
    rfl
  · obtain ⟨p, hp⟩ := exec_tx_queued_packet ho e hlog running
    obtain rfl : writeAllHeaders s.cfg (s.vlanActive i) p = q := Option.some.inj (hp.symm.trans hq)
    exact ofNat_hdrLen _

/-- Settles O60: the event is emitted in one of the four cases of `en` and `ARP_ENABLED`, and the status is written in all. -/
theorem l2EnableClearsTheArpCacheOnDisable : Obligations.L2EnableClearsTheArpCacheOnDisable := by
  intro s i f en hf he
  rw [exec_l2Enable hf he]
  by_cases clears : en = false ∧ s.cfg.arpEnabled = true
  · rw [if_pos clears, if_pos (by simp [clears])]
    rfl
  · rw [if_neg clears, if_neg (by simpa using clears), List.append_nil]
    rfl

end Sys2Proof.Machine
end

section
/-! PROOFS. Exceptions (60_exceptions.md): every command completes, and a fault is left by reset alone; and the statements
about them. -/

namespace Sys2Proof.Machine

/-! ### The step of a block that has faulted (60_exceptions.md R226) -/

/-- No command runs in a fault, not even an illegal one (30_encoding.md R89; log 7): a step resets the block, or writes
operand registers and packets alone. -/
theorem step_next_cases_of_faulted {s s' : State} (hf : s.faulted = true) (h : step s = .next s') :
    (∃ rest, s.host = .reset :: rest ∧ s' = State.applyReset { s with host := rest })
    ∨ ∃ (o : OperandRegs) (m : Memory) (host : List HostAction) (ho : List Handle),
        s' = { s with ops := o, mem := m, host := host, handedOver := ho } := by
  obtain ⟨-, e⟩ | ⟨w, rest, -, ⟨-, e⟩ | ⟨running, -⟩ | ⟨running, -⟩⟩ | ⟨a, rest, ha, -, e⟩ := step_cases s
  · cases e.symm.trans h
    exact .inr ⟨_, _, _, _, rfl⟩
  · cases e.symm.trans h
  · cases running.symm.trans hf
  · cases running.symm.trans hf
  · obtain ⟨rfl, rfl⟩ | ⟨o, m, ho, rfl, -⟩ := hostAct_cases (e.symm.trans h)
    · exact .inl ⟨rest, ha, rfl⟩
    · exact .inr ⟨o, m, rest, ho, rfl⟩

/-! ### The statements -/

/-- Settles O14: none of the next states a command can answer, faults among them, writes what the host and the launch set. -/
theorem everyCommandCompletesAndLeavesItsOperands : Obligations.EveryCommandCompletesAndLeavesItsOperands := by
  intro i s
  refine exec_ind i s
    (status := fun _ => ⟨rfl, rfl, rfl, rfl⟩) (fatal := fun _ => ⟨rfl, rfl, rfl, rfl⟩)
    (bool := fun _ _ => ⟨rfl, rfl, rfl, rfl⟩) (addr := fun _ _ => ⟨rfl, rfl, rfl, rfl⟩)
    (iface := fun _ _ => ⟨rfl, rfl, rfl, rfl⟩) (tag := fun _ _ => ⟨rfl, rfl, rfl, rfl⟩)
    (count := fun _ _ => ⟨rfl, rfl, rfl, rfl⟩) (init := fun _ _ _ _ _ _ => ⟨rfl, rfl, rfl, rfl⟩)
    (enable := ?_) (disable := ?_) (clear := fun _ _ => ⟨rfl, rfl, rfl, rfl⟩)
    (build := fun _ _ _ _ _ _ _ _ _ _ _ _ _ => ⟨rfl, rfl, rfl, rfl⟩) (rx := ?_) (tx := ?_)
  · intros; simp
  · intros; simp
  · intro n f h p _ _ _
    obtain ⟨_, _, _, _, _, _, _, e⟩ := rxFrame_frame n f h p s
    rw [e]
    exact ⟨rfl, rfl, rfl, rfl⟩
  · intro n f h p _ _ _
    obtain ⟨_, _, _, _, _, ⟨_, _, _, e⟩ | ⟨_, _, _, _, e⟩⟩ := txPacket_frame n f h p s <;> rw [e] <;>
      exact ⟨rfl, rfl, rfl, rfl⟩

/-- Settles O10: what a step of a faulted block can do besides reset writes none of these. -/
theorem onlyResetLeavesAFault : Obligations.OnlyResetLeavesAFault := by
  intro s s' hf h
  refine ⟨fun noReset => ?_, fun rest hr => ?_⟩
  · obtain ⟨rest, hr, -⟩ | ⟨_, _, _, _, rfl⟩ := step_next_cases_of_faulted hf h
    · exact absurd hr (noReset rest)
    · exact ⟨hf, rfl, rfl, rfl, rfl⟩
  · cases (step_of_hostAct hr).symm.trans h
    rfl

end Sys2Proof.Machine
end

section
/-! PROOFS. Reset and hazards (70_reset_and_hazards.md): VLAN_INIT run twice; the packet commands on a packet whose
ownership has passed; and the statements about them. -/

namespace Sys2Proof.Machine

/-! ### VLAN_INIT on the state it left (R244) -/

section VlanInit

variable {s t : State} {i : Nat} {f : Iface}

/-- Item 3 of 30_encoding.md R88. -/
theorem exec_vlanInit_noInterface (hf : s.cfg.ifaces[i]? = none) : exec (.vlanInit i) s = .next s.illegal := by
  rw [exec, execVlanInit, State.onIface_none _ hf]

/-- A VLAN_INIT that takes effect leaves the interface bound, so the next finds it so; or no slot is free for it, nor is
one for the next. -/
theorem exec_vlanInit_idempotent_of_binds (hf : s.cfg.ifaces[i]? = some f) (hcap : f.vlanCap = true)
    (hn : ∀ sl ∈ s.ctx.slots, sl.bound ≠ some i) (h : exec (.vlanInit i) s = .next t) :
    exec (.vlanInit i) t = .next t := by
  rw [exec_vlanInit_binds hf hcap hn] at h
  cases free : initFree s.cfg.initFree s.cfg.tagUnspec s.ctx.slots with
  | none =>
    have full := (initFree_eq_none _ _ _).1 free
    rw [Context.initBind_of_noFree _ _ full] at h
    cases h
    rw [exec_vlanInit_binds (s := (s.setStatus .ok).setCtx { s.ctx with init := true }) hf hcap hn,
      Context.initBind_of_noFree _ _ (by exact full)]
    rfl
  | some k =>
    have first := (initFree_eq_some _ _ _ _).1 free
    rw [Context.initBind_of_free _ _ first] at h
    cases h
    obtain ⟨⟨_, hsl, -⟩, -⟩ := first
    have hk : k < s.ctx.slots.length := (List.getElem?_eq_some_iff.1 hsl).1
    exact exec_vlanInit_noEffect hf (.inr ⟨_, List.mem_set hk _, rfl⟩)

/-- Illegal, with no effect but the status, or binding: in each case the second run answers what the first did. -/
theorem exec_vlanInit_idempotent (h : exec (.vlanInit i) s = .next t) : exec (.vlanInit i) t = .next t := by
  cases hf : s.cfg.ifaces[i]? with
  | none =>
    cases (exec_vlanInit_noInterface hf).symm.trans h
    exact exec_vlanInit_noInterface hf
  | some f =>
    by_cases noEffect : f.vlanCap = false ∨ ∃ sl ∈ s.ctx.slots, sl.bound = some i
    · cases (exec_vlanInit_noEffect hf noEffect).symm.trans h
      exact exec_vlanInit_noEffect hf noEffect
    · obtain ⟨hcap, unbound⟩ := not_or.1 noEffect
      exact exec_vlanInit_idempotent_of_binds hf (eq_true_of_ne_false hcap)
        (fun sl hsl hb => unbound ⟨sl, hsl, hb⟩) h

end VlanInit

/-! ### A packet whose ownership has passed (93_implementation_defined.md U15; log 12) -/

section HandedOver

variable {s : State} {n : Nat} {f : Iface} {h : Handle} {p : Packet} (hf : s.cfg.ifaces[n]? = some f)
  (he : f.isEth = true) (ho : s.ops.opPkt = some h) (hp : s.mem.packet? h = some p) (hm : h ∈ s.handedOver)
include hf he ho hp hm

theorem exec_rx_handedOver : exec (.rx n) s = .next (s.raiseFatal .hostDuty) := by
  rw [exec, execRx, State.onPacket_some _ hf he ho hp, State.ifOwned_of_mem _ hm]

theorem exec_tx_handedOver : exec (.tx n) s = .next (s.raiseFatal .hostDuty) := by
  rw [exec, execTx, State.onPacket_some _ hf he ho hp, State.ifOwned_of_mem _ hm]

/-- `OPFRAG` comes before ownership: a fragment that is not there is illegal first (log 26). -/
theorem exec_hdrBuild_handedOver {k : Byte} (hfrag : s.ops.opFrag = some k) (hk : k.toNat < p.frags.length) :
    exec (.hdrBuild n) s = .next (s.raiseFatal .hostDuty) := by
  simp only [exec, execHdrBuild, State.onPacket_some _ hf he ho hp, hfrag, State.onOperand_some,
    List.getElem?_eq_getElem hk, State.ifOwned_of_mem _ hm]

end HandedOver

/-! ### The statements -/

/-- Settles O32: of a bound or incapable interface VLAN_INIT writes the status alone. -/
theorem vlanInitIsIdempotent : Obligations.VlanInitIsIdempotent := by
  refine ⟨fun s t i => exec_vlanInit_idempotent, fun s t i f hf noEffect h => ?_⟩
  cases (exec_vlanInit_noEffect hf noEffect.symm).symm.trans h
  exact ⟨rfl, rfl⟩

/-- Settles O9: each of the three commands tests ownership once its packet, and HDR_BUILD its fragment, is known. -/
theorem packetHandedOverFaults : Obligations.PacketHandedOverFaults := fun _ _ _ _ _ hf he ho hp hm =>
  ⟨exec_rx_handedOver hf he ho hp hm, exec_tx_handedOver hf he ho hp hm,
    fun _ hfrag hk => exec_hdrBuild_handedOver hf he ho hp hm hfrag hk⟩

end Sys2Proof.Machine
end
